-- ==== Sys2Proof/Word.lean ====
section
/-!
DEFINITION. The word and byte types of the MBBSEmu x86-16 core (spec/00_scope.md rules R8 and R11).
-/

namespace Sys2Proof

/-- A 16-bit word: a register, an offset or a segment ordinal. Arithmetic wraps mod 65536 (R11, R29). -/
abbrev Word := BitVec 16

/-- An 8-bit byte of a segment buffer or of an instruction encoding (R11). -/
abbrev Byte := BitVec 8

end Sys2Proof
end

