-- ==== Sys2Proof/Config.lean ====
section
/-!
DEFINITION. What is fixed for a context: the named constants of rule R8, the open parameters of
rule R9 and the decided switches of rule R10, and the free values, which have no body.
-/

namespace Sys2Proof.Config

/-! ### Fixed constants (R8; decision D41: each literal is named once) -/

/-- WORD_BITS: every register is 16 bits and wraps mod 65536. -/
def wordBits : Nat := 16
/-- NUM_GPR: AX, BX, CX, DX, SI, DI, BP, SP. -/
def numGpr : Nat := 8
/-- NUM_SREG: CS, DS, SS, ES. -/
def numSreg : Nat := 4
/-- SEG_SIZE: the bytes of one segment. -/
def segSize : Nat := 65536
/-- SEG_ORDINAL_BITS: a segment ordinal is a u16. -/
def segOrdinalBits : Nat := 16
/-- RELOC_SENTINEL: the immediate that stands for "value patched at link time". -/
def relocSentinel : Word := 0xFFFF#16
/-- HOST_SEG_THRESHOLD: a segment value above it is host-owned. -/
def hostSegThreshold : Word := 0xFF#16
/-- STOSW_CX_STEP: CX falls by this much per word stored. -/
def stoswCxStep : Word := 2#16
/-- STACK_STEP: SP moves by this per push or pop. -/
def stackStep : Word := 2#16
/-- RELOC_PROBE_OFFSET: relocations are looked up at IP + 1. -/
def relocProbeOffset : Word := 1#16

/-- The value a byte of a registered segment has before anything is stored to it: buffers are
zero-padded (R41), so the memory list names no byte equal to it. -/
def unlistedByte : Byte := 0#8

/-- The iterations a STOSW step is followed for before it is known never to end (log entry 8). CX and DI
both move by 2, so the pair (CX, DI) is back at its start after 32768 iterations. -/
def stoswFuel : Nat := 65536

/-! ### Decided switches (R10) and open parameters that are plain data (R9) -/

/-- ADD_CF_SOURCE (D10): which sign bits the carry rule of ADD compares. -/
inductive AddCfSource
  /-- The old destination with the result (the default). -/
  | oldNew
  /-- The two operands. -/
  | destSrc
  deriving DecidableEq, Repr

/-- ADD_CF_WRITE (D9): what ADD does to CF when the sign bits agree. -/
inductive AddCfWrite
  /-- CF is set or cleared (the default). -/
  | assign
  /-- CF is set on a mismatch and left alone otherwise. -/
  | setOnly
  deriving DecidableEq, Repr

/-- LOGIC_FLAGS (D7): ZF and CF after XOR, OR and SHL. -/
inductive LogicFlags
  /-- Any value (the default): two free values. -/
  | draw
  /-- Left as they were. -/
  | unchanged
  /-- The x86 result. -/
  | x86
  deriving DecidableEq, Repr

/-- RESET_REGS (D6): a read by an instruction of a register or flag that nothing has written. -/
inductive ResetRegs
  /-- It raises UninitialisedRead (the spec's default). -/
  | unwritten
  /-- It gives the value the register was created with. -/
  | draw
  deriving DecidableEq, Repr

/-- TAIL_POLICY (D2): what Decode does with an instruction that would run past offset 0xFFFF. -/
inductive TailPolicy
  /-- Decode fails. -/
  | fail
  /-- Decode gives Other with the rest of the buffer as its length. -/
  | accept
  deriving DecidableEq, Repr

/-- The construction parameters of one context. No step and no host operation changes them. -/
structure Switches where
  /-- ADD_CF_SOURCE. -/
  addCfSource : AddCfSource
  /-- ADD_CF_WRITE. -/
  addCfWrite : AddCfWrite
  /-- LOGIC_FLAGS. -/
  logicFlags : LogicFlags
  /-- RESET_REGS. -/
  resetRegs : ResetRegs
  /-- TAIL_POLICY. -/
  tailPolicy : TailPolicy
  /-- HOST_SCRATCH_SEG, the ordinal of the reserved host-scratch segment (D34). -/
  hostScratchSeg : Word
  deriving DecidableEq, Repr

/-! ### Free values: constants with no body, so that no proof can know what they are -/

/-- `draw()` of one bit (R16), the n-th of a context: used by XOR, OR and SHL (R108 to R110). -/
opaque drawBit : Nat → Bool

/-- The word the n-th host callback answers when it is HostReadWord(segment, offset) (R15, R56). -/
opaque hostReadWord : Nat → Word → Word → Word

/-- Which encodings that x86 reserves make `Decode` fail (R66: "Which byte sequences make `Fail` is part of
the parameter"), on the bytes from the encoding on, at most 15 of them. -/
opaque reservedFails : List Byte → Bool

/-- The length `Decode` gives a 0F opcode that x86 does not assign, on the bytes from it on, at most 15. -/
opaque unassignedLength : List Byte → Nat

end Sys2Proof.Config
end

