-- ==== Sys2Proof/Syntax.lean ====
section
/-!
DEFINITION. The abstract syntax: registers, operands, the decoded-instruction record of rule R65, and
Instr, one constructor per row of spec/opcode_table.json.
-/

namespace Sys2Proof

/-- A general-purpose register (R20), in the order of its 3-bit number. -/
inductive Gpr
  | ax | cx | dx | bx | sp | bp | si | di
  deriving DecidableEq, Repr

/-- A segment register (R22), in the order of its 2-bit number. -/
inductive Sreg
  | es | cs | ss | ds
  deriving DecidableEq, Repr

/-- One of the 12 numbered registers an operand may name (R12). -/
inductive Reg
  | gpr (g : Gpr)
  | seg (s : Sreg)
  deriving DecidableEq, Repr

/-- The mnemonics of rule R65; `other` is every decoded instruction that is no admitted form. -/
inductive Mnemonic
  | add | cmp | inc | xor | or | shl | push | pop | mov | lea | enter | leave | stosw
  | je | jne | jl | jge | jle | jbe | jmp | call | other
  deriving DecidableEq, Repr

/-- The memory-size field of a memory operand (R79). -/
inductive MemSize
  | byte | word
  deriving DecidableEq, Repr

/-- The base register of a memory operand: none (displacement-only) or BP (R65, R73). -/
inductive BaseReg
  | absent | bp
  deriving DecidableEq, Repr

/-- A memory operand. `seg` is the effective segment register: the override if the instruction has
one, otherwise the default of rule R80. -/
structure MemOperand where
  size : MemSize
  seg : Sreg
  base : BaseReg
  disp : Word
  deriving DecidableEq, Repr

/-- An operand of a decoded instruction (R65). -/
inductive Operand
  | reg (r : Reg)
  | imm8 (v : Byte)
  | imm16 (v : Word)
  /-- "immediate-8-sign-extended-to-16". -/
  | imm8to16 (v : Byte)
  | mem (m : MemOperand)
  /-- "the instruction's 16-bit branch target". -/
  | nearBranch (target : Word)
  /-- The "Far-branch form". -/
  | farBranch (selector offset : Word)
  deriving DecidableEq, Repr

/-- The repeat byte of a decoded instruction, if it has one (R65). -/
inductive Rep
  | none | rep | repne
  deriving DecidableEq, Repr

/-- The Decoded Instruction record of rule R65. -/
structure DecodedInstruction where
  mnemonic : Mnemonic
  /-- 0 to 2 operands, destination first. -/
  ops : List Operand
  rep : Rep
  /-- Total bytes, the segment-override or repeat byte included. -/
  length : Nat
  deriving DecidableEq, Repr

/-- The admitted instructions, one constructor per row of the opcode table, in its order.

A constructor holds the row's fields as the encoding gives them: `g` the reg field, `m` the rm field
with mod 11, `r` the opcode's register, `s` a segment-register field, `d` the displacement, `i` the
immediate, `rel` a relative branch field, `sel` the far selector, and `ov` the optional
segment-override byte of a memory form. In the names, Rm is a register rm field, D16 is [disp16], B8
is [BP+disp8], B16 is [BP+disp16], R a register field, S a segment register and I an immediate. -/
inductive Instr
  /-- `00000001 11gggmmm`: ADD r16(m),r16(g) (R105). -/
  | addRmR (g : Gpr) (m : Gpr)
  /-- `00000011 11gggmmm`: ADD r16(g),r16(m) (R105). -/
  | addRRm (g : Gpr) (m : Gpr)
  /-- `00000101 iiiiiiii IIIIIIII`: ADD AX,imm16 (R105). -/
  | addAxI16 (i : Word)
  /-- `10000001 11000mmm iiiiiiii IIIIIIII`: ADD r16(m),imm16 (R105). -/
  | addRmI16 (m : Gpr) (i : Word)
  /-- `10000011 11000mmm iiiiiiii`: ADD r16(m),sext imm8 (R105). -/
  | addRmI8 (m : Gpr) (i : Byte)
  /-- `00111001 11gggmmm`: CMP r16(m),r16(g) (R106). -/
  | cmpRmR (g : Gpr) (m : Gpr)
  /-- `00111001 00ggg110 dddddddd DDDDDDDD`: CMP [disp16],r16(g) ([disp16], default DS) (R106). -/
  | cmpD16R (ov : Option Sreg) (g : Gpr) (d : Word)
  /-- `00111001 01ggg110 dddddddd`: CMP [BP+disp8],r16(g) ([BP+disp8], default SS) (R106). -/
  | cmpB8R (ov : Option Sreg) (g : Gpr) (d : Byte)
  /-- `00111001 10ggg110 dddddddd DDDDDDDD`: CMP [BP+disp16],r16(g) ([BP+disp16], default SS) (R106). -/
  | cmpB16R (ov : Option Sreg) (g : Gpr) (d : Word)
  /-- `00111011 11gggmmm`: CMP r16(g),r16(m) (R106). -/
  | cmpRRm (g : Gpr) (m : Gpr)
  /-- `00111011 00ggg110 dddddddd DDDDDDDD`: CMP r16(g),[disp16] ([disp16], default DS) (R106). -/
  | cmpRD16 (ov : Option Sreg) (g : Gpr) (d : Word)
  /-- `00111011 01ggg110 dddddddd`: CMP r16(g),[BP+disp8] ([BP+disp8], default SS) (R106). -/
  | cmpRB8 (ov : Option Sreg) (g : Gpr) (d : Byte)
  /-- `00111011 10ggg110 dddddddd DDDDDDDD`: CMP r16(g),[BP+disp16] ([BP+disp16], default SS) (R106). -/
  | cmpRB16 (ov : Option Sreg) (g : Gpr) (d : Word)
  /-- `00111101 iiiiiiii IIIIIIII`: CMP AX,imm16 (R106). -/
  | cmpAxI16 (i : Word)
  /-- `10000001 11111mmm iiiiiiii IIIIIIII`: CMP r16(m),imm16 (R106). -/
  | cmpRmI16 (m : Gpr) (i : Word)
  /-- `10000001 00111110 dddddddd DDDDDDDD iiiiiiii IIIIIIII`: CMP [disp16],imm ([disp16], default DS) (R106). -/
  | cmpD16I16 (ov : Option Sreg) (d : Word) (i : Word)
  /-- `10000001 01111110 dddddddd iiiiiiii IIIIIIII`: CMP [BP+disp8],imm ([BP+disp8], default SS) (R106). -/
  | cmpB8I16 (ov : Option Sreg) (d : Byte) (i : Word)
  /-- `10000001 10111110 dddddddd DDDDDDDD iiiiiiii IIIIIIII`: CMP [BP+disp16],imm ([BP+disp16], default SS) (R106). -/
  | cmpB16I16 (ov : Option Sreg) (d : Word) (i : Word)
  /-- `10000011 11111mmm iiiiiiii`: CMP r16(m),sext imm8 (R106). -/
  | cmpRmI8 (m : Gpr) (i : Byte)
  /-- `10000011 00111110 dddddddd DDDDDDDD iiiiiiii`: CMP [disp16],sext imm ([disp16], default DS) (R106). -/
  | cmpD16I8 (ov : Option Sreg) (d : Word) (i : Byte)
  /-- `10000011 01111110 dddddddd iiiiiiii`: CMP [BP+disp8],sext imm ([BP+disp8], default SS) (R106). -/
  | cmpB8I8 (ov : Option Sreg) (d : Byte) (i : Byte)
  /-- `10000011 10111110 dddddddd DDDDDDDD iiiiiiii`: CMP [BP+disp16],sext imm ([BP+disp16], default SS) (R106). -/
  | cmpB16I8 (ov : Option Sreg) (d : Word) (i : Byte)
  /-- `10000000 00111110 dddddddd DDDDDDDD iiiiiiii`: CMP byte [disp16],imm ([disp16], default DS) (R106). -/
  | cmpByteD16I8 (ov : Option Sreg) (d : Word) (i : Byte)
  /-- `10000000 01111110 dddddddd iiiiiiii`: CMP byte [BP+disp8],imm ([BP+disp8], default SS) (R106). -/
  | cmpByteB8I8 (ov : Option Sreg) (d : Byte) (i : Byte)
  /-- `10000000 10111110 dddddddd DDDDDDDD iiiiiiii`: CMP byte [BP+disp16],imm ([BP+disp16], default SS) (R106). -/
  | cmpByteB16I8 (ov : Option Sreg) (d : Word) (i : Byte)
  /-- `01000rrr`: INC r16 (R107). -/
  | incR (r : Gpr)
  /-- `11111111 11000mmm`: INC r16(m) (R107). -/
  | incRm (m : Gpr)
  /-- `00110001 11gggmmm`: XOR r16(m),r16(g) (R108). -/
  | xorRmR (g : Gpr) (m : Gpr)
  /-- `00110011 11gggmmm`: XOR r16(g),r16(m) (R108). -/
  | xorRRm (g : Gpr) (m : Gpr)
  /-- `00110011 00ggg110 dddddddd DDDDDDDD`: XOR r16(g),[disp16] ([disp16], default DS) (R108). -/
  | xorRD16 (ov : Option Sreg) (g : Gpr) (d : Word)
  /-- `00110011 01ggg110 dddddddd`: XOR r16(g),[BP+disp8] ([BP+disp8], default SS) (R108). -/
  | xorRB8 (ov : Option Sreg) (g : Gpr) (d : Byte)
  /-- `00110011 10ggg110 dddddddd DDDDDDDD`: XOR r16(g),[BP+disp16] ([BP+disp16], default SS) (R108). -/
  | xorRB16 (ov : Option Sreg) (g : Gpr) (d : Word)
  /-- `00110101 iiiiiiii IIIIIIII`: XOR AX,imm16 (R108). -/
  | xorAxI16 (i : Word)
  /-- `10000001 11110mmm iiiiiiii IIIIIIII`: XOR r16(m),imm16 (R108). -/
  | xorRmI16 (m : Gpr) (i : Word)
  /-- `10000011 11110mmm iiiiiiii`: XOR r16(m),sext imm8 (R108). -/
  | xorRmI8 (m : Gpr) (i : Byte)
  /-- `00001001 11gggmmm`: OR r16(m),r16(g) (R109). -/
  | orRmR (g : Gpr) (m : Gpr)
  /-- `00001011 11gggmmm`: OR r16(g),r16(m) (R109). -/
  | orRRm (g : Gpr) (m : Gpr)
  /-- `00001011 00ggg110 dddddddd DDDDDDDD`: OR r16(g),[disp16] ([disp16], default DS) (R109). -/
  | orRD16 (ov : Option Sreg) (g : Gpr) (d : Word)
  /-- `00001011 01ggg110 dddddddd`: OR r16(g),[BP+disp8] ([BP+disp8], default SS) (R109). -/
  | orRB8 (ov : Option Sreg) (g : Gpr) (d : Byte)
  /-- `00001011 10ggg110 dddddddd DDDDDDDD`: OR r16(g),[BP+disp16] ([BP+disp16], default SS) (R109). -/
  | orRB16 (ov : Option Sreg) (g : Gpr) (d : Word)
  /-- `00001101 iiiiiiii IIIIIIII`: OR AX,imm16 (R109). -/
  | orAxI16 (i : Word)
  /-- `10000001 11001mmm iiiiiiii IIIIIIII`: OR r16(m),imm16 (R109). -/
  | orRmI16 (m : Gpr) (i : Word)
  /-- `10000011 11001mmm iiiiiiii`: OR r16(m),sext imm8 (R109). -/
  | orRmI8 (m : Gpr) (i : Byte)
  /-- `11010001 11100mmm`: SHL r16(m),1 (R110). -/
  | shlRm1 (m : Gpr)
  /-- `11000001 11100mmm iiiiiiii`: SHL r16(m),imm8 (R110). -/
  | shlRmI8 (m : Gpr) (i : Byte)
  /-- `01010rrr`: PUSH r16 (R111). -/
  | pushR (r : Gpr)
  /-- `11111111 11110mmm`: PUSH r16(m) (R111). -/
  | pushRm (m : Gpr)
  /-- `11111111 00110110 dddddddd DDDDDDDD`: PUSH [disp16] ([disp16], default DS) (R111). -/
  | pushD16 (ov : Option Sreg) (d : Word)
  /-- `11111111 01110110 dddddddd`: PUSH [BP+disp8] ([BP+disp8], default SS) (R111). -/
  | pushB8 (ov : Option Sreg) (d : Byte)
  /-- `11111111 10110110 dddddddd DDDDDDDD`: PUSH [BP+disp16] ([BP+disp16], default SS) (R111). -/
  | pushB16 (ov : Option Sreg) (d : Word)
  /-- `00000110`: PUSH ES (R111). -/
  | pushEs
  /-- `00001110`: PUSH CS (R111). -/
  | pushCs
  /-- `00010110`: PUSH SS (R111). -/
  | pushSs
  /-- `00011110`: PUSH DS (R111). -/
  | pushDs
  /-- `01101000 iiiiiiii IIIIIIII`: PUSH imm16 (R111). -/
  | pushI16 (i : Word)
  /-- `01101010 iiiiiiii`: PUSH sext imm8 (R111). -/
  | pushI8 (i : Byte)
  /-- `01011rrr`: POP r16 (R112). -/
  | popR (r : Gpr)
  /-- `10001111 11000mmm`: POP r16(m) (R112). -/
  | popRm (m : Gpr)
  /-- `00000111`: POP ES (R112). -/
  | popEs
  /-- `00010111`: POP SS (R112). -/
  | popSs
  /-- `00011111`: POP DS (R112). -/
  | popDs
  /-- `10111rrr iiiiiiii IIIIIIII`: MOV r16,imm16 (R113). -/
  | movRI16 (r : Gpr) (i : Word)
  /-- `11000111 11000mmm iiiiiiii IIIIIIII`: MOV r16(m),imm16 (R113). -/
  | movRmI16 (m : Gpr) (i : Word)
  /-- `11000111 00000110 dddddddd DDDDDDDD iiiiiiii IIIIIIII`: MOV [disp16],imm ([disp16], default DS) (R113). -/
  | movD16I16 (ov : Option Sreg) (d : Word) (i : Word)
  /-- `11000111 01000110 dddddddd iiiiiiii IIIIIIII`: MOV [BP+disp8],imm ([BP+disp8], default SS) (R113). -/
  | movB8I16 (ov : Option Sreg) (d : Byte) (i : Word)
  /-- `11000111 10000110 dddddddd DDDDDDDD iiiiiiii IIIIIIII`: MOV [BP+disp16],imm ([BP+disp16], default SS) (R113). -/
  | movB16I16 (ov : Option Sreg) (d : Word) (i : Word)
  /-- `11000110 00000110 dddddddd DDDDDDDD iiiiiiii`: MOV byte [disp16],imm ([disp16], default DS) (R113). -/
  | movByteD16I8 (ov : Option Sreg) (d : Word) (i : Byte)
  /-- `11000110 01000110 dddddddd iiiiiiii`: MOV byte [BP+disp8],imm ([BP+disp8], default SS) (R113). -/
  | movByteB8I8 (ov : Option Sreg) (d : Byte) (i : Byte)
  /-- `11000110 10000110 dddddddd DDDDDDDD iiiiiiii`: MOV byte [BP+disp16],imm ([BP+disp16], default SS) (R113). -/
  | movByteB16I8 (ov : Option Sreg) (d : Word) (i : Byte)
  /-- `10001001 11gggmmm`: MOV r16(m),r16(g) (R113). -/
  | movRmR (g : Gpr) (m : Gpr)
  /-- `10001001 00ggg110 dddddddd DDDDDDDD`: MOV [disp16],r16(g) ([disp16], default DS) (R113). -/
  | movD16R (ov : Option Sreg) (g : Gpr) (d : Word)
  /-- `10001001 01ggg110 dddddddd`: MOV [BP+disp8],r16(g) ([BP+disp8], default SS) (R113). -/
  | movB8R (ov : Option Sreg) (g : Gpr) (d : Byte)
  /-- `10001001 10ggg110 dddddddd DDDDDDDD`: MOV [BP+disp16],r16(g) ([BP+disp16], default SS) (R113). -/
  | movB16R (ov : Option Sreg) (g : Gpr) (d : Word)
  /-- `10001011 11gggmmm`: MOV r16(g),r16(m) (R113). -/
  | movRRm (g : Gpr) (m : Gpr)
  /-- `10001011 00ggg110 dddddddd DDDDDDDD`: MOV r16(g),[disp16] ([disp16], default DS) (R113). -/
  | movRD16 (ov : Option Sreg) (g : Gpr) (d : Word)
  /-- `10001011 01ggg110 dddddddd`: MOV r16(g),[BP+disp8] ([BP+disp8], default SS) (R113). -/
  | movRB8 (ov : Option Sreg) (g : Gpr) (d : Byte)
  /-- `10001011 10ggg110 dddddddd DDDDDDDD`: MOV r16(g),[BP+disp16] ([BP+disp16], default SS) (R113). -/
  | movRB16 (ov : Option Sreg) (g : Gpr) (d : Word)
  /-- `10001100 110ssmmm`: MOV r16(m),Sreg(s) (R113). -/
  | movRmS (s : Sreg) (m : Gpr)
  /-- `10001100 000ss110 dddddddd DDDDDDDD`: MOV [disp16],Sreg(s) ([disp16], default DS) (R113). -/
  | movD16S (ov : Option Sreg) (s : Sreg) (d : Word)
  /-- `10001100 010ss110 dddddddd`: MOV [BP+disp8],Sreg(s) ([BP+disp8], default SS) (R113). -/
  | movB8S (ov : Option Sreg) (s : Sreg) (d : Byte)
  /-- `10001100 100ss110 dddddddd DDDDDDDD`: MOV [BP+disp16],Sreg(s) ([BP+disp16], default SS) (R113). -/
  | movB16S (ov : Option Sreg) (s : Sreg) (d : Word)
  /-- `10001110 110ssmmm`: MOV Sreg(s),r16(m); s != 01 (R113). -/
  | movSRm (s : Sreg) (m : Gpr)
  /-- `10001110 000ss110 dddddddd DDDDDDDD`: MOV Sreg(s),[disp16] ([disp16], default DS); s != 01 (R113). -/
  | movSD16 (ov : Option Sreg) (s : Sreg) (d : Word)
  /-- `10001110 010ss110 dddddddd`: MOV Sreg(s),[BP+disp8] ([BP+disp8], default SS); s != 01 (R113). -/
  | movSB8 (ov : Option Sreg) (s : Sreg) (d : Byte)
  /-- `10001110 100ss110 dddddddd DDDDDDDD`: MOV Sreg(s),[BP+disp16] ([BP+disp16], default SS); s != 01 (R113). -/
  | movSB16 (ov : Option Sreg) (s : Sreg) (d : Word)
  /-- `10100001 dddddddd DDDDDDDD`: MOV AX,[moffs16] (default DS) (R113). -/
  | movAxMoffs (ov : Option Sreg) (d : Word)
  /-- `10100011 dddddddd DDDDDDDD`: MOV [moffs16],AX (default DS) (R113). -/
  | movMoffsAx (ov : Option Sreg) (d : Word)
  /-- `10001101 01ggg110 dddddddd`: LEA r16(g),[BP+disp8] (R114). -/
  | leaRB8 (ov : Option Sreg) (g : Gpr) (d : Byte)
  /-- `10001101 10ggg110 dddddddd DDDDDDDD`: LEA r16(g),[BP+disp16] (R114). -/
  | leaRB16 (ov : Option Sreg) (g : Gpr) (d : Word)
  /-- `11001000 iiiiiiii IIIIIIII 00000000`: ENTER imm16,0 (R115). -/
  | enterI16 (i : Word)
  /-- `11001001`: LEAVE (R116). -/
  | leave
  /-- `10101011`: STOSW (R117). -/
  | stosw
  /-- `11110011 10101011`: REP STOSW (prefix has no effect) (R117). -/
  | repStosw
  /-- `11110010 10101011`: REPNE STOSW (prefix has no effect) (R117). -/
  | repneStosw
  /-- `01110100 iiiiiiii`: JE rel8 (R119). -/
  | jeRel8 (rel : Byte)
  /-- `00001111 10000100 iiiiiiii IIIIIIII`: JE rel16 (R119). -/
  | jeRel16 (rel : Word)
  /-- `01110101 iiiiiiii`: JNE rel8 (R120). -/
  | jneRel8 (rel : Byte)
  /-- `00001111 10000101 iiiiiiii IIIIIIII`: JNE rel16 (R120). -/
  | jneRel16 (rel : Word)
  /-- `01111100 iiiiiiii`: JL rel8 (R121). -/
  | jlRel8 (rel : Byte)
  /-- `00001111 10001100 iiiiiiii IIIIIIII`: JL rel16 (R121). -/
  | jlRel16 (rel : Word)
  /-- `01111101 iiiiiiii`: JGE rel8 (R122). -/
  | jgeRel8 (rel : Byte)
  /-- `00001111 10001101 iiiiiiii IIIIIIII`: JGE rel16 (R122). -/
  | jgeRel16 (rel : Word)
  /-- `01111110 iiiiiiii`: JLE rel8 (R123). -/
  | jleRel8 (rel : Byte)
  /-- `00001111 10001110 iiiiiiii IIIIIIII`: JLE rel16 (R123). -/
  | jleRel16 (rel : Word)
  /-- `01110110 iiiiiiii`: JBE rel8 (R124). -/
  | jbeRel8 (rel : Byte)
  /-- `00001111 10000110 iiiiiiii IIIIIIII`: JBE rel16 (R124). -/
  | jbeRel16 (rel : Word)
  /-- `11101011 iiiiiiii`: JMP rel8 (R125). -/
  | jmpRel8 (rel : Byte)
  /-- `11101001 iiiiiiii IIIIIIII`: JMP rel16 (R125). -/
  | jmpRel16 (rel : Word)
  /-- `11101000 iiiiiiii IIIIIIII`: CALL rel16 (near) (R126). -/
  | callRel16 (rel : Word)
  /-- `10011010 11111111 11111111 cccccccc CCCCCCCC`: CALL far sel:0xFFFF (unresolved import) (R127). -/
  | callFar (sel : Word)
  deriving DecidableEq, Repr

/-- An entry of the decoded-instruction index (R32, R65): an admitted form, or `Other` with its length
(R66). -/
inductive Decoded
  | instr (i : Instr)
  | other (length : Nat)
  deriving DecidableEq, Repr

end Sys2Proof
end

