-- ==== Sys2Proof/WellFormed.lean ====
section
/-!
DEFINITION. Which terms of Instr stand for an admitted form. The types already rule out every other
refused form; what remains is the rows "s != 01": MOV to CS is refused (R22, R84 item 3, D14).
-/

namespace Sys2Proof

/-- The instruction is an admitted form: a MOV into a segment register does not name CS. -/
def Instr.wellFormed : Instr → Bool
  | .movSRm s _ => s != .cs
  | .movSD16 _ s _ => s != .cs
  | .movSB8 _ s _ => s != .cs
  | .movSB16 _ s _ => s != .cs
  | _ => true

end Sys2Proof
end

