-- ==== Sys2Proof/Decode.lean ====
section
/-!
DEFINITION. The decoder, total on any bytes and rejecting by name, the encoder, the decoded view of
rule R65, the `Decode` parameter and the registration sweep (spec/30_encoding.md rules R65 to R89).
Byte patterns are x86's, which the spec gives from general knowledge (93 G29).
-/

namespace Sys2Proof

/-! ### Bits and bytes (R11, R75) -/

/-- Bits 7..0 of a word. -/
def loByte (w : Word) : Byte := w.extractLsb' 0 8

/-- Bits 15..8 of a word. -/
def hiByte (w : Word) : Byte := w.extractLsb' 8 8

/-- The word `hi:lo`. -/
def wordOf (lo hi : Byte) : Word := hi ++ lo

/-- The two bytes of a word, low byte first (R75). -/
def le16 (w : Word) : List Byte := [loByte w, hiByte w]

/-- `sext16`: an 8-bit value widened by copying bit 7 (R11). -/
def sext16 (b : Byte) : Word := b.signExtend 16

/-- `zext16`: an 8-bit value widened with zeros (R11). -/
def zext16 (b : Byte) : Word := b.zeroExtend 16

/-! ### Register numbers (R20, R22, R74) -/

/-- The 3-bit number of a general register. -/
def Gpr.bits : Gpr → BitVec 3
  | .ax => 0#3 | .cx => 1#3 | .dx => 2#3 | .bx => 3#3 | .sp => 4#3 | .bp => 5#3 | .si => 6#3 | .di => 7#3

/-- The general register with a 3-bit number. -/
def gprOfBits (b : BitVec 3) : Gpr :=
  match b.toNat with
  | 0 => .ax | 1 => .cx | 2 => .dx | 3 => .bx | 4 => .sp | 5 => .bp | 6 => .si | _ => .di

/-- The number of a segment register, as a 3-bit reg field. -/
def Sreg.bits3 : Sreg → BitVec 3
  | .es => 0#3 | .cs => 1#3 | .ss => 2#3 | .ds => 3#3

/-- The segment register with a 3-bit number; values 4 to 7 name none (R74). -/
def sregOfBits (b : BitVec 3) : Option Sreg :=
  match b.toNat with
  | 0 => some .es | 1 => some .cs | 2 => some .ss | 3 => some .ds | _ => none

/-- The segment-override bytes (R69). -/
def segOverride (b : Byte) : Option Sreg :=
  match b.toNat with
  | 0x26 => some .es | 0x2E => some .cs | 0x36 => some .ss | 0x3E => some .ds | _ => none

/-- The override byte of a segment register. -/
def Sreg.overrideByte : Sreg → Byte
  | .es => 0x26#8 | .cs => 0x2E#8 | .ss => 0x36#8 | .ds => 0x3E#8

/-- The bytes an optional segment override adds. -/
def ovBytes : Option Sreg → List Byte
  | none => []
  | some s => [s.overrideByte]

/-- The ModRM byte: mod in bits 7..6, reg in bits 5..3, rm in bits 2..0 (R72). -/
def modRM (mod : BitVec 2) (reg rm : BitVec 3) : Byte := mod ++ reg ++ rm

/-- An opcode byte `ooooorrr` (format OPREG of R71). -/
def opReg (op : BitVec 5) (r : Gpr) : Byte := op ++ r.bits

/-! ### Memory operands of the encodings (R73, R76, R79, R80) -/

/-- `[disp16]`, in DS unless overridden. -/
def memD16 (size : MemSize) (ov : Option Sreg) (d : Word) : MemOperand := ⟨size, ov.getD .ds, .absent, d⟩

/-- `[BP+disp8]`, the displacement sign-extended, in SS unless overridden. -/
def memB8 (size : MemSize) (ov : Option Sreg) (d : Byte) : MemOperand := ⟨size, ov.getD .ss, .bp, sext16 d⟩

/-- `[BP+disp16]`, in SS unless overridden. -/
def memB16 (size : MemSize) (ov : Option Sreg) (d : Word) : MemOperand := ⟨size, ov.getD .ss, .bp, d⟩

/-- The target of a near branch at offset `ip` of byte length `len` (R77). -/
def relTarget (ip : Word) (len : Nat) (rel : Word) : Word := ip + BitVec.ofNat 16 len + rel

/-! ### The encoder -/

/-- The bytes of an instruction, from the encodings of the opcode table (R71 to R83). -/
def encode (instr : Instr) : List Byte :=
  match instr with
  | .addRmR g m => [0x01#8, modRM 3#2 g.bits m.bits]
  | .addRRm g m => [0x03#8, modRM 3#2 g.bits m.bits]
  | .addAxI16 i => [0x05#8] ++ le16 i
  | .addRmI16 m i => [0x81#8, modRM 3#2 0#3 m.bits] ++ le16 i
  | .addRmI8 m i => [0x83#8, modRM 3#2 0#3 m.bits] ++ [i]
  | .cmpRmR g m => [0x39#8, modRM 3#2 g.bits m.bits]
  | .cmpD16R ov g d => ovBytes ov ++ [0x39#8, modRM 0#2 g.bits 6#3] ++ le16 d
  | .cmpB8R ov g d => ovBytes ov ++ [0x39#8, modRM 1#2 g.bits 6#3, d]
  | .cmpB16R ov g d => ovBytes ov ++ [0x39#8, modRM 2#2 g.bits 6#3] ++ le16 d
  | .cmpRRm g m => [0x3B#8, modRM 3#2 g.bits m.bits]
  | .cmpRD16 ov g d => ovBytes ov ++ [0x3B#8, modRM 0#2 g.bits 6#3] ++ le16 d
  | .cmpRB8 ov g d => ovBytes ov ++ [0x3B#8, modRM 1#2 g.bits 6#3, d]
  | .cmpRB16 ov g d => ovBytes ov ++ [0x3B#8, modRM 2#2 g.bits 6#3] ++ le16 d
  | .cmpAxI16 i => [0x3D#8] ++ le16 i
  | .cmpRmI16 m i => [0x81#8, modRM 3#2 7#3 m.bits] ++ le16 i
  | .cmpD16I16 ov d i => ovBytes ov ++ [0x81#8, modRM 0#2 7#3 6#3] ++ le16 d ++ le16 i
  | .cmpB8I16 ov d i => ovBytes ov ++ [0x81#8, modRM 1#2 7#3 6#3, d] ++ le16 i
  | .cmpB16I16 ov d i => ovBytes ov ++ [0x81#8, modRM 2#2 7#3 6#3] ++ le16 d ++ le16 i
  | .cmpRmI8 m i => [0x83#8, modRM 3#2 7#3 m.bits] ++ [i]
  | .cmpD16I8 ov d i => ovBytes ov ++ [0x83#8, modRM 0#2 7#3 6#3] ++ le16 d ++ [i]
  | .cmpB8I8 ov d i => ovBytes ov ++ [0x83#8, modRM 1#2 7#3 6#3, d] ++ [i]
  | .cmpB16I8 ov d i => ovBytes ov ++ [0x83#8, modRM 2#2 7#3 6#3] ++ le16 d ++ [i]
  | .cmpByteD16I8 ov d i => ovBytes ov ++ [0x80#8, modRM 0#2 7#3 6#3] ++ le16 d ++ [i]
  | .cmpByteB8I8 ov d i => ovBytes ov ++ [0x80#8, modRM 1#2 7#3 6#3, d] ++ [i]
  | .cmpByteB16I8 ov d i => ovBytes ov ++ [0x80#8, modRM 2#2 7#3 6#3] ++ le16 d ++ [i]
  | .incR r => [opReg 8#5 r]
  | .incRm m => [0xFF#8, modRM 3#2 0#3 m.bits]
  | .xorRmR g m => [0x31#8, modRM 3#2 g.bits m.bits]
  | .xorRRm g m => [0x33#8, modRM 3#2 g.bits m.bits]
  | .xorRD16 ov g d => ovBytes ov ++ [0x33#8, modRM 0#2 g.bits 6#3] ++ le16 d
  | .xorRB8 ov g d => ovBytes ov ++ [0x33#8, modRM 1#2 g.bits 6#3, d]
  | .xorRB16 ov g d => ovBytes ov ++ [0x33#8, modRM 2#2 g.bits 6#3] ++ le16 d
  | .xorAxI16 i => [0x35#8] ++ le16 i
  | .xorRmI16 m i => [0x81#8, modRM 3#2 6#3 m.bits] ++ le16 i
  | .xorRmI8 m i => [0x83#8, modRM 3#2 6#3 m.bits] ++ [i]
  | .orRmR g m => [0x09#8, modRM 3#2 g.bits m.bits]
  | .orRRm g m => [0x0B#8, modRM 3#2 g.bits m.bits]
  | .orRD16 ov g d => ovBytes ov ++ [0x0B#8, modRM 0#2 g.bits 6#3] ++ le16 d
  | .orRB8 ov g d => ovBytes ov ++ [0x0B#8, modRM 1#2 g.bits 6#3, d]
  | .orRB16 ov g d => ovBytes ov ++ [0x0B#8, modRM 2#2 g.bits 6#3] ++ le16 d
  | .orAxI16 i => [0x0D#8] ++ le16 i
  | .orRmI16 m i => [0x81#8, modRM 3#2 1#3 m.bits] ++ le16 i
  | .orRmI8 m i => [0x83#8, modRM 3#2 1#3 m.bits] ++ [i]
  | .shlRm1 m => [0xD1#8, modRM 3#2 4#3 m.bits]
  | .shlRmI8 m i => [0xC1#8, modRM 3#2 4#3 m.bits] ++ [i]
  | .pushR r => [opReg 10#5 r]
  | .pushRm m => [0xFF#8, modRM 3#2 6#3 m.bits]
  | .pushD16 ov d => ovBytes ov ++ [0xFF#8, modRM 0#2 6#3 6#3] ++ le16 d
  | .pushB8 ov d => ovBytes ov ++ [0xFF#8, modRM 1#2 6#3 6#3, d]
  | .pushB16 ov d => ovBytes ov ++ [0xFF#8, modRM 2#2 6#3 6#3] ++ le16 d
  | .pushEs => [0x06#8]
  | .pushCs => [0x0E#8]
  | .pushSs => [0x16#8]
  | .pushDs => [0x1E#8]
  | .pushI16 i => [0x68#8] ++ le16 i
  | .pushI8 i => [0x6A#8, i]
  | .popR r => [opReg 11#5 r]
  | .popRm m => [0x8F#8, modRM 3#2 0#3 m.bits]
  | .popEs => [0x07#8]
  | .popSs => [0x17#8]
  | .popDs => [0x1F#8]
  | .movRI16 r i => [opReg 23#5 r] ++ le16 i
  | .movRmI16 m i => [0xC7#8, modRM 3#2 0#3 m.bits] ++ le16 i
  | .movD16I16 ov d i => ovBytes ov ++ [0xC7#8, modRM 0#2 0#3 6#3] ++ le16 d ++ le16 i
  | .movB8I16 ov d i => ovBytes ov ++ [0xC7#8, modRM 1#2 0#3 6#3, d] ++ le16 i
  | .movB16I16 ov d i => ovBytes ov ++ [0xC7#8, modRM 2#2 0#3 6#3] ++ le16 d ++ le16 i
  | .movByteD16I8 ov d i => ovBytes ov ++ [0xC6#8, modRM 0#2 0#3 6#3] ++ le16 d ++ [i]
  | .movByteB8I8 ov d i => ovBytes ov ++ [0xC6#8, modRM 1#2 0#3 6#3, d] ++ [i]
  | .movByteB16I8 ov d i => ovBytes ov ++ [0xC6#8, modRM 2#2 0#3 6#3] ++ le16 d ++ [i]
  | .movRmR g m => [0x89#8, modRM 3#2 g.bits m.bits]
  | .movD16R ov g d => ovBytes ov ++ [0x89#8, modRM 0#2 g.bits 6#3] ++ le16 d
  | .movB8R ov g d => ovBytes ov ++ [0x89#8, modRM 1#2 g.bits 6#3, d]
  | .movB16R ov g d => ovBytes ov ++ [0x89#8, modRM 2#2 g.bits 6#3] ++ le16 d
  | .movRRm g m => [0x8B#8, modRM 3#2 g.bits m.bits]
  | .movRD16 ov g d => ovBytes ov ++ [0x8B#8, modRM 0#2 g.bits 6#3] ++ le16 d
  | .movRB8 ov g d => ovBytes ov ++ [0x8B#8, modRM 1#2 g.bits 6#3, d]
  | .movRB16 ov g d => ovBytes ov ++ [0x8B#8, modRM 2#2 g.bits 6#3] ++ le16 d
  | .movRmS s m => [0x8C#8, modRM 3#2 s.bits3 m.bits]
  | .movD16S ov s d => ovBytes ov ++ [0x8C#8, modRM 0#2 s.bits3 6#3] ++ le16 d
  | .movB8S ov s d => ovBytes ov ++ [0x8C#8, modRM 1#2 s.bits3 6#3, d]
  | .movB16S ov s d => ovBytes ov ++ [0x8C#8, modRM 2#2 s.bits3 6#3] ++ le16 d
  | .movSRm s m => [0x8E#8, modRM 3#2 s.bits3 m.bits]
  | .movSD16 ov s d => ovBytes ov ++ [0x8E#8, modRM 0#2 s.bits3 6#3] ++ le16 d
  | .movSB8 ov s d => ovBytes ov ++ [0x8E#8, modRM 1#2 s.bits3 6#3, d]
  | .movSB16 ov s d => ovBytes ov ++ [0x8E#8, modRM 2#2 s.bits3 6#3] ++ le16 d
  | .movAxMoffs ov d => ovBytes ov ++ [0xA1#8] ++ le16 d
  | .movMoffsAx ov d => ovBytes ov ++ [0xA3#8] ++ le16 d
  | .leaRB8 ov g d => ovBytes ov ++ [0x8D#8, modRM 1#2 g.bits 6#3, d]
  | .leaRB16 ov g d => ovBytes ov ++ [0x8D#8, modRM 2#2 g.bits 6#3] ++ le16 d
  | .enterI16 i => [0xC8#8] ++ le16 i ++ [0x00#8]
  | .leave => [0xC9#8]
  | .stosw => [0xAB#8]
  | .repStosw => [0xF3#8, 0xAB#8]
  | .repneStosw => [0xF2#8, 0xAB#8]
  | .jeRel8 rel => [0x74#8, rel]
  | .jeRel16 rel => [0x0F#8, 0x84#8] ++ le16 rel
  | .jneRel8 rel => [0x75#8, rel]
  | .jneRel16 rel => [0x0F#8, 0x85#8] ++ le16 rel
  | .jlRel8 rel => [0x7C#8, rel]
  | .jlRel16 rel => [0x0F#8, 0x8C#8] ++ le16 rel
  | .jgeRel8 rel => [0x7D#8, rel]
  | .jgeRel16 rel => [0x0F#8, 0x8D#8] ++ le16 rel
  | .jleRel8 rel => [0x7E#8, rel]
  | .jleRel16 rel => [0x0F#8, 0x8E#8] ++ le16 rel
  | .jbeRel8 rel => [0x76#8, rel]
  | .jbeRel16 rel => [0x0F#8, 0x86#8] ++ le16 rel
  | .jmpRel8 rel => [0xEB#8, rel]
  | .jmpRel16 rel => [0xE9#8] ++ le16 rel
  | .callRel16 rel => [0xE8#8] ++ le16 rel
  | .callFar sel => [0x9A#8, 0xFF#8, 0xFF#8] ++ le16 sel

/-- The byte length of an instruction, with its segment-override or repeat byte (R68, R89). -/
def Instr.length (instr : Instr) : Nat :=
  (encode instr).length

/-- The byte length of an index entry (R65). -/
def Decoded.length : Decoded → Nat
  | .instr i => i.length
  | .other n => n

/-- The Decoded Instruction record (R65) of an admitted instruction that starts at offset `ip`. A near
target is absolute, as Decode computes it once from the instruction's offset (R77). -/
def Instr.decoded (ip : Word) (instr : Instr) : DecodedInstruction :=
  match instr with
  | .addRmR g m => ⟨.add, [.reg (.gpr m), .reg (.gpr g)], .none, instr.length⟩
  | .addRRm g m => ⟨.add, [.reg (.gpr g), .reg (.gpr m)], .none, instr.length⟩
  | .addAxI16 i => ⟨.add, [.reg (.gpr .ax), .imm16 i], .none, instr.length⟩
  | .addRmI16 m i => ⟨.add, [.reg (.gpr m), .imm16 i], .none, instr.length⟩
  | .addRmI8 m i => ⟨.add, [.reg (.gpr m), .imm8to16 i], .none, instr.length⟩
  | .cmpRmR g m => ⟨.cmp, [.reg (.gpr m), .reg (.gpr g)], .none, instr.length⟩
  | .cmpD16R ov g d => ⟨.cmp, [.mem (memD16 .word ov d), .reg (.gpr g)], .none, instr.length⟩
  | .cmpB8R ov g d => ⟨.cmp, [.mem (memB8 .word ov d), .reg (.gpr g)], .none, instr.length⟩
  | .cmpB16R ov g d => ⟨.cmp, [.mem (memB16 .word ov d), .reg (.gpr g)], .none, instr.length⟩
  | .cmpRRm g m => ⟨.cmp, [.reg (.gpr g), .reg (.gpr m)], .none, instr.length⟩
  | .cmpRD16 ov g d => ⟨.cmp, [.reg (.gpr g), .mem (memD16 .word ov d)], .none, instr.length⟩
  | .cmpRB8 ov g d => ⟨.cmp, [.reg (.gpr g), .mem (memB8 .word ov d)], .none, instr.length⟩
  | .cmpRB16 ov g d => ⟨.cmp, [.reg (.gpr g), .mem (memB16 .word ov d)], .none, instr.length⟩
  | .cmpAxI16 i => ⟨.cmp, [.reg (.gpr .ax), .imm16 i], .none, instr.length⟩
  | .cmpRmI16 m i => ⟨.cmp, [.reg (.gpr m), .imm16 i], .none, instr.length⟩
  | .cmpD16I16 ov d i => ⟨.cmp, [.mem (memD16 .word ov d), .imm16 i], .none, instr.length⟩
  | .cmpB8I16 ov d i => ⟨.cmp, [.mem (memB8 .word ov d), .imm16 i], .none, instr.length⟩
  | .cmpB16I16 ov d i => ⟨.cmp, [.mem (memB16 .word ov d), .imm16 i], .none, instr.length⟩
  | .cmpRmI8 m i => ⟨.cmp, [.reg (.gpr m), .imm8to16 i], .none, instr.length⟩
  | .cmpD16I8 ov d i => ⟨.cmp, [.mem (memD16 .word ov d), .imm8to16 i], .none, instr.length⟩
  | .cmpB8I8 ov d i => ⟨.cmp, [.mem (memB8 .word ov d), .imm8to16 i], .none, instr.length⟩
  | .cmpB16I8 ov d i => ⟨.cmp, [.mem (memB16 .word ov d), .imm8to16 i], .none, instr.length⟩
  | .cmpByteD16I8 ov d i => ⟨.cmp, [.mem (memD16 .byte ov d), .imm8 i], .none, instr.length⟩
  | .cmpByteB8I8 ov d i => ⟨.cmp, [.mem (memB8 .byte ov d), .imm8 i], .none, instr.length⟩
  | .cmpByteB16I8 ov d i => ⟨.cmp, [.mem (memB16 .byte ov d), .imm8 i], .none, instr.length⟩
  | .incR r => ⟨.inc, [.reg (.gpr r)], .none, instr.length⟩
  | .incRm m => ⟨.inc, [.reg (.gpr m)], .none, instr.length⟩
  | .xorRmR g m => ⟨.xor, [.reg (.gpr m), .reg (.gpr g)], .none, instr.length⟩
  | .xorRRm g m => ⟨.xor, [.reg (.gpr g), .reg (.gpr m)], .none, instr.length⟩
  | .xorRD16 ov g d => ⟨.xor, [.reg (.gpr g), .mem (memD16 .word ov d)], .none, instr.length⟩
  | .xorRB8 ov g d => ⟨.xor, [.reg (.gpr g), .mem (memB8 .word ov d)], .none, instr.length⟩
  | .xorRB16 ov g d => ⟨.xor, [.reg (.gpr g), .mem (memB16 .word ov d)], .none, instr.length⟩
  | .xorAxI16 i => ⟨.xor, [.reg (.gpr .ax), .imm16 i], .none, instr.length⟩
  | .xorRmI16 m i => ⟨.xor, [.reg (.gpr m), .imm16 i], .none, instr.length⟩
  | .xorRmI8 m i => ⟨.xor, [.reg (.gpr m), .imm8to16 i], .none, instr.length⟩
  | .orRmR g m => ⟨.or, [.reg (.gpr m), .reg (.gpr g)], .none, instr.length⟩
  | .orRRm g m => ⟨.or, [.reg (.gpr g), .reg (.gpr m)], .none, instr.length⟩
  | .orRD16 ov g d => ⟨.or, [.reg (.gpr g), .mem (memD16 .word ov d)], .none, instr.length⟩
  | .orRB8 ov g d => ⟨.or, [.reg (.gpr g), .mem (memB8 .word ov d)], .none, instr.length⟩
  | .orRB16 ov g d => ⟨.or, [.reg (.gpr g), .mem (memB16 .word ov d)], .none, instr.length⟩
  | .orAxI16 i => ⟨.or, [.reg (.gpr .ax), .imm16 i], .none, instr.length⟩
  | .orRmI16 m i => ⟨.or, [.reg (.gpr m), .imm16 i], .none, instr.length⟩
  | .orRmI8 m i => ⟨.or, [.reg (.gpr m), .imm8to16 i], .none, instr.length⟩
  | .shlRm1 m => ⟨.shl, [.reg (.gpr m), .imm8 1#8], .none, instr.length⟩
  | .shlRmI8 m i => ⟨.shl, [.reg (.gpr m), .imm8 i], .none, instr.length⟩
  | .pushR r => ⟨.push, [.reg (.gpr r)], .none, instr.length⟩
  | .pushRm m => ⟨.push, [.reg (.gpr m)], .none, instr.length⟩
  | .pushD16 ov d => ⟨.push, [.mem (memD16 .word ov d)], .none, instr.length⟩
  | .pushB8 ov d => ⟨.push, [.mem (memB8 .word ov d)], .none, instr.length⟩
  | .pushB16 ov d => ⟨.push, [.mem (memB16 .word ov d)], .none, instr.length⟩
  | .pushEs => ⟨.push, [.reg (.seg .es)], .none, instr.length⟩
  | .pushCs => ⟨.push, [.reg (.seg .cs)], .none, instr.length⟩
  | .pushSs => ⟨.push, [.reg (.seg .ss)], .none, instr.length⟩
  | .pushDs => ⟨.push, [.reg (.seg .ds)], .none, instr.length⟩
  | .pushI16 i => ⟨.push, [.imm16 i], .none, instr.length⟩
  | .pushI8 i => ⟨.push, [.imm8to16 i], .none, instr.length⟩
  | .popR r => ⟨.pop, [.reg (.gpr r)], .none, instr.length⟩
  | .popRm m => ⟨.pop, [.reg (.gpr m)], .none, instr.length⟩
  | .popEs => ⟨.pop, [.reg (.seg .es)], .none, instr.length⟩
  | .popSs => ⟨.pop, [.reg (.seg .ss)], .none, instr.length⟩
  | .popDs => ⟨.pop, [.reg (.seg .ds)], .none, instr.length⟩
  | .movRI16 r i => ⟨.mov, [.reg (.gpr r), .imm16 i], .none, instr.length⟩
  | .movRmI16 m i => ⟨.mov, [.reg (.gpr m), .imm16 i], .none, instr.length⟩
  | .movD16I16 ov d i => ⟨.mov, [.mem (memD16 .word ov d), .imm16 i], .none, instr.length⟩
  | .movB8I16 ov d i => ⟨.mov, [.mem (memB8 .word ov d), .imm16 i], .none, instr.length⟩
  | .movB16I16 ov d i => ⟨.mov, [.mem (memB16 .word ov d), .imm16 i], .none, instr.length⟩
  | .movByteD16I8 ov d i => ⟨.mov, [.mem (memD16 .byte ov d), .imm8 i], .none, instr.length⟩
  | .movByteB8I8 ov d i => ⟨.mov, [.mem (memB8 .byte ov d), .imm8 i], .none, instr.length⟩
  | .movByteB16I8 ov d i => ⟨.mov, [.mem (memB16 .byte ov d), .imm8 i], .none, instr.length⟩
  | .movRmR g m => ⟨.mov, [.reg (.gpr m), .reg (.gpr g)], .none, instr.length⟩
  | .movD16R ov g d => ⟨.mov, [.mem (memD16 .word ov d), .reg (.gpr g)], .none, instr.length⟩
  | .movB8R ov g d => ⟨.mov, [.mem (memB8 .word ov d), .reg (.gpr g)], .none, instr.length⟩
  | .movB16R ov g d => ⟨.mov, [.mem (memB16 .word ov d), .reg (.gpr g)], .none, instr.length⟩
  | .movRRm g m => ⟨.mov, [.reg (.gpr g), .reg (.gpr m)], .none, instr.length⟩
  | .movRD16 ov g d => ⟨.mov, [.reg (.gpr g), .mem (memD16 .word ov d)], .none, instr.length⟩
  | .movRB8 ov g d => ⟨.mov, [.reg (.gpr g), .mem (memB8 .word ov d)], .none, instr.length⟩
  | .movRB16 ov g d => ⟨.mov, [.reg (.gpr g), .mem (memB16 .word ov d)], .none, instr.length⟩
  | .movRmS s m => ⟨.mov, [.reg (.gpr m), .reg (.seg s)], .none, instr.length⟩
  | .movD16S ov s d => ⟨.mov, [.mem (memD16 .word ov d), .reg (.seg s)], .none, instr.length⟩
  | .movB8S ov s d => ⟨.mov, [.mem (memB8 .word ov d), .reg (.seg s)], .none, instr.length⟩
  | .movB16S ov s d => ⟨.mov, [.mem (memB16 .word ov d), .reg (.seg s)], .none, instr.length⟩
  | .movSRm s m => ⟨.mov, [.reg (.seg s), .reg (.gpr m)], .none, instr.length⟩
  | .movSD16 ov s d => ⟨.mov, [.reg (.seg s), .mem (memD16 .word ov d)], .none, instr.length⟩
  | .movSB8 ov s d => ⟨.mov, [.reg (.seg s), .mem (memB8 .word ov d)], .none, instr.length⟩
  | .movSB16 ov s d => ⟨.mov, [.reg (.seg s), .mem (memB16 .word ov d)], .none, instr.length⟩
  | .movAxMoffs ov d => ⟨.mov, [.reg (.gpr .ax), .mem (memD16 .word ov d)], .none, instr.length⟩
  | .movMoffsAx ov d => ⟨.mov, [.mem (memD16 .word ov d), .reg (.gpr .ax)], .none, instr.length⟩
  | .leaRB8 ov g d => ⟨.lea, [.reg (.gpr g), .mem (memB8 .word ov d)], .none, instr.length⟩
  | .leaRB16 ov g d => ⟨.lea, [.reg (.gpr g), .mem (memB16 .word ov d)], .none, instr.length⟩
  | .enterI16 i => ⟨.enter, [.imm16 i, .imm8 0#8], .none, instr.length⟩
  | .leave => ⟨.leave, [], .none, instr.length⟩
  | .stosw => ⟨.stosw, [], .none, instr.length⟩
  | .repStosw => ⟨.stosw, [], .rep, instr.length⟩
  | .repneStosw => ⟨.stosw, [], .repne, instr.length⟩
  | .jeRel8 rel => ⟨.je, [.nearBranch (relTarget ip 2 (sext16 rel))], .none, instr.length⟩
  | .jeRel16 rel => ⟨.je, [.nearBranch (relTarget ip 4 rel)], .none, instr.length⟩
  | .jneRel8 rel => ⟨.jne, [.nearBranch (relTarget ip 2 (sext16 rel))], .none, instr.length⟩
  | .jneRel16 rel => ⟨.jne, [.nearBranch (relTarget ip 4 rel)], .none, instr.length⟩
  | .jlRel8 rel => ⟨.jl, [.nearBranch (relTarget ip 2 (sext16 rel))], .none, instr.length⟩
  | .jlRel16 rel => ⟨.jl, [.nearBranch (relTarget ip 4 rel)], .none, instr.length⟩
  | .jgeRel8 rel => ⟨.jge, [.nearBranch (relTarget ip 2 (sext16 rel))], .none, instr.length⟩
  | .jgeRel16 rel => ⟨.jge, [.nearBranch (relTarget ip 4 rel)], .none, instr.length⟩
  | .jleRel8 rel => ⟨.jle, [.nearBranch (relTarget ip 2 (sext16 rel))], .none, instr.length⟩
  | .jleRel16 rel => ⟨.jle, [.nearBranch (relTarget ip 4 rel)], .none, instr.length⟩
  | .jbeRel8 rel => ⟨.jbe, [.nearBranch (relTarget ip 2 (sext16 rel))], .none, instr.length⟩
  | .jbeRel16 rel => ⟨.jbe, [.nearBranch (relTarget ip 4 rel)], .none, instr.length⟩
  | .jmpRel8 rel => ⟨.jmp, [.nearBranch (relTarget ip 2 (sext16 rel))], .none, instr.length⟩
  | .jmpRel16 rel => ⟨.jmp, [.nearBranch (relTarget ip 3 rel)], .none, instr.length⟩
  | .callRel16 rel => ⟨.call, [.nearBranch (relTarget ip 3 rel)], .none, instr.length⟩
  | .callFar sel => ⟨.call, [.farBranch sel Config.relocSentinel], .none, instr.length⟩

/-! ### Admitted operand forms (R93) -/

/-- The segment registers an instruction may load: DS, ES and SS (R22, D14). -/
def Sreg.loadable (s : Sreg) : Bool := s != .cs

/-- The rows of the table of rule R93, in decoded terms. `rep` is set on STOSW only (R70). -/
def DecodedInstruction.admitted (d : DecodedInstruction) : Bool :=
  (d.mnemonic == .stosw || d.rep == .none) &&
  match d.mnemonic, d.ops with
  | .add, [.reg (.gpr _), .reg (.gpr _)] => true
  | .add, [.reg (.gpr _), .imm16 _] => true
  | .add, [.reg (.gpr _), .imm8to16 _] => true
  | .cmp, [.reg (.gpr _), .reg (.gpr _)] => true
  | .cmp, [.reg (.gpr _), .imm16 _] => true
  | .cmp, [.reg (.gpr _), .imm8to16 _] => true
  | .cmp, [.reg (.gpr _), .mem m] => m.size == .word
  | .cmp, [.mem m, .reg (.gpr _)] => m.size == .word
  | .cmp, [.mem m, .imm16 _] => m.size == .word
  | .cmp, [.mem m, .imm8to16 _] => m.size == .word
  | .cmp, [.mem m, .imm8 _] => m.size == .byte
  | .inc, [.reg (.gpr _)] => true
  | .xor, [.reg (.gpr _), .reg (.gpr _)] => true
  | .xor, [.reg (.gpr _), .imm16 _] => true
  | .xor, [.reg (.gpr _), .imm8to16 _] => true
  | .xor, [.reg (.gpr _), .mem m] => m.size == .word
  | .or, [.reg (.gpr _), .reg (.gpr _)] => true
  | .or, [.reg (.gpr _), .imm16 _] => true
  | .or, [.reg (.gpr _), .imm8to16 _] => true
  | .or, [.reg (.gpr _), .mem m] => m.size == .word
  | .shl, [.reg (.gpr _), .imm8 _] => true
  | .push, [.reg _] => true
  | .push, [.imm16 _] => true
  | .push, [.imm8to16 _] => true
  | .push, [.mem m] => m.size == .word
  | .pop, [.reg (.gpr _)] => true
  | .pop, [.reg (.seg s)] => s.loadable
  | .mov, [.reg (.gpr _), .imm16 _] => true
  | .mov, [.reg (.gpr _), .reg _] => true
  | .mov, [.reg (.seg s), .reg (.gpr _)] => s.loadable
  | .mov, [.reg (.gpr _), .mem m] => m.size == .word
  | .mov, [.reg (.seg s), .mem m] => s.loadable && m.size == .word
  | .mov, [.mem m, .imm16 _] => m.size == .word
  | .mov, [.mem m, .imm8 _] => m.size == .byte
  | .mov, [.mem m, .reg _] => m.size == .word
  | .lea, [.reg (.gpr _), .mem m] => m.base == .bp
  | .enter, [.imm16 _, .imm8 l] => l == 0#8
  | .leave, [] => true
  | .stosw, [] => true
  | .je, [.nearBranch _] => true
  | .jne, [.nearBranch _] => true
  | .jl, [.nearBranch _] => true
  | .jge, [.nearBranch _] => true
  | .jle, [.nearBranch _] => true
  | .jbe, [.nearBranch _] => true
  | .jmp, [.nearBranch _] => true
  | .call, [.nearBranch _] => true
  | .call, [.farBranch _ off] => off == Config.relocSentinel
  | _, _ => false

/-! ### The decoder -/

/-- Why bytes are no admitted form. -/
inductive DecodeError
  /-- The bytes end before the instruction does. -/
  | truncated
  /-- The opcode is not in the subset (R84 item 2). -/
  | notInSubset
  /-- An admitted opcode with a refused operand form (R84 item 3). -/
  | refusedForm
  /-- A prefix byte the form does not admit (R70). -/
  | refusedPrefix
  deriving DecidableEq, Repr

/-- The rm operand of an admitted ModRM form (R72, R73). -/
inductive RmOperand
  | reg (m : Gpr)
  | d16 (d : Word)
  | b8 (d : Byte)
  | b16 (d : Word)
  deriving DecidableEq, Repr

/-- Takes one byte. -/
def take8 : List Byte → Except DecodeError (Byte × List Byte)
  | b :: bs => .ok (b, bs)
  | [] => .error .truncated

/-- Takes one little-endian word (R75). -/
def take16 : List Byte → Except DecodeError (Word × List Byte)
  | lo :: hi :: bs => .ok (wordOf lo hi, bs)
  | _ => .error .truncated

/-- Reads a ModRM byte and its displacement: the reg field, the rm operand and the bytes left. The
memory forms other than those of rule R73 are refused. -/
def takeModRM : List Byte → Except DecodeError (BitVec 3 × RmOperand × List Byte)
  | [] => .error .truncated
  | b :: bs =>
    let reg : BitVec 3 := b.extractLsb' 3 3
    let rm : BitVec 3 := b.extractLsb' 0 3
    match (b.extractLsb' 6 2 : BitVec 2).toNat with
    | 3 => .ok (reg, .reg (gprOfBits rm), bs)
    | 0 => if rm = 6#3 then do let (d, bs) ← take16 bs; .ok (reg, .d16 d, bs) else .error .refusedForm
    | 1 => if rm = 6#3 then do let (d, bs) ← take8 bs; .ok (reg, .b8 d, bs) else .error .refusedForm
    | _ => if rm = 6#3 then do let (d, bs) ← take16 bs; .ok (reg, .b16 d, bs) else .error .refusedForm

/-- A form with no memory operand: a segment override is refused (R70). -/
def noOverride {α : Type} (ov : Option Sreg) (r : Except DecodeError α) : Except DecodeError α :=
  match ov with
  | none => r
  | some _ => .error .refusedPrefix

/-- A `/r` form that admits mod 11 only. -/
def regForm (ov : Option Sreg) (bs : List Byte) (f : Gpr → Gpr → Instr) :
    Except DecodeError (Instr × List Byte) := do
  let (reg, rm, bs) ← takeModRM bs
  match rm with
  | .reg m => noOverride ov (.ok (f (gprOfBits reg) m, bs))
  | _ => .error .refusedForm

/-- A `/r` form that admits a register or the memory forms of rule R73. -/
def regMemForm (ov : Option Sreg) (bs : List Byte) (fr : Gpr → Gpr → Instr)
    (fd : Option Sreg → Gpr → Word → Instr) (fb : Option Sreg → Gpr → Byte → Instr)
    (fw : Option Sreg → Gpr → Word → Instr) : Except DecodeError (Instr × List Byte) := do
  let (reg, rm, bs) ← takeModRM bs
  match rm with
  | .reg m => noOverride ov (.ok (fr (gprOfBits reg) m, bs))
  | .d16 d => .ok (fd ov (gprOfBits reg) d, bs)
  | .b8 d => .ok (fb ov (gprOfBits reg) d, bs)
  | .b16 d => .ok (fw ov (gprOfBits reg) d, bs)

/-- 8C and 8E, whose reg field is a segment register that `ok` admits (R74). -/
def sregForm (ov : Option Sreg) (bs : List Byte) (ok : Sreg → Bool) (fr : Sreg → Gpr → Instr)
    (fd : Option Sreg → Sreg → Word → Instr) (fb : Option Sreg → Sreg → Byte → Instr)
    (fw : Option Sreg → Sreg → Word → Instr) : Except DecodeError (Instr × List Byte) := do
  let (reg, rm, bs) ← takeModRM bs
  match sregOfBits reg with
  | none => .error .refusedForm
  | some s =>
    if ok s then
      match rm with
      | .reg m => noOverride ov (.ok (fr s m, bs))
      | .d16 d => .ok (fd ov s d, bs)
      | .b8 d => .ok (fb ov s d, bs)
      | .b16 d => .ok (fw ov s d, bs)
    else .error .refusedForm

/-- Opcode 81: `/digit` with a 16-bit immediate (R72). -/
def group81 (ov : Option Sreg) (ext : BitVec 3) (rm : RmOperand) (i : Word) : Except DecodeError Instr :=
  match rm with
  | .reg m =>
    noOverride ov (match ext.toNat with
      | 0 => .ok (.addRmI16 m i)
      | 1 => .ok (.orRmI16 m i)
      | 6 => .ok (.xorRmI16 m i)
      | 7 => .ok (.cmpRmI16 m i)
      | _ => .error .notInSubset)
  | .d16 d => if ext = 7#3 then .ok (.cmpD16I16 ov d i) else .error .refusedForm
  | .b8 d => if ext = 7#3 then .ok (.cmpB8I16 ov d i) else .error .refusedForm
  | .b16 d => if ext = 7#3 then .ok (.cmpB16I16 ov d i) else .error .refusedForm

/-- Opcode 83: `/digit` with a sign-extended 8-bit immediate (R72). -/
def group83 (ov : Option Sreg) (ext : BitVec 3) (rm : RmOperand) (i : Byte) : Except DecodeError Instr :=
  match rm with
  | .reg m =>
    noOverride ov (match ext.toNat with
      | 0 => .ok (.addRmI8 m i)
      | 1 => .ok (.orRmI8 m i)
      | 6 => .ok (.xorRmI8 m i)
      | 7 => .ok (.cmpRmI8 m i)
      | _ => .error .notInSubset)
  | .d16 d => if ext = 7#3 then .ok (.cmpD16I8 ov d i) else .error .refusedForm
  | .b8 d => if ext = 7#3 then .ok (.cmpB8I8 ov d i) else .error .refusedForm
  | .b16 d => if ext = 7#3 then .ok (.cmpB16I8 ov d i) else .error .refusedForm

/-- Opcode 80: only /7 on byte memory; a mod-11 form names an 8-bit register (R20, R81). -/
def group80 (ov : Option Sreg) (ext : BitVec 3) (rm : RmOperand) (i : Byte) : Except DecodeError Instr :=
  if ext = 7#3 then
    match rm with
    | .reg _ => .error .refusedForm
    | .d16 d => .ok (.cmpByteD16I8 ov d i)
    | .b8 d => .ok (.cmpByteB8I8 ov d i)
    | .b16 d => .ok (.cmpByteB16I8 ov d i)
  else .error .notInSubset

/-- Opcode C7 /0 (R82). -/
def groupC7 (ov : Option Sreg) (ext : BitVec 3) (rm : RmOperand) (i : Word) : Except DecodeError Instr :=
  if ext = 0#3 then
    match rm with
    | .reg m => noOverride ov (.ok (.movRmI16 m i))
    | .d16 d => .ok (.movD16I16 ov d i)
    | .b8 d => .ok (.movB8I16 ov d i)
    | .b16 d => .ok (.movB16I16 ov d i)
  else .error .notInSubset

/-- Opcode C6 /0, on memory only (R82). -/
def groupC6 (ov : Option Sreg) (ext : BitVec 3) (rm : RmOperand) (i : Byte) : Except DecodeError Instr :=
  if ext = 0#3 then
    match rm with
    | .reg _ => .error .refusedForm
    | .d16 d => .ok (.movByteD16I8 ov d i)
    | .b8 d => .ok (.movByteB8I8 ov d i)
    | .b16 d => .ok (.movByteB16I8 ov d i)
  else .error .notInSubset

/-- Opcode FF: INC is /0 on a register, PUSH is /6 (R81, R82). -/
def groupFF (ov : Option Sreg) (ext : BitVec 3) (rm : RmOperand) : Except DecodeError Instr :=
  match ext.toNat, rm with
  | 0, .reg m => noOverride ov (.ok (.incRm m))
  | 0, _ => .error .refusedForm
  | 6, .reg m => noOverride ov (.ok (.pushRm m))
  | 6, .d16 d => .ok (.pushD16 ov d)
  | 6, .b8 d => .ok (.pushB8 ov d)
  | 6, .b16 d => .ok (.pushB16 ov d)
  | _, _ => .error .notInSubset

/-- An opcode extension that admits mod 11 only: 8F /0 and D1 /4 (R81, R82). -/
def regDigit (ov : Option Sreg) (bs : List Byte) (digit : BitVec 3) (f : Gpr → Instr) :
    Except DecodeError (Instr × List Byte) := do
  let (ext, rm, bs) ← takeModRM bs
  if ext = digit then
    match rm with
    | .reg m => noOverride ov (.ok (f m, bs))
    | _ => .error .refusedForm
  else .error .notInSubset

/-- A form whose only field is a 16-bit one. -/
def wordForm (ov : Option Sreg) (bs : List Byte) (f : Word → Instr) : Except DecodeError (Instr × List Byte) :=
  noOverride ov (do let (i, bs) ← take16 bs; .ok (f i, bs))

/-- A form whose only field is an 8-bit one. -/
def byteForm (ov : Option Sreg) (bs : List Byte) (f : Byte → Instr) : Except DecodeError (Instr × List Byte) :=
  noOverride ov (do let (i, bs) ← take8 bs; .ok (f i, bs))

/-- The two-byte opcodes: the near conditional jumps `0F 8x` (R83). -/
def decode0F (ov : Option Sreg) (bs : List Byte) : Except DecodeError (Instr × List Byte) :=
  match bs with
  | [] => .error .truncated
  | op :: bs =>
    match op.toNat with
    | 0x84 => wordForm ov bs .jeRel16
    | 0x85 => wordForm ov bs .jneRel16
    | 0x8C => wordForm ov bs .jlRel16
    | 0x8D => wordForm ov bs .jgeRel16
    | 0x8E => wordForm ov bs .jleRel16
    | 0x86 => wordForm ov bs .jbeRel16
    | _ => .error .notInSubset

/-- The opcodes `ooooorrr` that hold a register: INC, PUSH, POP and MOV r16,imm16 (R81, R82). -/
def decodeOpReg (ov : Option Sreg) (op : Byte) (bs : List Byte) : Except DecodeError (Instr × List Byte) :=
  let r := gprOfBits (op.extractLsb' 0 3)
  match (op.extractLsb' 3 5 : BitVec 5).toNat with
  | 8 => noOverride ov (.ok (.incR r, bs))
  | 10 => noOverride ov (.ok (.pushR r, bs))
  | 11 => noOverride ov (.ok (.popR r, bs))
  | 23 => wordForm ov bs (.movRI16 r)
  | _ => .error .notInSubset

/-- An instruction after its segment override, if it has one: the opcode map of R81 to R83. -/
def decodeBody (ov : Option Sreg) (bs : List Byte) : Except DecodeError (Instr × List Byte) :=
  match bs with
  | [] => .error .truncated
  | op :: bs =>
    match op.toNat with
    | 0x01 => regForm ov bs .addRmR
    | 0x03 => regForm ov bs .addRRm
    | 0x05 => wordForm ov bs .addAxI16
    | 0x06 => noOverride ov (.ok (.pushEs, bs))
    | 0x07 => noOverride ov (.ok (.popEs, bs))
    | 0x09 => regForm ov bs .orRmR
    | 0x0B => regMemForm ov bs .orRRm .orRD16 .orRB8 .orRB16
    | 0x0D => wordForm ov bs .orAxI16
    | 0x0E => noOverride ov (.ok (.pushCs, bs))
    | 0x0F => decode0F ov bs
    | 0x16 => noOverride ov (.ok (.pushSs, bs))
    | 0x17 => noOverride ov (.ok (.popSs, bs))
    | 0x1E => noOverride ov (.ok (.pushDs, bs))
    | 0x1F => noOverride ov (.ok (.popDs, bs))
    | 0x31 => regForm ov bs .xorRmR
    | 0x33 => regMemForm ov bs .xorRRm .xorRD16 .xorRB8 .xorRB16
    | 0x35 => wordForm ov bs .xorAxI16
    | 0x39 => regMemForm ov bs .cmpRmR .cmpD16R .cmpB8R .cmpB16R
    | 0x3B => regMemForm ov bs .cmpRRm .cmpRD16 .cmpRB8 .cmpRB16
    | 0x3D => wordForm ov bs .cmpAxI16
    | 0x68 => wordForm ov bs .pushI16
    | 0x6A => byteForm ov bs .pushI8
    | 0x74 => byteForm ov bs .jeRel8
    | 0x75 => byteForm ov bs .jneRel8
    | 0x76 => byteForm ov bs .jbeRel8
    | 0x7C => byteForm ov bs .jlRel8
    | 0x7D => byteForm ov bs .jgeRel8
    | 0x7E => byteForm ov bs .jleRel8
    | 0x80 => do
      let (ext, rm, bs) ← takeModRM bs
      let (i, bs) ← take8 bs
      let x ← group80 ov ext rm i
      .ok (x, bs)
    | 0x81 => do
      let (ext, rm, bs) ← takeModRM bs
      let (i, bs) ← take16 bs
      let x ← group81 ov ext rm i
      .ok (x, bs)
    | 0x83 => do
      let (ext, rm, bs) ← takeModRM bs
      let (i, bs) ← take8 bs
      let x ← group83 ov ext rm i
      .ok (x, bs)
    | 0x89 => regMemForm ov bs .movRmR .movD16R .movB8R .movB16R
    | 0x8B => regMemForm ov bs .movRRm .movRD16 .movRB8 .movRB16
    | 0x8C => sregForm ov bs (fun _ => true) .movRmS .movD16S .movB8S .movB16S
    | 0x8D => do
      let (reg, rm, bs) ← takeModRM bs
      match rm with
      | .b8 d => .ok (.leaRB8 ov (gprOfBits reg) d, bs)
      | .b16 d => .ok (.leaRB16 ov (gprOfBits reg) d, bs)
      | _ => .error .refusedForm
    | 0x8E => sregForm ov bs Sreg.loadable .movSRm .movSD16 .movSB8 .movSB16
    | 0x8F => regDigit ov bs 0#3 .popRm
    | 0x9A => do
      let (off, bs) ← take16 bs
      let (sel, bs) ← take16 bs
      if off = Config.relocSentinel then noOverride ov (.ok (.callFar sel, bs)) else .error .refusedForm
    | 0xA1 => do let (d, bs) ← take16 bs; .ok (.movAxMoffs ov d, bs)
    | 0xA3 => do let (d, bs) ← take16 bs; .ok (.movMoffsAx ov d, bs)
    | 0xAB => noOverride ov (.ok (.stosw, bs))
    | 0xC1 => do
      let (ext, rm, bs) ← takeModRM bs
      let (i, bs) ← take8 bs
      match rm with
      | .reg m => if ext = 4#3 then noOverride ov (.ok (.shlRmI8 m i, bs)) else .error .notInSubset
      | _ => .error .refusedForm
    | 0xC6 => do
      let (ext, rm, bs) ← takeModRM bs
      let (i, bs) ← take8 bs
      let x ← groupC6 ov ext rm i
      .ok (x, bs)
    | 0xC7 => do
      let (ext, rm, bs) ← takeModRM bs
      let (i, bs) ← take16 bs
      let x ← groupC7 ov ext rm i
      .ok (x, bs)
    | 0xC8 => do
      let (i, bs) ← take16 bs
      let (level, bs) ← take8 bs
      if level = 0#8 then noOverride ov (.ok (.enterI16 i, bs)) else .error .refusedForm
    | 0xC9 => noOverride ov (.ok (.leave, bs))
    | 0xD1 => regDigit ov bs 4#3 .shlRm1
    | 0xE8 => wordForm ov bs .callRel16
    | 0xE9 => wordForm ov bs .jmpRel16
    | 0xEB => byteForm ov bs .jmpRel8
    | 0xFF => do
      let (ext, rm, bs) ← takeModRM bs
      let x ← groupFF ov ext rm
      .ok (x, bs)
    | 0x26 => .error .refusedPrefix
    | 0x2E => .error .refusedPrefix
    | 0x36 => .error .refusedPrefix
    | 0x3E => .error .refusedPrefix
    | 0x64 => .error .refusedPrefix
    | 0x65 => .error .refusedPrefix
    | 0x66 => .error .refusedPrefix
    | 0x67 => .error .refusedPrefix
    | 0xF0 => .error .refusedPrefix
    | 0xF2 => .error .refusedPrefix
    | 0xF3 => .error .refusedPrefix
    | _ => decodeOpReg ov op bs

/-- What follows a REP or REPNE byte: STOSW only (R70). -/
def decodeRep (i : Instr) : List Byte → Except DecodeError (Instr × List Byte)
  | [] => .error .truncated
  | op :: bs => if op = 0xAB#8 then .ok (i, bs) else .error .refusedPrefix

/-- Decodes one admitted form from the front of a byte list and gives the bytes left, or says why there
is none. -/
def decode (bs : List Byte) : Except DecodeError (Instr × List Byte) :=
  match bs with
  | [] => .error .truncated
  | b :: rest =>
    match segOverride b with
    | some s => decodeBody (some s) rest
    | none =>
      if b = 0xF3#8 then decodeRep .repStosw rest
      else if b = 0xF2#8 then decodeRep .repneStosw rest
      else decodeBody none bs

/-! ### The Decode parameter (R66) -/

/-- What is known of the x86 instruction at the front of a byte list (R66 item 2, log entry 12). -/
inductive X86Length
  /-- An x86 instruction of `n` bytes, or, where the list ends before its length is settled, of at least
  `n` bytes, `n` being more than the list has. -/
  | known (n : Nat)
  /-- An encoding that x86 reserves, at least `n` bytes by its form, and `n` where the list has so many:
  whether it fails is the implementation's. -/
  | reserved (n : Nat)
  /-- A 0F opcode that x86 does not assign: its length, at least `n`, is the implementation's. -/
  | unassigned (n : Nat)
  deriving DecidableEq, Repr

/-- What the prefixes passed so far say of an instruction's form. -/
structure Prefixes where
  /-- 66: the operand size is 32 bits. -/
  operand32 : Bool := false
  /-- 67: the address size is 32 bits. -/
  address32 : Bool := false
  /-- The last of F2 and F3. -/
  rep : Rep := .none
  deriving DecidableEq, Repr

/-- The prefixes with one more byte among them; none when the byte is no prefix (R69). -/
def Prefixes.add (p : Prefixes) (b : Byte) : Option Prefixes :=
  match b.toNat with
  | 0x26 => some p
  | 0x2E => some p
  | 0x36 => some p
  | 0x3E => some p
  | 0x64 => some p
  | 0x65 => some p
  | 0xF0 => some p
  | 0x66 => some { p with operand32 := true }
  | 0x67 => some { p with address32 := true }
  | 0xF2 => some { p with rep := .repne }
  | 0xF3 => some { p with rep := .rep }
  | _ => none

/-- What follows an opcode: a ModRM operand, `fixed` bytes, `sized` fields of the operand size and
`address` fields of the address size. -/
structure Layout where
  modRM : Bool := false
  fixed : Nat := 0
  sized : Nat := 0
  address : Nat := 0
  deriving DecidableEq, Repr

/-- The bytes of a layout apart from its ModRM operand. -/
def Layout.immBytes (l : Layout) (p : Prefixes) : Nat :=
  l.fixed + l.sized * (if p.operand32 then 4 else 2) + l.address * (if p.address32 then 4 else 2)

/-- The mod field of a ModRM byte (R72). -/
def modField (m : Byte) : Nat := (m.extractLsb' 6 2 : BitVec 2).toNat

/-- The reg field of a ModRM byte, /digit (R72). -/
def digitField (m : Byte) : Nat := (m.extractLsb' 3 3 : BitVec 3).toNat

/-- The rm field of a ModRM byte, or the base field of a SIB byte. -/
def rmField (m : Byte) : Nat := (m.extractLsb' 0 3 : BitVec 3).toNat

/-- Displacement bytes of 16-bit addressing (R73, R76). -/
def disp16Bytes (m : Byte) : Nat :=
  match modField m with
  | 0 => if rmField m = 6 then 2 else 0
  | 1 => 1
  | 2 => 2
  | _ => 0

/-- Displacement bytes of 32-bit addressing, `base` being the rm field, or the SIB byte's base field. -/
def disp32Bytes (mod base : Nat) : Nat :=
  match mod with
  | 0 => if base = 5 then 4 else 0
  | 1 => 1
  | 2 => 4
  | _ => 0

/-- The bytes of the ModRM operand at the front of a list, ModRM byte included; what the list does not
have is counted at the least it can be. -/
def modRMBytes (address32 : Bool) : List Byte → Nat
  | [] => 1
  | m :: rest =>
    if address32 then
      if rmField m = 4 && modField m != 3 then
        2 + disp32Bytes (modField m) (match rest with | [] => 0 | sib :: _ => rmField sib)
      else 1 + disp32Bytes (modField m) (rmField m)
    else 1 + disp16Bytes m

/-- The bytes of an instruction, `before` of them being its prefixes and opcode and `bs` what follows. -/
def layoutLength (before : Nat) (p : Prefixes) (l : Layout) (bs : List Byte) : Nat :=
  before + (if l.modRM then modRMBytes p.address32 bs else 0) + l.immBytes p

/-- What follows a one-byte opcode, `m` being the byte after it. -/
def oneByteLayout (op m : Byte) : Layout :=
  let n := op.toNat
  if n < 0x40 then
    match n % 8 with
    | 4 => { fixed := 1 }
    | 5 => { sized := 1 }
    | 6 => {}
    | 7 => {}
    | _ => { modRM := true }
  else if n < 0x62 then {}
  else if n < 0x70 then
    match n with
    | 0x62 => { modRM := true }
    | 0x63 => { modRM := true }
    | 0x68 => { sized := 1 }
    | 0x69 => { modRM := true, sized := 1 }
    | 0x6A => { fixed := 1 }
    | 0x6B => { modRM := true, fixed := 1 }
    | _ => {}
  else if n < 0x80 then { fixed := 1 }
  else if n < 0x90 then
    match n with
    | 0x80 => { modRM := true, fixed := 1 }
    | 0x81 => { modRM := true, sized := 1 }
    | 0x82 => { modRM := true, fixed := 1 }
    | 0x83 => { modRM := true, fixed := 1 }
    | _ => { modRM := true }
  else if n < 0xA0 then (if n = 0x9A then { fixed := 2, sized := 1 } else {})
  else if n < 0xB0 then
    match n with
    | 0xA0 => { address := 1 }
    | 0xA1 => { address := 1 }
    | 0xA2 => { address := 1 }
    | 0xA3 => { address := 1 }
    | 0xA8 => { fixed := 1 }
    | 0xA9 => { sized := 1 }
    | _ => {}
  else if n < 0xB8 then { fixed := 1 }
  else if n < 0xC0 then { sized := 1 }
  else if n < 0xD0 then
    match n with
    | 0xC0 => { modRM := true, fixed := 1 }
    | 0xC1 => { modRM := true, fixed := 1 }
    | 0xC2 => { fixed := 2 }
    | 0xC4 => { modRM := true }
    | 0xC5 => { modRM := true }
    | 0xC6 => { modRM := true, fixed := 1 }
    | 0xC7 => { modRM := true, sized := 1 }
    | 0xC8 => { fixed := 3 }
    | 0xCA => { fixed := 2 }
    | 0xCD => { fixed := 1 }
    | _ => {}
  else if n < 0xE0 then
    match n with
    | 0xD4 => { fixed := 1 }
    | 0xD5 => { fixed := 1 }
    | 0xD6 => {}
    | 0xD7 => {}
    | _ => { modRM := true }
  else if n < 0xE8 then { fixed := 1 }
  else
    match n with
    | 0xE8 => { sized := 1 }
    | 0xE9 => { sized := 1 }
    | 0xEA => { fixed := 2, sized := 1 }
    | 0xEB => { fixed := 1 }
    | 0xF6 => { modRM := true, fixed := if digitField m < 2 then 1 else 0 }
    | 0xF7 => { modRM := true, sized := if digitField m < 2 then 1 else 0 }
    | 0xFE => { modRM := true }
    | 0xFF => { modRM := true }
    | _ => {}

/-- The one-byte opcodes and extensions that x86 reserves, `m` being the byte after the opcode: D6,
8F /1 to /7, C6 and C7 /1 to /7 but for the byte F8, FE /2 to /7, FF /7, and FF /3 and /5 with mod 11. -/
def reservedOneByte (op m : Byte) : Bool :=
  match op.toNat with
  | 0x8F => digitField m != 0
  | 0xC6 => digitField m != 0 && m != 0xF8#8
  | 0xC7 => digitField m != 0 && m != 0xF8#8
  | 0xD6 => true
  | 0xFE => decide (2 ≤ digitField m)
  | 0xFF => digitField m == 7 || ((digitField m == 3 || digitField m == 5) && modField m == 3)
  | _ => false

/-- The number of payload bytes when `op` begins a VEX (C4, C5), EVEX (62) or XOP (8F) encoding: each is
the register form that LES, LDS, BOUND and POP leave over. -/
def vexPayload (op : Byte) (bs : List Byte) : Option Nat :=
  match bs with
  | [] => none
  | m :: _ =>
    match op.toNat with
    | 0x62 => if modField m = 3 then some 3 else none
    | 0xC4 => if modField m = 3 then some 2 else none
    | 0xC5 => if modField m = 3 then some 1 else none
    | 0x8F => if 8 ≤ m.toNat % 32 then some 2 else none
    | _ => none

/-- What follows the opcode of a VEX, EVEX or XOP encoding, by its opcode map. -/
def vexLayout (op m opcode : Byte) : Layout :=
  match op.toNat with
  | 0x8F => { modRM := true, fixed := match m.toNat % 32 with | 8 => 1 | 10 => 4 | _ => 0 }
  | _ =>
    match (if op = 0xC5#8 then 1 else if op = 0x62#8 then m.toNat % 8 else m.toNat % 32) with
    | 1 =>
      if opcode = 0x77#8 then {}
      else { modRM := true, fixed := if [0x70, 0x71, 0x72, 0x73, 0xC2, 0xC4, 0xC5, 0xC6].contains opcode.toNat then 1 else 0 }
    | 3 => { modRM := true, fixed := 1 }
    | _ => { modRM := true }

/-- The length of the instruction with the one-byte opcode `op` followed by `bs`, `before` bytes being
passed with the opcode. A ModRM byte that `bs` does not have is taken for one that needs the fewest bytes
(D0), and for one that is not reserved (C0). -/
def oneByteLength (before : Nat) (p : Prefixes) (op : Byte) (bs : List Byte) : X86Length :=
  let m := bs.headD 0xD0#8
  match vexPayload op bs with
  | some k =>
    match bs.drop k with
    | [] => .reserved (before + k + 1)
    | opcode :: rest => .reserved (layoutLength (before + k + 1) p (vexLayout op m opcode) rest)
  | none =>
    let n := layoutLength before p (oneByteLayout op m) bs
    if reservedOneByte op (bs.headD 0xC0#8) then .reserved n else .known n

/-- The second bytes after 0F that x86 assigns to no instruction. -/
def unassignedTwoByte (op : Byte) : Bool :=
  [0x04, 0x0A, 0x0C, 0x25, 0x27, 0x36, 0x39, 0x3B, 0x3C, 0x3D, 0x3E, 0x3F, 0x7A, 0x7B, 0xA6, 0xA7].contains op.toNat

/-- What follows a 0F opcode, 0F 38 and 0F 3A taking one more opcode byte, which `fixed` counts. A move to or from a
control, debug or test register (20 to 26) has one byte that names two registers. -/
def twoByteLayout (p : Prefixes) (op : Byte) : Layout :=
  let n := op.toNat
  if [0x05, 0x06, 0x07, 0x08, 0x09, 0x0B, 0x0E, 0x30, 0x31, 0x32, 0x33, 0x34, 0x35, 0x37, 0x77, 0xA0, 0xA1, 0xA2, 0xA8,
      0xA9, 0xAA, 0xC8, 0xC9, 0xCA, 0xCB, 0xCC, 0xCD, 0xCE, 0xCF].contains n then {}
  else if [0x20, 0x21, 0x22, 0x23, 0x24, 0x26].contains n then { fixed := 1 }
  else if [0x0F, 0x70, 0x71, 0x72, 0x73, 0xA4, 0xAC, 0xBA, 0xC2, 0xC4, 0xC5, 0xC6].contains n then
    { modRM := true, fixed := 1 }
  else if 0x80 ≤ n && n < 0x90 then { sized := 1 }
  else if n = 0xB8 then (if p.rep = .rep then { modRM := true } else { sized := 1 })
  else if n = 0x78 then { modRM := true, fixed := if p.operand32 || p.rep == .repne then 2 else 0 }
  else { modRM := true }

/-- The length of the instruction with a 0F opcode whose second byte is `op`, `before` bytes being passed
with both. -/
def twoByteLength (before : Nat) (p : Prefixes) (op : Byte) (bs : List Byte) : X86Length :=
  if unassignedTwoByte op then .unassigned before
  else if op = 0x38#8 then .known (layoutLength (before + 1) p { modRM := true } bs.tail)
  else if op = 0x3A#8 then .known (layoutLength (before + 1) p { modRM := true, fixed := 1 } bs.tail)
  else .known (layoutLength before p (twoByteLayout p op) bs)

/-- The x86 length of the instruction at the front of a list, `before` bytes of it, the prefixes `p`,
being passed: further prefixes, then the opcode. -/
def x86Length (p : Prefixes) (before : Nat) : List Byte → X86Length
  | [] => .known (before + 1)
  | op :: bs =>
    match p.add op with
    | some p => x86Length p (before + 1) bs
    | none =>
      if op = 0x0F#8 then
        match bs with
        | [] => .known (before + 2)
        | op2 :: bs => twoByteLength (before + 2) p op2 bs
      else oneByteLength (before + 1) p op bs

/-- The length x86 allows an instruction at most (R65: 1 to 15). -/
def maxLength : Nat := 15

/-- An instruction that runs past the end of the buffer (R66 item 3): `rest` bytes are left. -/
def decodeTail (tail : Config.TailPolicy) (rest : Nat) : Option Decoded :=
  match tail with
  | .fail => none
  | .accept => some (.other rest)

/-- An instruction outside the subset that needs `n` bytes, `rest` being left. More than 15 bytes are no
x86 instruction, and no length of R66 item 2. -/
def decodeOther (tail : Config.TailPolicy) (n rest : Nat) : Option Decoded :=
  if maxLength < n then none else if n ≤ rest then some (.other n) else decodeTail tail rest

/-- Decode on bytes that are no admitted form (R66 items 2 and 3): Other with the x86 length for every x86
instruction and every 0F opcode (R70, R84), and the implementation's answer for what x86 reserves. -/
def decodeForeign (tail : Config.TailPolicy) (bs : List Byte) : Option Decoded :=
  match x86Length {} 0 bs with
  | .known n => decodeOther tail n bs.length
  | .reserved n => if Config.reservedFails (bs.take maxLength) then none else decodeOther tail n bs.length
  | .unassigned n =>
    if maxLength < n then none
    else decodeOther tail (n + Config.unassignedLength (bs.take maxLength) % (maxLength + 1 - n)) bs.length

/-- `Decode(buffer, o)` of rule R66 on the bytes from o to the end of the buffer: none is Fail. -/
def decodeAt (tail : Config.TailPolicy) (bs : List Byte) : Option Decoded :=
  match decode bs with
  | .ok (i, _) => some (.instr i)
  | .error _ => decodeForeign tail bs

/-- The linear sweep of rule R67 over the bytes from offset `o` on, `skip` of them inside the
instruction already decoded: the index entries in rising order, or the offset that failed to decode. -/
def sweep (tail : Config.TailPolicy) : List Byte → Nat → Nat → Except Nat (List (Nat × Decoded))
  | [], _, _ => .ok []
  | _ :: bs, skip + 1, o => sweep tail bs skip (o + 1)
  | b :: bs, 0, o =>
    match decodeAt tail (b :: bs) with
    | none => .error o
    | some d =>
      match sweep tail bs (d.length - 1) (o + 1) with
      | .error e => .error e
      | .ok rest => .ok ((o, d) :: rest)

/-! ### The opcode table's numbers -/

/-- The `nbits / 8` bytes of the number `w`, the first byte in the most significant place: the table's
own numbering (its `match` and `mask` strings and the `fixed` and `fields` made from them). -/
def tableBytes (nbits w : Nat) : List Byte :=
  (List.range (nbits / 8)).reverse.map (fun k => BitVec.ofNat 8 (w / 256 ^ k))

/-- The same bytes with the first one in the least significant place. -/
def tableBytesLow (nbits w : Nat) : List Byte :=
  (List.range (nbits / 8)).map (fun k => BitVec.ofNat 8 (w / 256 ^ k))

/-- The instruction that `bs`, followed by zeros, is: it may run on into the zeros, and it leaves none
of `bs` over. -/
def decodeWhole (bs : List Byte) : Option Instr :=
  match decode (bs ++ List.replicate maxLength 0#8) with
  | .ok (i, _) => if bs.length ≤ i.length then some i else none
  | .error _ => none

/-- The instruction that a word numbered as the opcode table numbers it is (log entry 13): in the
table's own byte order, and, where that is no instruction, with the first byte least significant. -/
def decodeTableWord (nbits w : Nat) : Option Instr :=
  match decodeWhole (tableBytes nbits w) with
  | some i => some i
  | none => decodeWhole (tableBytesLow nbits w)

end Sys2Proof
end

