-- ==== Sys2Proof/Machine/State.lean ====
section
/-!
DEFINITION. The state of one context as plain data, its faults and refusals, and the state at context
creation (spec/10_state.md, spec/60_exceptions.md, spec/70_reset_and_hazards.md).
-/

namespace Sys2Proof.Machine

/-- One value for each of the 12 numbered registers (R20, R22). -/
structure Bank (α : Type) where
  ax : α
  cx : α
  dx : α
  bx : α
  sp : α
  bp : α
  si : α
  di : α
  es : α
  cs : α
  ss : α
  ds : α
  deriving DecidableEq, Repr

/-- A register or flag an instruction can find unwritten (R39, R128 code 9). -/
inductive Item
  | reg (r : Reg)
  | ip
  | zf
  | cf
  deriving DecidableEq, Repr

/-- Why a step or a host operation fails. Codes 1 to 9 are the kinds of rule R128; `diverges` is the
third outcome of rule R104 and no fault kind of the spec. -/
inductive Fault
  /-- Code 1. Raised by a step whose decoded entry is Other or not admitted (R92, R94), by a byte read on
  the host path (R96) and by a far CALL with an Internal relocation (R127). Safe: the spec's fault. -/
  | unsupportedInstruction (d : Decoded)
  /-- Code 2. Raised by a fetch from an unregistered CS (R91), by every access failing rule R43, and by
  the host's reads, writes, string read and allocation (R49, R54). Safe: the spec's fault. -/
  | segmentFault (segment : Word) (offset : Nat)
  /-- Code 3. Raised by a fetch at an offset where no decoded instruction starts (R91). Safe: the spec's
  fault. -/
  | invalidControlFlow (segment : Word) (offset : Nat)
  /-- Code 4. Raised by the host's registration of a code segment that fails to decode (R67). Safe: the
  spec's fault. -/
  | malformedCode (segment : Word) (offset : Nat)
  /-- Code 5. Raised by the host's string read (R49). Safe: the spec's fault. -/
  | unterminatedString (segment : Word) (offset : Nat)
  /-- Code 6. Raised by a far CALL with no relocation record (R127). Safe: the spec's fault. -/
  | unresolvedExternalCall (segment : Word) (offset : Word)
  /-- Code 7. Raised by the host's registration of an ordinal already registered (R41). Safe: the spec's
  fault. -/
  | duplicateSegment (ordinal : Word)
  /-- Code 8. Raised when the external-function callback fails (R55). Safe: the spec's fault. -/
  | hostFault (module function : Word)
  /-- Code 9. Raised, under RESET_REGS = unwritten only, by a read of a register or flag that nothing
  has written (R39). Safe: the spec's fault; no run from State.reset raises it (log entry 1). -/
  | uninitialisedRead (item : Item)
  /-- No code: the step never completes (R104). Raised by STOSW with an odd CX and an even DI in a
  registered segment (R117) and by either callback when it never returns. Safe: a stuck state. -/
  | diverges
  deriving DecidableEq, Repr

/-- Why there is no transition at all. -/
inductive Refusal
  /-- Raised by exec for an instruction with no meaning; the string is its mnemonic. Safe. -/
  | notModelled (mnemonic : String)
  /-- Raised by step: a faulted context admits no further step (R30, R133; 93 U3). Safe. -/
  | contextFaulted (k : Fault)
  /-- Raised by host operations asked for something outside their contract (R42; 93 U19). Safe. -/
  | outsideContract
  deriving DecidableEq, Repr

/-- The core status (R30). -/
inductive Status
  | running
  | faulted (k : Fault)
  deriving DecidableEq, Repr

/-- What a relocation record points at (R33). -/
inductive RelocTarget
  | importRef (module function : Word)
  | internalRef (value : Word)
  deriving DecidableEq, Repr

/-- A relocation record (R33). -/
structure Reloc where
  offset : Word
  target : RelocTarget
  deriving DecidableEq, Repr

/-- What is fixed about a segment at its registration (R32). Its bytes are in State.mem. -/
structure Segment where
  ordinal : Word
  isCode : Bool
  /-- In registration order. -/
  relocs : List Reloc
  /-- The decoded-instruction index: an entry for each instruction start, in rising order of offset. A
  data segment's is empty (R34). -/
  index : List (Nat × Decoded)
  deriving DecidableEq, Repr

/-- One thing a host callback may do to the core (R55 items 1 and 2). -/
inductive HostWrite
  | reg (r : Reg) (v : Word)
  | ip (v : Word)
  /-- "set the flags bitfield" (R28). -/
  | flags (v : Word)
  | zf (b : Bool)
  | cf (b : Bool)
  | byte (segment offset : Word) (b : Byte)
  deriving DecidableEq, Repr

/-- How the external-function callback ends (R55, R104). -/
inductive HostReply
  /-- It did `writes` in order and returned `value`. -/
  | returned (value : Word) (writes : List HostWrite)
  /-- It failed: HostFault. -/
  | failed
  /-- It never returned: the step diverges. -/
  | never
  deriving DecidableEq, Repr, Inhabited

/-- A call of one of the two host callbacks (R15). -/
inductive HostCall
  | invoke (module function : Word)
  | readWord (segment offset : Word)
  deriving DecidableEq, Repr

/-- The state of one context. The fields from `regs` to `arena` are the spec's own; `cfg` holds the
context's construction parameters; `draws`, `hostReplies`, `hostWords` and `hostCalls` are the model's own. -/
structure State where
  /-- The 8 general and 4 segment registers (R20, R22). -/
  regs : Bank Word
  /-- The instruction pointer (R23). -/
  ip : Word
  /-- The flags register F: CF is bit 0, ZF is bit 6, the other bits are plain storage (R24, R27). -/
  flags : Word
  /-- The written bit of each numbered register (R39). -/
  written : Bank Bool
  /-- The written bit of IP (R39). -/
  ipWritten : Bool
  /-- The written bit of ZF (R39, D44). -/
  zfWritten : Bool
  /-- The written bit of CF (R39, D44). -/
  cfWritten : Bool
  /-- The core status (R30). -/
  status : Status
  /-- The Segment Store without its bytes, in strictly rising order of ordinal (R31, R32). -/
  store : List Segment
  /-- The bytes of the registered segments: the byte at (s, o) has the key s * 65536 + o, and a byte not
  listed is zero (R32, R40, R41). -/
  mem : List Host.Cell
  /-- The arena cursor, 0 to 65536 (R35). -/
  arena : Nat
  /-- The parameters and switches the context was built with (R9, R10). -/
  cfg : Config.Switches
  /-- How many free bits XOR, OR and SHL have taken; the next is Config.drawBit of it (R16). -/
  draws : Nat
  /-- The replies the external-function callback has ready, the next one first. With none left it
  answers Config.hostInvoke (R9, R55). -/
  hostReplies : List HostReply
  /-- The answers the external-memory-read callback has ready, the next one first, none being a call that
  never returns. With none left it answers Config.hostReadWord (R9, R56, R104). -/
  hostWords : List (Option Word)
  /-- The callbacks made so far, the newest first. -/
  hostCalls : List HostCall
  deriving DecidableEq, Repr

/-- The same value for every register. -/
def Bank.all {α : Type} (a : α) : Bank α := ⟨a, a, a, a, a, a, a, a, a, a, a, a⟩

/-- The construction parameters State.reset is built with: the defaults of rule R10, except that a read
of a register nothing has written is no fault (log entries 1 to 4). -/
def resetSwitches : Config.Switches where
  addCfSource := .oldNew
  addCfWrite := .assign
  logicFlags := .draw
  resetRegs := .draw
  tailPolicy := .accept
  hostScratchSeg := 0x00FF#16

/-- The state at context creation (R38, R141). The spec gives no register, flag or IP value: each is
zero here (DESIGN CHOICE, unsafe, log entry 2). -/
def State.reset : State where
  regs := Bank.all 0#16
  ip := 0#16
  flags := 0#16
  written := Bank.all false
  ipWritten := false
  zfWritten := false
  cfWritten := false
  status := .running
  store := []
  mem := []
  arena := 0
  cfg := resetSwitches
  draws := 0
  hostReplies := []
  hostWords := []
  hostCalls := []

end Sys2Proof.Machine

/-- The reply of the external-function callback `invoke(module, function)` in a state, when the context
has none ready: a free value (R9, R15, R55). -/
opaque Sys2Proof.Config.hostInvoke : Sys2Proof.Machine.State → Sys2Proof.Word → Sys2Proof.Word → Sys2Proof.Machine.HostReply

/-- The writes that turn the state before a faulted step into the one it leaves: a free value, since
every register, flag and byte is unspecified after a step fault (R132, D27). -/
opaque Sys2Proof.Config.faultResidue : Sys2Proof.Machine.State → Sys2Proof.Machine.Fault → List Sys2Proof.Machine.HostWrite
end

