-- ==== Sys2Proof/Machine/Memory.lean ====
section
/-!
DEFINITION. Memory as a list of address and byte pairs in canonical form: addresses strictly rising, and
no byte equal to what an unlisted address reads as.
-/

namespace Sys2Proof.Machine

/-- The byte at an address; an unlisted one reads as zero (R41). -/
def Memory.read : List Host.Cell → Nat → Byte
  | [], _ => Config.unlistedByte
  | (a, b) :: m, x => if a = x then b else Memory.read m x

/-- A cell in front of a memory, unless it says what an unlisted address reads as. -/
def Memory.put (x : Nat) (b : Byte) (m : List Host.Cell) : List Host.Cell :=
  if b = Config.unlistedByte then m else (x, b) :: m

/-- Stores a byte, keeping the canonical form. -/
def Memory.write : List Host.Cell → Nat → Byte → List Host.Cell
  | [], x, b => Memory.put x b []
  | (a, c) :: m, x, b =>
    if x < a then Memory.put x b ((a, c) :: m)
    else if x = a then Memory.put x b m
    else (a, c) :: Memory.write m x b

/-- The canonical form. -/
def Memory.wf : List Host.Cell → Bool
  | [] => true
  | (a, b) :: m => b != Config.unlistedByte && m.all (fun c => decide (a < c.1)) && Memory.wf m

/-- The key of the byte at (s, o): segments never overlap (R40). -/
def cellKey (segment : Word) (offset : Nat) : Nat := segment.toNat * Config.segSize + offset

/-- A memory with bytes stored from a key on. -/
def putBytes (key : Nat) : List Byte → List Host.Cell → List Host.Cell
  | [], m => m
  | b :: bs, m => putBytes (key + 1) bs (Memory.write m key b)

end Sys2Proof.Machine
end

