-- ==== Sys2Proof/Machine/Ops.lean ====
section
/-!
DEFINITION. The named operations on registers, memory, relocations, the stack and the host callbacks,
fetching, and taking a fault (spec/00_scope.md R12 to R16, spec/20_memory.md, spec/40_dispatch.md,
spec/60_exceptions.md). What can fail answers `Except Fault`: rule R16, `raise K(info)` ends the step.
-/

namespace Sys2Proof.Machine

/-! ### Registers (R12, R23, R28, R39) -/

/-- The value of a register in a bank. -/
def Bank.get {α : Type} (k : Bank α) : Reg → α
  | .gpr .ax => k.ax
  | .gpr .cx => k.cx
  | .gpr .dx => k.dx
  | .gpr .bx => k.bx
  | .gpr .sp => k.sp
  | .gpr .bp => k.bp
  | .gpr .si => k.si
  | .gpr .di => k.di
  | .seg .es => k.es
  | .seg .cs => k.cs
  | .seg .ss => k.ss
  | .seg .ds => k.ds

/-- A bank with one register replaced. -/
def Bank.set {α : Type} (k : Bank α) (r : Reg) (v : α) : Bank α :=
  match r with
  | .gpr .ax => { k with ax := v }
  | .gpr .cx => { k with cx := v }
  | .gpr .dx => { k with dx := v }
  | .gpr .bx => { k with bx := v }
  | .gpr .sp => { k with sp := v }
  | .gpr .bp => { k with bp := v }
  | .gpr .si => { k with si := v }
  | .gpr .di => { k with di := v }
  | .seg .es => { k with es := v }
  | .seg .cs => { k with cs := v }
  | .seg .ss => { k with ss := v }
  | .seg .ds => { k with ds := v }

/-- The written bit of a register or flag (R39). -/
def itemWritten (s : State) : Item → Bool
  | .reg r => s.written.get r
  | .ip => s.ipWritten
  | .zf => s.zfWritten
  | .cf => s.cfWritten

/-- An instruction may read it: it has been written, or RESET_REGS = draw (R39). -/
def canRead (item : Item) (s : State) : Bool :=
  s.cfg.resetRegs == .draw || itemWritten s item

/-- `v`, or UninitialisedRead where the item may not be read (R39). -/
def readItem {α : Type} (item : Item) (v : α) (s : State) : Except Fault α :=
  if canRead item s then .ok v else .error (.uninitialisedRead item)

/-- `x[r]` as an instruction reads it (R12, R39). -/
def readReg (r : Reg) (s : State) : Except Fault Word := readItem (.reg r) (s.regs.get r) s

/-- IP as the fetch reads it (R91, R130 item 1). -/
def readIp (s : State) : Except Fault Word := readItem .ip s.ip s

/-- `x[r] <- v` (R12); any write sets the written bit (R39). -/
def writeReg (r : Reg) (v : Word) (s : State) : State :=
  { s with regs := s.regs.set r v, written := s.written.set r true }

/-- `IP <- v` (R12, R39). -/
def writeIp (v : Word) (s : State) : State := { s with ip := v, ipWritten := true }

/-- The step's advance: IP <- IP +16 length (R100). -/
def advance (length : Nat) (s : State) : State := writeIp (s.ip + BitVec.ofNat 16 length) s

/-- The outcome of a handler (R104). -/
def finish (r : Except Fault State) : Host.Outcome State Fault Refusal :=
  match r with
  | .ok s => .next s
  | .error k => .fault k

/-! ### The Segment Store (R31, R43 to R45, R50) -/

/-- The segment registered under an ordinal. -/
def findSegment (store : List Segment) (ordinal : Word) : Option Segment :=
  store.find? (fun g => g.ordinal == ordinal)

/-- The ordinal is registered. -/
def registered (s : State) (ordinal : Word) : Bool := (findSegment s.store ordinal).isSome

/-- An access of `n` bytes at (segment, offset) is in bounds (R43). -/
def inBounds (s : State) (segment : Word) (offset n : Nat) : Bool :=
  registered s segment && decide (offset + n ≤ Config.segSize)

/-- `v`, or the SegmentFault of an access out of bounds (R43). -/
def access {α : Type} (segment : Word) (offset n : Nat) (v : α) (s : State) : Except Fault α :=
  if inBounds s segment offset n then .ok v else .error (.segmentFault segment offset)

/-- The stored byte at (segment, offset), with no check. -/
def byteAt (s : State) (segment : Word) (offset : Nat) : Byte := Memory.read s.mem (cellKey segment offset)

/-- The stored word at (segment, offset), little-endian (R44), with no check. -/
def wordAt (s : State) (segment : Word) (offset : Nat) : Word :=
  wordOf (byteAt s segment offset) (byteAt s segment (offset + 1))

/-- Stores a byte at (segment, offset), with no check. -/
def putByte (segment : Word) (offset : Nat) (b : Byte) (s : State) : State :=
  { s with mem := Memory.write s.mem (cellKey segment offset) b }

/-- Stores a word at (segment, offset), little-endian (R44), with no check. -/
def putWord (segment : Word) (offset : Nat) (v : Word) (s : State) : State :=
  putByte segment (offset + 1) (hiByte v) (putByte segment offset (loByte v) s)

/-- `MemRead((segment, offset), 1)` (R13, R43). -/
def memRead8 (segment offset : Word) (s : State) : Except Fault Byte :=
  access segment offset.toNat 1 (byteAt s segment offset.toNat) s

/-- `MemRead((segment, offset), 2)` (R13, R43, R44). -/
def memRead16 (segment offset : Word) (s : State) : Except Fault Word :=
  access segment offset.toNat 2 (wordAt s segment offset.toNat) s

/-- `MemWrite((segment, offset), 1, b)` (R13, R43). -/
def memWrite8 (segment offset : Word) (b : Byte) (s : State) : Except Fault State :=
  access segment offset.toNat 1 (putByte segment offset.toNat b s) s

/-- `MemWrite((segment, offset), 2, v)` (R13, R43, R44). -/
def memWrite16 (segment offset : Word) (v : Word) (s : State) : Except Fault State :=
  access segment offset.toNat 2 (putWord segment offset.toNat v s) s

/-- `RelocAt(segment, offset)`: the first record at the offset in registration order, and none for an
unregistered segment (R14, R50). -/
def relocAt (segment offset : Word) (s : State) : Option RelocTarget :=
  match findSegment s.store segment with
  | none => none
  | some g => (g.relocs.find? (fun r => r.offset == offset)).map Reloc.target

/-! ### The stack (R101) -/

/-- `Push16(v)`: SP falls by 2, then the word is written at (SS, SP). -/
def push16 (v : Word) (s : State) : Except Fault State := do
  let sp ← readReg (.gpr .sp) s
  let s := writeReg (.gpr .sp) (sp - Config.stackStep) s
  let ss ← readReg (.seg .ss) s
  memWrite16 ss (sp - Config.stackStep) v s

/-- `Pop16()`: the word at (SS, SP) is read, then SP rises by 2. -/
def pop16 (s : State) : Except Fault (Word × State) := do
  let ss ← readReg (.seg .ss) s
  let sp ← readReg (.gpr .sp) s
  let v ← memRead16 ss sp s
  .ok (v, writeReg (.gpr .sp) (sp + Config.stackStep) s)

/-! ### The host callbacks (R15, R55, R56) -/

/-- Sets the flags bitfield, which writes both ZF and CF (R28, R39). -/
def setFlags (v : Word) (s : State) : State := { s with flags := v, zfWritten := true, cfWritten := true }

/-- The bit of F that holds CF (R24). -/
def cfMask : Word := 0x0001#16

/-- The bit of F that holds ZF (R24). -/
def zfMask : Word := 0x0040#16

/-- F with the bits of a mask set or cleared. -/
def setBit (f mask : Word) (b : Bool) : Word := if b then f ||| mask else f &&& ~~~mask

/-- `F.ZF <- b` (R12, R39). -/
def writeZf (b : Bool) (s : State) : State := { s with flags := setBit s.flags zfMask b, zfWritten := true }

/-- `F.CF <- b` (R12, R39). -/
def writeCf (b : Bool) (s : State) : State := { s with flags := setBit s.flags cfMask b, cfWritten := true }

/-- One write of a callback. A byte of an unregistered segment does not exist, so that write fails
(R43) and changes nothing. -/
def applyHostWrite (s : State) : HostWrite → State
  | .reg r v => writeReg r v s
  | .ip v => writeIp v s
  | .flags v => setFlags v s
  | .zf b => writeZf b s
  | .cf b => writeCf b s
  | .byte segment offset b => if registered s segment then putByte segment offset.toNat b s else s

/-- The writes of a callback, in order. -/
def applyHostWrites (s : State) (ws : List HostWrite) : State := ws.foldl applyHostWrite s

/-- The reply `invoke(module, function)` gets in a state: the first one ready, or the free value. -/
def hostReply (module function : Word) (s : State) : HostReply :=
  match s.hostReplies with
  | r :: _ => r
  | [] => Config.hostInvoke s module function

/-- The state with a call of invoke recorded and its reply used up. -/
def recordInvoke (module function : Word) (s : State) : State :=
  { s with hostReplies := s.hostReplies.tail, hostCalls := .invoke module function :: s.hostCalls }

/-- `HostInvoke(module, function)`: the returned word and the state the callback leaves (R15, R55). -/
def hostInvoke (module function : Word) (s : State) : Except Fault (Word × State) :=
  match hostReply module function s with
  | .returned v ws => .ok (v, applyHostWrites (recordInvoke module function s) ws)
  | .failed => .error (.hostFault module function)
  | .never => .error .diverges

/-- The answer HostReadWord(segment, offset) gets in a state: the first one ready, or the free value (R56);
none is a call that never returns (R104). -/
def hostWord (segment offset : Word) (s : State) : Option Word :=
  match s.hostWords with
  | w :: _ => w
  | [] => some (Config.hostReadWord s.hostCalls.length segment offset)

/-- The state with a call of HostReadWord recorded and its answer used up; the call changes no core state
(R56). -/
def recordRead (segment offset : Word) (s : State) : State :=
  { s with hostWords := s.hostWords.tail, hostCalls := .readWord segment offset :: s.hostCalls }

/-- `HostReadWord(segment, offset)`: the word, and the state with the call on record (R15, R56). -/
def hostRead (segment offset : Word) (s : State) : Except Fault (Word × State) :=
  match hostWord segment offset s with
  | some w => .ok (w, recordRead segment offset s)
  | none => .error .diverges

/-- `RelocSubst(v)` at the current instruction (R99). -/
def relocSubst (v : Word) (s : State) : Except Fault (Word × State) :=
  if v = Config.relocSentinel then do
    let cs ← readReg (.seg .cs) s
    match relocAt cs (s.ip + Config.relocProbeOffset) s with
    | some (.importRef m f) => hostInvoke m f s
    | some (.internalRef w) => .ok (w, s)
    | none => .ok (Config.relocSentinel, s)
  else .ok (v, s)

/-! ### Fetching (R91, R130) -/

/-- The index entry of a segment at an offset. -/
def indexAt (g : Segment) (offset : Nat) : Option Decoded :=
  (g.index.find? (fun e => e.1 == offset)).map Prod.snd

/-- `Fetch(x[CS], IP)` (R91). When CS and IP are both unwritten the UninitialisedRead names CS: R130 item 1 says "of CS or
IP", and the model reads them from left to right (DEDUCED, log entry 17). -/
def fetch (s : State) : Except Fault Decoded := do
  let cs ← readReg (.seg .cs) s
  let ip ← readIp s
  match findSegment s.store cs with
  | none => .error (.segmentFault cs ip.toNat)
  | some g =>
    match indexAt g ip.toNat with
    | none => .error (.invalidControlFlow cs ip.toNat)
    | some d => .ok d

/-! ### Placing code (used by State.withFetchWord) -/

/-- An index with the entry of one offset replaced, in rising order of offset. -/
def putEntry (offset : Nat) (d : Decoded) : List (Nat × Decoded) → List (Nat × Decoded)
  | [] => [(offset, d)]
  | (o, e) :: rest =>
    if offset < o then (offset, d) :: (o, e) :: rest
    else if offset = o then (offset, d) :: rest
    else (o, e) :: putEntry offset d rest

/-- A store in which the segment under an ordinal is a code segment with a given entry: the segment
registered there, or a new one, in rising order of ordinal. -/
def putCode (ordinal : Word) (offset : Nat) (d : Decoded) : List Segment → List Segment
  | [] => [⟨ordinal, true, [], [(offset, d)]⟩]
  | g :: rest =>
    if ordinal < g.ordinal then ⟨ordinal, true, [], [(offset, d)]⟩ :: g :: rest
    else if ordinal = g.ordinal then { g with isCode := true, index := putEntry offset d g.index } :: rest
    else g :: putCode ordinal offset d rest

/-! ### Taking a fault (R103, R130 to R133) -/

/-- Entry (R131): the status records the kind and info, the fault goes to the host as the step's result,
and every register, flag and byte is unspecified (R132). There is no handler, no saved frame and no
return (R133). -/
def takeFault (k : Fault) (s : State) : State :=
  { applyHostWrites s (Config.faultResidue s k) with status := .faulted k }

/-- The numeric code of a fault kind (R128); a step that never completes is no fault kind. -/
def Fault.code : Fault → Option Nat
  | .unsupportedInstruction _ => some 1
  | .segmentFault _ _ => some 2
  | .invalidControlFlow _ _ => some 3
  | .malformedCode _ _ => some 4
  | .unterminatedString _ _ => some 5
  | .unresolvedExternalCall _ _ => some 6
  | .duplicateSegment _ => some 7
  | .hostFault _ _ => some 8
  | .uninitialisedRead _ => some 9
  | .diverges => none

end Sys2Proof.Machine
end

