-- ==== Sys2Proof/Machine/Flags.lean ====
section
/-!
DEFINITION. The flag computations: ADD's carry heuristic, CMP, INC, the logic flags and the jump
conditions (spec/41_alu.md, spec/44_control_transfer.md rule R118).
-/

namespace Sys2Proof.Machine

/-- ZF of F (R24). -/
def State.zf (s : State) : Bool := s.flags.getLsbD 6

/-- CF of F (R24). -/
def State.cf (s : State) : Bool := s.flags.getLsbD 0

/-- ZF as an instruction reads it (R39). -/
def readZf (s : State) : Except Fault Bool := readItem .zf s.zf s

/-- CF as an instruction reads it (R39). -/
def readCf (s : State) : Except Fault Bool := readItem .cf s.cf s

/-- The sign bits of ADD's carry heuristic differ (R105): `a` the old destination, `b` the source, `r`
the result. -/
def signMismatch (src : Config.AddCfSource) (a b r : Word) : Bool :=
  match src with
  | .oldNew => a.msb != r.msb
  | .destSrc => a.msb != b.msb

/-- The flags of ADD (R105): ZF iff the result is zero, CF by the heuristic. -/
def addFlags (a b r : Word) (s : State) : State :=
  let mismatch := signMismatch s.cfg.addCfSource a b r
  let s := writeZf (r == 0#16) s
  match s.cfg.addCfWrite with
  | .assign => writeCf mismatch s
  | .setOnly => if mismatch then writeCf true s else s

/-- The flags of CMP (R106): ZF on equality, CF on destination <u source. -/
def cmpFlags (a b : Word) (s : State) : State := writeCf (decide (a < b)) (writeZf (a == b) s)

/-- The flags of INC (R107): ZF only. -/
def incFlags (r : Word) (s : State) : State := writeZf (r == 0#16) s

/-- The flags of XOR, OR and SHL under LOGIC_FLAGS (R108 to R110), `zf` and `cf` being x86's. Under draw
ZF and CF are each a free value. -/
def logicFlags (zf cf : Bool) (s : State) : State :=
  match s.cfg.logicFlags with
  | .draw => { writeCf (Config.drawBit (s.draws + 1)) (writeZf (Config.drawBit s.draws) s) with draws := s.draws + 2 }
  | .unchanged => s
  | .x86 => writeCf cf (writeZf zf s)

/-- The condition codes of the conditional jumps (R118). -/
inductive Cond
  | e | ne | l | ge | le | be
  deriving DecidableEq, Repr

/-- JCC_TABLE (R118). -/
def condHolds (c : Cond) (zf cf : Bool) : Bool :=
  match c with
  | .e => zf
  | .ne => !zf
  | .l => !zf && cf
  | .ge => zf || !cf
  | .le => zf || cf
  | .be => zf || cf

/-- The condition as a jump evaluates it: JE and JNE read ZF, the others ZF and then CF (R119 to R124,
log entry 9). -/
def evalCond (c : Cond) (s : State) : Except Fault Bool :=
  match c with
  | .e => do let z ← readZf s; .ok (condHolds .e z false)
  | .ne => do let z ← readZf s; .ok (condHolds .ne z false)
  | .l => do let z ← readZf s; let k ← readCf s; .ok (condHolds .l z k)
  | .ge => do let z ← readZf s; let k ← readCf s; .ok (condHolds .ge z k)
  | .le => do let z ← readZf s; let k ← readCf s; .ok (condHolds .le z k)
  | .be => do let z ← readZf s; let k ← readCf s; .ok (condHolds .be z k)

end Sys2Proof.Machine
end

