-- ==== Sys2Proof/Machine/Operands.lean ====
section
/-!
DEFINITION. The operand resolver and effective addresses (spec/40_dispatch.md rules R96 to R98).
-/

namespace Sys2Proof.Machine

/-- The offset "`BP - (0xFFFF - displacement + 1)`", mod 65536 (R97). -/
def bpOffset (bp disp : Word) : Word := bp - (0xFFFF#16 - disp + 1#16)

/-- `EA(m)`: the segment register is read first, then BP if the form is BP-based (R97). -/
def effectiveAddress (m : MemOperand) (s : State) : Except Fault (Word × Word) := do
  let seg ← readReg (.seg m.seg) s
  match m.base with
  | .absent => .ok (seg, m.disp)
  | .bp => do
    let bp ← readReg (.gpr .bp) s
    .ok (seg, bpOffset bp m.disp)

/-- The operand is read through the host: its segment register is ES and holds a host-owned segment
(R48, R96). -/
def hostPath (m : MemOperand) (segment : Word) : Bool :=
  m.seg == .es && decide (Config.hostSegThreshold < segment)

/-- The value of a memory operand, for the decoded instruction `d` (R96). -/
def memOperand (d : Decoded) (m : MemOperand) (s : State) : Except Fault (Word × State) := do
  let (seg, off) ← effectiveAddress m s
  if hostPath m seg then
    match m.size with
    | .word => hostRead seg off s
    | .byte => .error (.unsupportedInstruction d)
  else
    match m.size with
    | .word => do let v ← memRead16 seg off s; .ok (v, s)
    | .byte => do let b ← memRead8 seg off s; .ok (zext16 b, s)

/-- `Operand(op)`, for the decoded instruction `d`, with the state after it: only a host read leaves a
mark, in the callbacks' answers and record (R96). A branch operand has no value. -/
def operand (d : Decoded) (op : Operand) (s : State) : Except Fault (Word × State) :=
  match op with
  | .reg r => do let v ← readReg r s; .ok (v, s)
  | .imm8 v => .ok (zext16 v, s)
  | .imm16 v => .ok (v, s)
  | .imm8to16 v => .ok (sext16 v, s)
  | .mem m => memOperand d m s
  | .nearBranch _ => .error (.unsupportedInstruction d)
  | .farBranch _ _ => .error (.unsupportedInstruction d)

/-- `MemWrite(EA(m), 2, v)`: always the Segment Store (R98). -/
def storeWord (m : MemOperand) (v : Word) (s : State) : Except Fault State := do
  let (seg, off) ← effectiveAddress m s
  memWrite16 seg off v s

/-- `MemWrite(EA(m), 1, b)`: always the Segment Store (R98). -/
def storeByte (m : MemOperand) (b : Byte) (s : State) : Except Fault State := do
  let (seg, off) ← effectiveAddress m s
  memWrite8 seg off b s

end Sys2Proof.Machine
end

