-- ==== Sys2Proof/Machine/Alu.lean ====
section
/-!
DEFINITION. ADD, CMP, INC, XOR, OR and SHL (spec/41_alu.md rules R105 to R110). One shared meaning per
mnemonic over its decoded operands, and one definition per row of the opcode table.
-/

namespace Sys2Proof.Machine

/-- ADD g, src (R105). -/
def addMeaning (i : Instr) (g : Gpr) (src : Operand) (s : State) : Host.Outcome State Fault Refusal :=
  finish (do
    let a ← readReg (.gpr g) s
    let (b, s) ← operand (.instr i) src s
    let r := a + b
    .ok (advance i.length (addFlags a b r (writeReg (.gpr g) r s))))

/-- CMP dst, src: nothing is stored (R106). -/
def cmpMeaning (i : Instr) (dst src : Operand) (s : State) : Host.Outcome State Fault Refusal :=
  finish (do
    let (a, s) ← operand (.instr i) dst s
    let (b, s) ← operand (.instr i) src s
    .ok (advance i.length (cmpFlags a b s)))

/-- INC g (R107). -/
def incMeaning (i : Instr) (g : Gpr) (s : State) : Host.Outcome State Fault Refusal :=
  finish (do
    let a ← readReg (.gpr g) s
    let r := a + 1#16
    .ok (advance i.length (incFlags r (writeReg (.gpr g) r s))))

/-- XOR g, src (R108). -/
def xorMeaning (i : Instr) (g : Gpr) (src : Operand) (s : State) : Host.Outcome State Fault Refusal :=
  finish (do
    let a ← readReg (.gpr g) s
    let (b, s) ← operand (.instr i) src s
    let r := a ^^^ b
    .ok (advance i.length (logicFlags (r == 0#16) false (writeReg (.gpr g) r s))))

/-- OR g, src (R109). -/
def orMeaning (i : Instr) (g : Gpr) (src : Operand) (s : State) : Host.Outcome State Fault Refusal :=
  finish (do
    let a ← readReg (.gpr g) s
    let (b, s) ← operand (.instr i) src s
    let r := a ||| b
    .ok (advance i.length (logicFlags (r == 0#16) false (writeReg (.gpr g) r s))))

/-- SHL g: always by one position, whatever the immediate (R110, D25). -/
def shlMeaning (i : Instr) (g : Gpr) (s : State) : Host.Outcome State Fault Refusal :=
  finish (do
    let a ← readReg (.gpr g) s
    let r := a <<< 1
    .ok (advance i.length (logicFlags (r == 0#16) a.msb (writeReg (.gpr g) r s))))

/-! ### ADD -/

/-- ADD r16(m),r16(g) (R105). -/
def execAddRmR (g : Gpr) (m : Gpr) (st : State) : Host.Outcome State Fault Refusal :=
  addMeaning (.addRmR g m) m (.reg (.gpr g)) st

/-- ADD r16(g),r16(m) (R105). -/
def execAddRRm (g : Gpr) (m : Gpr) (st : State) : Host.Outcome State Fault Refusal :=
  addMeaning (.addRRm g m) g (.reg (.gpr m)) st

/-- ADD AX,imm16 (R105). -/
def execAddAxI16 (i : Word) (st : State) : Host.Outcome State Fault Refusal :=
  addMeaning (.addAxI16 i) .ax (.imm16 i) st

/-- ADD r16(m),imm16 (R105). -/
def execAddRmI16 (m : Gpr) (i : Word) (st : State) : Host.Outcome State Fault Refusal :=
  addMeaning (.addRmI16 m i) m (.imm16 i) st

/-- ADD r16(m),sext imm8 (R105). -/
def execAddRmI8 (m : Gpr) (i : Byte) (st : State) : Host.Outcome State Fault Refusal :=
  addMeaning (.addRmI8 m i) m (.imm8to16 i) st

/-! ### CMP -/

/-- CMP r16(m),r16(g) (R106). -/
def execCmpRmR (g : Gpr) (m : Gpr) (st : State) : Host.Outcome State Fault Refusal :=
  cmpMeaning (.cmpRmR g m) (.reg (.gpr m)) (.reg (.gpr g)) st

/-- CMP [disp16],r16(g) ([disp16], default DS) (R106). -/
def execCmpD16R (ov : Option Sreg) (g : Gpr) (d : Word) (st : State) : Host.Outcome State Fault Refusal :=
  cmpMeaning (.cmpD16R ov g d) (.mem (memD16 .word ov d)) (.reg (.gpr g)) st

/-- CMP [BP+disp8],r16(g) ([BP+disp8], default SS) (R106). -/
def execCmpB8R (ov : Option Sreg) (g : Gpr) (d : Byte) (st : State) : Host.Outcome State Fault Refusal :=
  cmpMeaning (.cmpB8R ov g d) (.mem (memB8 .word ov d)) (.reg (.gpr g)) st

/-- CMP [BP+disp16],r16(g) ([BP+disp16], default SS) (R106). -/
def execCmpB16R (ov : Option Sreg) (g : Gpr) (d : Word) (st : State) : Host.Outcome State Fault Refusal :=
  cmpMeaning (.cmpB16R ov g d) (.mem (memB16 .word ov d)) (.reg (.gpr g)) st

/-- CMP r16(g),r16(m) (R106). -/
def execCmpRRm (g : Gpr) (m : Gpr) (st : State) : Host.Outcome State Fault Refusal :=
  cmpMeaning (.cmpRRm g m) (.reg (.gpr g)) (.reg (.gpr m)) st

/-- CMP r16(g),[disp16] ([disp16], default DS) (R106). -/
def execCmpRD16 (ov : Option Sreg) (g : Gpr) (d : Word) (st : State) : Host.Outcome State Fault Refusal :=
  cmpMeaning (.cmpRD16 ov g d) (.reg (.gpr g)) (.mem (memD16 .word ov d)) st

/-- CMP r16(g),[BP+disp8] ([BP+disp8], default SS) (R106). -/
def execCmpRB8 (ov : Option Sreg) (g : Gpr) (d : Byte) (st : State) : Host.Outcome State Fault Refusal :=
  cmpMeaning (.cmpRB8 ov g d) (.reg (.gpr g)) (.mem (memB8 .word ov d)) st

/-- CMP r16(g),[BP+disp16] ([BP+disp16], default SS) (R106). -/
def execCmpRB16 (ov : Option Sreg) (g : Gpr) (d : Word) (st : State) : Host.Outcome State Fault Refusal :=
  cmpMeaning (.cmpRB16 ov g d) (.reg (.gpr g)) (.mem (memB16 .word ov d)) st

/-- CMP AX,imm16 (R106). -/
def execCmpAxI16 (i : Word) (st : State) : Host.Outcome State Fault Refusal :=
  cmpMeaning (.cmpAxI16 i) (.reg (.gpr .ax)) (.imm16 i) st

/-- CMP r16(m),imm16 (R106). -/
def execCmpRmI16 (m : Gpr) (i : Word) (st : State) : Host.Outcome State Fault Refusal :=
  cmpMeaning (.cmpRmI16 m i) (.reg (.gpr m)) (.imm16 i) st

/-- CMP [disp16],imm ([disp16], default DS) (R106). -/
def execCmpD16I16 (ov : Option Sreg) (d : Word) (i : Word) (st : State) : Host.Outcome State Fault Refusal :=
  cmpMeaning (.cmpD16I16 ov d i) (.mem (memD16 .word ov d)) (.imm16 i) st

/-- CMP [BP+disp8],imm ([BP+disp8], default SS) (R106). -/
def execCmpB8I16 (ov : Option Sreg) (d : Byte) (i : Word) (st : State) : Host.Outcome State Fault Refusal :=
  cmpMeaning (.cmpB8I16 ov d i) (.mem (memB8 .word ov d)) (.imm16 i) st

/-- CMP [BP+disp16],imm ([BP+disp16], default SS) (R106). -/
def execCmpB16I16 (ov : Option Sreg) (d : Word) (i : Word) (st : State) : Host.Outcome State Fault Refusal :=
  cmpMeaning (.cmpB16I16 ov d i) (.mem (memB16 .word ov d)) (.imm16 i) st

/-- CMP r16(m),sext imm8 (R106). -/
def execCmpRmI8 (m : Gpr) (i : Byte) (st : State) : Host.Outcome State Fault Refusal :=
  cmpMeaning (.cmpRmI8 m i) (.reg (.gpr m)) (.imm8to16 i) st

/-- CMP [disp16],sext imm ([disp16], default DS) (R106). -/
def execCmpD16I8 (ov : Option Sreg) (d : Word) (i : Byte) (st : State) : Host.Outcome State Fault Refusal :=
  cmpMeaning (.cmpD16I8 ov d i) (.mem (memD16 .word ov d)) (.imm8to16 i) st

/-- CMP [BP+disp8],sext imm ([BP+disp8], default SS) (R106). -/
def execCmpB8I8 (ov : Option Sreg) (d : Byte) (i : Byte) (st : State) : Host.Outcome State Fault Refusal :=
  cmpMeaning (.cmpB8I8 ov d i) (.mem (memB8 .word ov d)) (.imm8to16 i) st

/-- CMP [BP+disp16],sext imm ([BP+disp16], default SS) (R106). -/
def execCmpB16I8 (ov : Option Sreg) (d : Word) (i : Byte) (st : State) : Host.Outcome State Fault Refusal :=
  cmpMeaning (.cmpB16I8 ov d i) (.mem (memB16 .word ov d)) (.imm8to16 i) st

/-- CMP byte [disp16],imm ([disp16], default DS) (R106). -/
def execCmpByteD16I8 (ov : Option Sreg) (d : Word) (i : Byte) (st : State) : Host.Outcome State Fault Refusal :=
  cmpMeaning (.cmpByteD16I8 ov d i) (.mem (memD16 .byte ov d)) (.imm8 i) st

/-- CMP byte [BP+disp8],imm ([BP+disp8], default SS) (R106). -/
def execCmpByteB8I8 (ov : Option Sreg) (d : Byte) (i : Byte) (st : State) : Host.Outcome State Fault Refusal :=
  cmpMeaning (.cmpByteB8I8 ov d i) (.mem (memB8 .byte ov d)) (.imm8 i) st

/-- CMP byte [BP+disp16],imm ([BP+disp16], default SS) (R106). -/
def execCmpByteB16I8 (ov : Option Sreg) (d : Word) (i : Byte) (st : State) : Host.Outcome State Fault Refusal :=
  cmpMeaning (.cmpByteB16I8 ov d i) (.mem (memB16 .byte ov d)) (.imm8 i) st

/-! ### INC -/

/-- INC r16 (R107). -/
def execIncR (r : Gpr) (st : State) : Host.Outcome State Fault Refusal :=
  incMeaning (.incR r) r st

/-- INC r16(m) (R107). -/
def execIncRm (m : Gpr) (st : State) : Host.Outcome State Fault Refusal :=
  incMeaning (.incRm m) m st

/-! ### XOR -/

/-- XOR r16(m),r16(g) (R108). -/
def execXorRmR (g : Gpr) (m : Gpr) (st : State) : Host.Outcome State Fault Refusal :=
  xorMeaning (.xorRmR g m) m (.reg (.gpr g)) st

/-- XOR r16(g),r16(m) (R108). -/
def execXorRRm (g : Gpr) (m : Gpr) (st : State) : Host.Outcome State Fault Refusal :=
  xorMeaning (.xorRRm g m) g (.reg (.gpr m)) st

/-- XOR r16(g),[disp16] ([disp16], default DS) (R108). -/
def execXorRD16 (ov : Option Sreg) (g : Gpr) (d : Word) (st : State) : Host.Outcome State Fault Refusal :=
  xorMeaning (.xorRD16 ov g d) g (.mem (memD16 .word ov d)) st

/-- XOR r16(g),[BP+disp8] ([BP+disp8], default SS) (R108). -/
def execXorRB8 (ov : Option Sreg) (g : Gpr) (d : Byte) (st : State) : Host.Outcome State Fault Refusal :=
  xorMeaning (.xorRB8 ov g d) g (.mem (memB8 .word ov d)) st

/-- XOR r16(g),[BP+disp16] ([BP+disp16], default SS) (R108). -/
def execXorRB16 (ov : Option Sreg) (g : Gpr) (d : Word) (st : State) : Host.Outcome State Fault Refusal :=
  xorMeaning (.xorRB16 ov g d) g (.mem (memB16 .word ov d)) st

/-- XOR AX,imm16 (R108). -/
def execXorAxI16 (i : Word) (st : State) : Host.Outcome State Fault Refusal :=
  xorMeaning (.xorAxI16 i) .ax (.imm16 i) st

/-- XOR r16(m),imm16 (R108). -/
def execXorRmI16 (m : Gpr) (i : Word) (st : State) : Host.Outcome State Fault Refusal :=
  xorMeaning (.xorRmI16 m i) m (.imm16 i) st

/-- XOR r16(m),sext imm8 (R108). -/
def execXorRmI8 (m : Gpr) (i : Byte) (st : State) : Host.Outcome State Fault Refusal :=
  xorMeaning (.xorRmI8 m i) m (.imm8to16 i) st

/-! ### OR -/

/-- OR r16(m),r16(g) (R109). -/
def execOrRmR (g : Gpr) (m : Gpr) (st : State) : Host.Outcome State Fault Refusal :=
  orMeaning (.orRmR g m) m (.reg (.gpr g)) st

/-- OR r16(g),r16(m) (R109). -/
def execOrRRm (g : Gpr) (m : Gpr) (st : State) : Host.Outcome State Fault Refusal :=
  orMeaning (.orRRm g m) g (.reg (.gpr m)) st

/-- OR r16(g),[disp16] ([disp16], default DS) (R109). -/
def execOrRD16 (ov : Option Sreg) (g : Gpr) (d : Word) (st : State) : Host.Outcome State Fault Refusal :=
  orMeaning (.orRD16 ov g d) g (.mem (memD16 .word ov d)) st

/-- OR r16(g),[BP+disp8] ([BP+disp8], default SS) (R109). -/
def execOrRB8 (ov : Option Sreg) (g : Gpr) (d : Byte) (st : State) : Host.Outcome State Fault Refusal :=
  orMeaning (.orRB8 ov g d) g (.mem (memB8 .word ov d)) st

/-- OR r16(g),[BP+disp16] ([BP+disp16], default SS) (R109). -/
def execOrRB16 (ov : Option Sreg) (g : Gpr) (d : Word) (st : State) : Host.Outcome State Fault Refusal :=
  orMeaning (.orRB16 ov g d) g (.mem (memB16 .word ov d)) st

/-- OR AX,imm16 (R109). -/
def execOrAxI16 (i : Word) (st : State) : Host.Outcome State Fault Refusal :=
  orMeaning (.orAxI16 i) .ax (.imm16 i) st

/-- OR r16(m),imm16 (R109). -/
def execOrRmI16 (m : Gpr) (i : Word) (st : State) : Host.Outcome State Fault Refusal :=
  orMeaning (.orRmI16 m i) m (.imm16 i) st

/-- OR r16(m),sext imm8 (R109). -/
def execOrRmI8 (m : Gpr) (i : Byte) (st : State) : Host.Outcome State Fault Refusal :=
  orMeaning (.orRmI8 m i) m (.imm8to16 i) st

/-! ### SHL -/

/-- SHL r16(m),1 (R110). -/
def execShlRm1 (m : Gpr) (st : State) : Host.Outcome State Fault Refusal :=
  shlMeaning (.shlRm1 m) m st

/-- SHL r16(m),imm8 (shifts by 1 whatever imm8) (R110). -/
def execShlRmI8 (m : Gpr) (i : Byte) (st : State) : Host.Outcome State Fault Refusal :=
  shlMeaning (.shlRmI8 m i) m st

end Sys2Proof.Machine
end

