-- ==== Sys2Proof/Machine/Control.lean ====
section
/-!
DEFINITION. The conditional jumps, JMP and CALL (spec/44_control_transfer.md rules R118 to R127). None
writes F. A near target is computed from the instruction's own offset, which IP holds during the step
(R77, R90): it is the target Decode computed at registration.
-/

namespace Sys2Proof.Machine

/-- A conditional jump to IP + length + rel (R118 to R124). -/
def jccMeaning (i : Instr) (c : Cond) (rel : Word) (s : State) : Host.Outcome State Fault Refusal :=
  finish (do
    let taken ← evalCond c s
    if taken then .ok (writeIp (relTarget s.ip i.length rel) s) else .ok (advance i.length s))

/-- JMP (R125). -/
def jmpMeaning (i : Instr) (rel : Word) (s : State) : Host.Outcome State Fault Refusal :=
  finish (.ok (writeIp (relTarget s.ip i.length rel) s))

/-- What both CALL forms do first: push the CALL's own offset, push CS, set BP = SP (R126, R127, D20). -/
def callFrame (s : State) : Except Fault State := do
  let s ← push16 s.ip s
  let cs ← readReg (.seg .cs) s
  let s ← push16 cs s
  let sp ← readReg (.gpr .sp) s
  .ok (writeReg (.gpr .bp) sp s)

/-- CALL near (R126). -/
def callNearMeaning (i : Instr) (rel : Word) (s : State) : Host.Outcome State Fault Refusal :=
  finish (do
    let target := relTarget s.ip i.length rel
    let s ← callFrame s
    .ok (writeIp target s))

/-- CALL far to an unresolved import (R127): the callback runs, its value is ignored, and CS and IP are
popped from the stack as the callback left it. -/
def callFarMeaning (i : Instr) (s : State) : Host.Outcome State Fault Refusal :=
  finish (do
    let ip0 := s.ip
    let s ← callFrame s
    let cs ← readReg (.seg .cs) s
    match relocAt cs (ip0 + Config.relocProbeOffset) s with
    | some (.importRef m f) => do
      let (_, s) ← hostInvoke m f s
      let (cs', s) ← pop16 s
      let (ipr, s) ← pop16 (writeReg (.seg .cs) cs' s)
      .ok (writeIp (ipr + BitVec.ofNat 16 i.length) s)
    | some (.internalRef _) => .error (.unsupportedInstruction (.instr i))
    | none => .error (.unresolvedExternalCall cs ip0))

/-! ### JE -/

/-- JE rel8 (R119). -/
def execJeRel8 (rel : Byte) (st : State) : Host.Outcome State Fault Refusal :=
  jccMeaning (.jeRel8 rel) .e (sext16 rel) st

/-- JE rel16 (R119). -/
def execJeRel16 (rel : Word) (st : State) : Host.Outcome State Fault Refusal :=
  jccMeaning (.jeRel16 rel) .e rel st

/-! ### JNE -/

/-- JNE rel8 (R120). -/
def execJneRel8 (rel : Byte) (st : State) : Host.Outcome State Fault Refusal :=
  jccMeaning (.jneRel8 rel) .ne (sext16 rel) st

/-- JNE rel16 (R120). -/
def execJneRel16 (rel : Word) (st : State) : Host.Outcome State Fault Refusal :=
  jccMeaning (.jneRel16 rel) .ne rel st

/-! ### JL -/

/-- JL rel8 (R121). -/
def execJlRel8 (rel : Byte) (st : State) : Host.Outcome State Fault Refusal :=
  jccMeaning (.jlRel8 rel) .l (sext16 rel) st

/-- JL rel16 (R121). -/
def execJlRel16 (rel : Word) (st : State) : Host.Outcome State Fault Refusal :=
  jccMeaning (.jlRel16 rel) .l rel st

/-! ### JGE -/

/-- JGE rel8 (R122). -/
def execJgeRel8 (rel : Byte) (st : State) : Host.Outcome State Fault Refusal :=
  jccMeaning (.jgeRel8 rel) .ge (sext16 rel) st

/-- JGE rel16 (R122). -/
def execJgeRel16 (rel : Word) (st : State) : Host.Outcome State Fault Refusal :=
  jccMeaning (.jgeRel16 rel) .ge rel st

/-! ### JLE -/

/-- JLE rel8 (R123). -/
def execJleRel8 (rel : Byte) (st : State) : Host.Outcome State Fault Refusal :=
  jccMeaning (.jleRel8 rel) .le (sext16 rel) st

/-- JLE rel16 (R123). -/
def execJleRel16 (rel : Word) (st : State) : Host.Outcome State Fault Refusal :=
  jccMeaning (.jleRel16 rel) .le rel st

/-! ### JBE -/

/-- JBE rel8 (R124). -/
def execJbeRel8 (rel : Byte) (st : State) : Host.Outcome State Fault Refusal :=
  jccMeaning (.jbeRel8 rel) .be (sext16 rel) st

/-- JBE rel16 (R124). -/
def execJbeRel16 (rel : Word) (st : State) : Host.Outcome State Fault Refusal :=
  jccMeaning (.jbeRel16 rel) .be rel st

/-! ### JMP -/

/-- JMP rel8 (R125). -/
def execJmpRel8 (rel : Byte) (st : State) : Host.Outcome State Fault Refusal :=
  jmpMeaning (.jmpRel8 rel) (sext16 rel) st

/-- JMP rel16 (R125). -/
def execJmpRel16 (rel : Word) (st : State) : Host.Outcome State Fault Refusal :=
  jmpMeaning (.jmpRel16 rel) rel st

/-! ### CALL -/

/-- CALL rel16 (near) (R126). -/
def execCallRel16 (rel : Word) (st : State) : Host.Outcome State Fault Refusal :=
  callNearMeaning (.callRel16 rel) rel st

/-- CALL far sel:0xFFFF (unresolved import) (R127). -/
def execCallFar (sel : Word) (st : State) : Host.Outcome State Fault Refusal :=
  callFarMeaning (.callFar sel) st

end Sys2Proof.Machine
end

