-- ==== Sys2Proof/Machine/Frame.lean ====
section
/-!
DEFINITION. ENTER, LEAVE and STOSW (spec/43_frame_string.md rules R115 to R117). None writes F.
-/

namespace Sys2Proof.Machine

/-- ENTER n, 0 (R115). -/
def enterMeaning (i : Instr) (n : Word) (s : State) : Host.Outcome State Fault Refusal :=
  finish (do
    let bp ← readReg (.gpr .bp) s
    let s ← push16 bp s
    let sp ← readReg (.gpr .sp) s
    .ok (advance i.length (writeReg (.gpr .sp) (sp - n) (writeReg (.gpr .bp) sp s))))

/-- LEAVE: SP = BP, then BP, CS and IP are popped; IP is not advanced (R116). -/
def leaveMeaning (s : State) : Host.Outcome State Fault Refusal :=
  finish (do
    let bp ← readReg (.gpr .bp) s
    let (bp', s) ← pop16 (writeReg (.gpr .sp) bp s)
    let (cs', s) ← pop16 (writeReg (.gpr .bp) bp' s)
    let (ip', s) ← pop16 (writeReg (.seg .cs) cs' s)
    .ok (writeIp ip' s))

/-- The loop of STOSW, followed for `fuel` iterations: while CX is nonzero, AX goes to (ES, DI) in the
Segment Store, DI rises by 2 and CX falls by 2 (R117). -/
def stoswLoop : Nat → State → Except Fault State
  | 0, _ => .error .diverges
  | fuel + 1, s => do
    let cx ← readReg (.gpr .cx) s
    if cx = 0#16 then .ok s
    else do
      let es ← readReg (.seg .es) s
      let di ← readReg (.gpr .di) s
      let ax ← readReg (.gpr .ax) s
      let s ← memWrite16 es di ax s
      stoswLoop fuel (writeReg (.gpr .cx) (cx - Config.stoswCxStep) (writeReg (.gpr .di) (di + 2#16) s))

/-- STOSW, with or without a repeat byte, which has no effect (R117, D26). -/
def stoswMeaning (i : Instr) (s : State) : Host.Outcome State Fault Refusal :=
  finish (do
    let s ← stoswLoop Config.stoswFuel s
    .ok (advance i.length s))

/-! ### ENTER -/

/-- ENTER imm16,0 (R115). -/
def execEnterI16 (i : Word) (st : State) : Host.Outcome State Fault Refusal :=
  enterMeaning (.enterI16 i) i st

/-! ### LEAVE -/

/-- LEAVE (R116). -/
def execLeave (st : State) : Host.Outcome State Fault Refusal :=
  leaveMeaning st

/-! ### STOSW -/

/-- STOSW (R117). -/
def execStosw (st : State) : Host.Outcome State Fault Refusal :=
  stoswMeaning .stosw st

/-- REP STOSW (prefix has no effect) (R117). -/
def execRepStosw (st : State) : Host.Outcome State Fault Refusal :=
  stoswMeaning .repStosw st

/-- REPNE STOSW (prefix has no effect) (R117). -/
def execRepneStosw (st : State) : Host.Outcome State Fault Refusal :=
  stoswMeaning .repneStosw st

end Sys2Proof.Machine
end

