-- ==== Sys2Proof/Machine/Move.lean ====
section
/-!
DEFINITION. PUSH, POP, MOV and LEA (spec/42_data_movement.md rules R111 to R114). None writes F.
-/

namespace Sys2Proof.Machine

/-- PUSH src: the operand is read before SP moves (R111). -/
def pushMeaning (i : Instr) (src : Operand) (s : State) : Host.Outcome State Fault Refusal :=
  finish (do
    let (v, s) ← operand (.instr i) src s
    let s ← push16 v s
    .ok (advance i.length s))

/-- POP r: the register is written after SP has risen (R112). -/
def popMeaning (i : Instr) (r : Reg) (s : State) : Host.Outcome State Fault Refusal :=
  finish (do
    let (v, s) ← pop16 s
    .ok (advance i.length (writeReg r v s)))

/-- MOV g, imm16, with relocation substitution (R113, R99). -/
def movRegImm (i : Instr) (g : Gpr) (v : Word) (s : State) : Host.Outcome State Fault Refusal :=
  finish (do
    let ip := s.ip
    let (w, s) ← relocSubst v s
    .ok (writeIp (ip + BitVec.ofNat 16 i.length) (writeReg (.gpr g) w s)))

/-- MOV between registers (R113). -/
def movRegReg (i : Instr) (dst src : Reg) (s : State) : Host.Outcome State Fault Refusal :=
  finish (do
    let v ← readReg src s
    .ok (advance i.length (writeReg dst v s)))

/-- MOV register, memory (R113). -/
def movRegMem (i : Instr) (dst : Reg) (m : MemOperand) (s : State) : Host.Outcome State Fault Refusal :=
  finish (do
    let (v, s) ← operand (.instr i) (.mem m) s
    .ok (advance i.length (writeReg dst v s)))

/-- MOV word memory, imm16: the relocation callback runs before the address is computed (R113, D24). -/
def movMemImm (i : Instr) (m : MemOperand) (v : Word) (s : State) : Host.Outcome State Fault Refusal :=
  finish (do
    let ip := s.ip
    let (w, s) ← relocSubst v s
    let s ← storeWord m w s
    .ok (writeIp (ip + BitVec.ofNat 16 i.length) s))

/-- MOV byte memory, imm8: never relocated (R113). -/
def movMemImm8 (i : Instr) (m : MemOperand) (v : Byte) (s : State) : Host.Outcome State Fault Refusal :=
  finish (do
    let s ← storeByte m v s
    .ok (advance i.length s))

/-- MOV word memory, register: the register is read before the address is computed (R113). -/
def movMemReg (i : Instr) (m : MemOperand) (src : Reg) (s : State) : Host.Outcome State Fault Refusal :=
  finish (do
    let v ← readReg src s
    let s ← storeWord m v s
    .ok (advance i.length s))

/-- LEA g, m: the offset alone; the segment and any override are ignored and memory is not accessed
(R114). -/
def leaMeaning (i : Instr) (g : Gpr) (m : MemOperand) (s : State) : Host.Outcome State Fault Refusal :=
  finish (do
    let bp ← readReg (.gpr .bp) s
    .ok (advance i.length (writeReg (.gpr g) (bpOffset bp m.disp) s)))

/-! ### PUSH -/

/-- PUSH r16 (R111). -/
def execPushR (r : Gpr) (st : State) : Host.Outcome State Fault Refusal :=
  pushMeaning (.pushR r) (.reg (.gpr r)) st

/-- PUSH r16(m) (R111). -/
def execPushRm (m : Gpr) (st : State) : Host.Outcome State Fault Refusal :=
  pushMeaning (.pushRm m) (.reg (.gpr m)) st

/-- PUSH [disp16] ([disp16], default DS) (R111). -/
def execPushD16 (ov : Option Sreg) (d : Word) (st : State) : Host.Outcome State Fault Refusal :=
  pushMeaning (.pushD16 ov d) (.mem (memD16 .word ov d)) st

/-- PUSH [BP+disp8] ([BP+disp8], default SS) (R111). -/
def execPushB8 (ov : Option Sreg) (d : Byte) (st : State) : Host.Outcome State Fault Refusal :=
  pushMeaning (.pushB8 ov d) (.mem (memB8 .word ov d)) st

/-- PUSH [BP+disp16] ([BP+disp16], default SS) (R111). -/
def execPushB16 (ov : Option Sreg) (d : Word) (st : State) : Host.Outcome State Fault Refusal :=
  pushMeaning (.pushB16 ov d) (.mem (memB16 .word ov d)) st

/-- PUSH ES (R111). -/
def execPushEs (st : State) : Host.Outcome State Fault Refusal :=
  pushMeaning .pushEs (.reg (.seg .es)) st

/-- PUSH CS (R111). -/
def execPushCs (st : State) : Host.Outcome State Fault Refusal :=
  pushMeaning .pushCs (.reg (.seg .cs)) st

/-- PUSH SS (R111). -/
def execPushSs (st : State) : Host.Outcome State Fault Refusal :=
  pushMeaning .pushSs (.reg (.seg .ss)) st

/-- PUSH DS (R111). -/
def execPushDs (st : State) : Host.Outcome State Fault Refusal :=
  pushMeaning .pushDs (.reg (.seg .ds)) st

/-- PUSH imm16 (R111). -/
def execPushI16 (i : Word) (st : State) : Host.Outcome State Fault Refusal :=
  pushMeaning (.pushI16 i) (.imm16 i) st

/-- PUSH sext imm8 (R111). -/
def execPushI8 (i : Byte) (st : State) : Host.Outcome State Fault Refusal :=
  pushMeaning (.pushI8 i) (.imm8to16 i) st

/-! ### POP -/

/-- POP r16 (R112). -/
def execPopR (r : Gpr) (st : State) : Host.Outcome State Fault Refusal :=
  popMeaning (.popR r) (.gpr r) st

/-- POP r16(m) (R112). -/
def execPopRm (m : Gpr) (st : State) : Host.Outcome State Fault Refusal :=
  popMeaning (.popRm m) (.gpr m) st

/-- POP ES (R112). -/
def execPopEs (st : State) : Host.Outcome State Fault Refusal :=
  popMeaning .popEs (.seg .es) st

/-- POP SS (R112). -/
def execPopSs (st : State) : Host.Outcome State Fault Refusal :=
  popMeaning .popSs (.seg .ss) st

/-- POP DS (R112). -/
def execPopDs (st : State) : Host.Outcome State Fault Refusal :=
  popMeaning .popDs (.seg .ds) st

/-! ### MOV -/

/-- MOV r16,imm16 (relocation substitution when imm16 = 0xFFFF) (R113). -/
def execMovRI16 (r : Gpr) (i : Word) (st : State) : Host.Outcome State Fault Refusal :=
  movRegImm (.movRI16 r i) r i st

/-- MOV r16(m),imm16 (relocation substitution when imm16 = 0xFFFF) (R113). -/
def execMovRmI16 (m : Gpr) (i : Word) (st : State) : Host.Outcome State Fault Refusal :=
  movRegImm (.movRmI16 m i) m i st

/-- MOV [disp16],imm (relocation substitution when imm = 0xFFFF) ([disp16], default DS) (R113). -/
def execMovD16I16 (ov : Option Sreg) (d : Word) (i : Word) (st : State) : Host.Outcome State Fault Refusal :=
  movMemImm (.movD16I16 ov d i) (memD16 .word ov d) i st

/-- MOV [BP+disp8],imm (relocation substitution when imm = 0xFFFF) ([BP+disp8], default SS) (R113). -/
def execMovB8I16 (ov : Option Sreg) (d : Byte) (i : Word) (st : State) : Host.Outcome State Fault Refusal :=
  movMemImm (.movB8I16 ov d i) (memB8 .word ov d) i st

/-- MOV [BP+disp16],imm (relocation substitution when imm = 0xFFFF) ([BP+disp16], default SS) (R113). -/
def execMovB16I16 (ov : Option Sreg) (d : Word) (i : Word) (st : State) : Host.Outcome State Fault Refusal :=
  movMemImm (.movB16I16 ov d i) (memB16 .word ov d) i st

/-- MOV byte [disp16],imm ([disp16], default DS) (R113). -/
def execMovByteD16I8 (ov : Option Sreg) (d : Word) (i : Byte) (st : State) : Host.Outcome State Fault Refusal :=
  movMemImm8 (.movByteD16I8 ov d i) (memD16 .byte ov d) i st

/-- MOV byte [BP+disp8],imm ([BP+disp8], default SS) (R113). -/
def execMovByteB8I8 (ov : Option Sreg) (d : Byte) (i : Byte) (st : State) : Host.Outcome State Fault Refusal :=
  movMemImm8 (.movByteB8I8 ov d i) (memB8 .byte ov d) i st

/-- MOV byte [BP+disp16],imm ([BP+disp16], default SS) (R113). -/
def execMovByteB16I8 (ov : Option Sreg) (d : Word) (i : Byte) (st : State) : Host.Outcome State Fault Refusal :=
  movMemImm8 (.movByteB16I8 ov d i) (memB16 .byte ov d) i st

/-- MOV r16(m),r16(g) (R113). -/
def execMovRmR (g : Gpr) (m : Gpr) (st : State) : Host.Outcome State Fault Refusal :=
  movRegReg (.movRmR g m) (.gpr m) (.gpr g) st

/-- MOV [disp16],r16(g) ([disp16], default DS) (R113). -/
def execMovD16R (ov : Option Sreg) (g : Gpr) (d : Word) (st : State) : Host.Outcome State Fault Refusal :=
  movMemReg (.movD16R ov g d) (memD16 .word ov d) (.gpr g) st

/-- MOV [BP+disp8],r16(g) ([BP+disp8], default SS) (R113). -/
def execMovB8R (ov : Option Sreg) (g : Gpr) (d : Byte) (st : State) : Host.Outcome State Fault Refusal :=
  movMemReg (.movB8R ov g d) (memB8 .word ov d) (.gpr g) st

/-- MOV [BP+disp16],r16(g) ([BP+disp16], default SS) (R113). -/
def execMovB16R (ov : Option Sreg) (g : Gpr) (d : Word) (st : State) : Host.Outcome State Fault Refusal :=
  movMemReg (.movB16R ov g d) (memB16 .word ov d) (.gpr g) st

/-- MOV r16(g),r16(m) (R113). -/
def execMovRRm (g : Gpr) (m : Gpr) (st : State) : Host.Outcome State Fault Refusal :=
  movRegReg (.movRRm g m) (.gpr g) (.gpr m) st

/-- MOV r16(g),[disp16] ([disp16], default DS) (R113). -/
def execMovRD16 (ov : Option Sreg) (g : Gpr) (d : Word) (st : State) : Host.Outcome State Fault Refusal :=
  movRegMem (.movRD16 ov g d) (.gpr g) (memD16 .word ov d) st

/-- MOV r16(g),[BP+disp8] ([BP+disp8], default SS) (R113). -/
def execMovRB8 (ov : Option Sreg) (g : Gpr) (d : Byte) (st : State) : Host.Outcome State Fault Refusal :=
  movRegMem (.movRB8 ov g d) (.gpr g) (memB8 .word ov d) st

/-- MOV r16(g),[BP+disp16] ([BP+disp16], default SS) (R113). -/
def execMovRB16 (ov : Option Sreg) (g : Gpr) (d : Word) (st : State) : Host.Outcome State Fault Refusal :=
  movRegMem (.movRB16 ov g d) (.gpr g) (memB16 .word ov d) st

/-- MOV r16(m),Sreg(s) (R113). -/
def execMovRmS (s : Sreg) (m : Gpr) (st : State) : Host.Outcome State Fault Refusal :=
  movRegReg (.movRmS s m) (.gpr m) (.seg s) st

/-- MOV [disp16],Sreg(s) ([disp16], default DS) (R113). -/
def execMovD16S (ov : Option Sreg) (s : Sreg) (d : Word) (st : State) : Host.Outcome State Fault Refusal :=
  movMemReg (.movD16S ov s d) (memD16 .word ov d) (.seg s) st

/-- MOV [BP+disp8],Sreg(s) ([BP+disp8], default SS) (R113). -/
def execMovB8S (ov : Option Sreg) (s : Sreg) (d : Byte) (st : State) : Host.Outcome State Fault Refusal :=
  movMemReg (.movB8S ov s d) (memB8 .word ov d) (.seg s) st

/-- MOV [BP+disp16],Sreg(s) ([BP+disp16], default SS) (R113). -/
def execMovB16S (ov : Option Sreg) (s : Sreg) (d : Word) (st : State) : Host.Outcome State Fault Refusal :=
  movMemReg (.movB16S ov s d) (memB16 .word ov d) (.seg s) st

/-- MOV Sreg(s),r16(m); s != 01 (R113). -/
def execMovSRm (s : Sreg) (m : Gpr) (st : State) : Host.Outcome State Fault Refusal :=
  movRegReg (.movSRm s m) (.seg s) (.gpr m) st

/-- MOV Sreg(s),[disp16] ([disp16], default DS); s != 01 (R113). -/
def execMovSD16 (ov : Option Sreg) (s : Sreg) (d : Word) (st : State) : Host.Outcome State Fault Refusal :=
  movRegMem (.movSD16 ov s d) (.seg s) (memD16 .word ov d) st

/-- MOV Sreg(s),[BP+disp8] ([BP+disp8], default SS); s != 01 (R113). -/
def execMovSB8 (ov : Option Sreg) (s : Sreg) (d : Byte) (st : State) : Host.Outcome State Fault Refusal :=
  movRegMem (.movSB8 ov s d) (.seg s) (memB8 .word ov d) st

/-- MOV Sreg(s),[BP+disp16] ([BP+disp16], default SS); s != 01 (R113). -/
def execMovSB16 (ov : Option Sreg) (s : Sreg) (d : Word) (st : State) : Host.Outcome State Fault Refusal :=
  movRegMem (.movSB16 ov s d) (.seg s) (memB16 .word ov d) st

/-- MOV AX,[moffs16] (default DS) (R113). -/
def execMovAxMoffs (ov : Option Sreg) (d : Word) (st : State) : Host.Outcome State Fault Refusal :=
  movRegMem (.movAxMoffs ov d) (.gpr .ax) (memD16 .word ov d) st

/-- MOV [moffs16],AX (default DS) (R113). -/
def execMovMoffsAx (ov : Option Sreg) (d : Word) (st : State) : Host.Outcome State Fault Refusal :=
  movMemReg (.movMoffsAx ov d) (memD16 .word ov d) (.gpr .ax) st

/-! ### LEA -/

/-- LEA r16(g),[BP+disp8] (R114). -/
def execLeaRB8 (ov : Option Sreg) (g : Gpr) (d : Byte) (st : State) : Host.Outcome State Fault Refusal :=
  leaMeaning (.leaRB8 ov g d) g (memB8 .word ov d) st

/-- LEA r16(g),[BP+disp16] (R114). -/
def execLeaRB16 (ov : Option Sreg) (g : Gpr) (d : Word) (st : State) : Host.Outcome State Fault Refusal :=
  leaMeaning (.leaRB16 ov g d) g (memB16 .word ov d) st

end Sys2Proof.Machine
end

