-- ==== Sys2Proof/Machine/Dispatch.lean ====
section
/-!
DEFINITION. The meaning of each instruction, one arm per row of the opcode table.
-/

namespace Sys2Proof.Machine

def exec (instr : Instr) (st : State) : Host.Outcome State Fault Refusal :=
  match instr with
  | .addRmR g m => Sys2Proof.Machine.execAddRmR g m st
  | .addRRm g m => Sys2Proof.Machine.execAddRRm g m st
  | .addAxI16 i => Sys2Proof.Machine.execAddAxI16 i st
  | .addRmI16 m i => Sys2Proof.Machine.execAddRmI16 m i st
  | .addRmI8 m i => Sys2Proof.Machine.execAddRmI8 m i st
  | .cmpRmR g m => Sys2Proof.Machine.execCmpRmR g m st
  | .cmpD16R ov g d => Sys2Proof.Machine.execCmpD16R ov g d st
  | .cmpB8R ov g d => Sys2Proof.Machine.execCmpB8R ov g d st
  | .cmpB16R ov g d => Sys2Proof.Machine.execCmpB16R ov g d st
  | .cmpRRm g m => Sys2Proof.Machine.execCmpRRm g m st
  | .cmpRD16 ov g d => Sys2Proof.Machine.execCmpRD16 ov g d st
  | .cmpRB8 ov g d => Sys2Proof.Machine.execCmpRB8 ov g d st
  | .cmpRB16 ov g d => Sys2Proof.Machine.execCmpRB16 ov g d st
  | .cmpAxI16 i => Sys2Proof.Machine.execCmpAxI16 i st
  | .cmpRmI16 m i => Sys2Proof.Machine.execCmpRmI16 m i st
  | .cmpD16I16 ov d i => Sys2Proof.Machine.execCmpD16I16 ov d i st
  | .cmpB8I16 ov d i => Sys2Proof.Machine.execCmpB8I16 ov d i st
  | .cmpB16I16 ov d i => Sys2Proof.Machine.execCmpB16I16 ov d i st
  | .cmpRmI8 m i => Sys2Proof.Machine.execCmpRmI8 m i st
  | .cmpD16I8 ov d i => Sys2Proof.Machine.execCmpD16I8 ov d i st
  | .cmpB8I8 ov d i => Sys2Proof.Machine.execCmpB8I8 ov d i st
  | .cmpB16I8 ov d i => Sys2Proof.Machine.execCmpB16I8 ov d i st
  | .cmpByteD16I8 ov d i => Sys2Proof.Machine.execCmpByteD16I8 ov d i st
  | .cmpByteB8I8 ov d i => Sys2Proof.Machine.execCmpByteB8I8 ov d i st
  | .cmpByteB16I8 ov d i => Sys2Proof.Machine.execCmpByteB16I8 ov d i st
  | .incR r => Sys2Proof.Machine.execIncR r st
  | .incRm m => Sys2Proof.Machine.execIncRm m st
  | .xorRmR g m => Sys2Proof.Machine.execXorRmR g m st
  | .xorRRm g m => Sys2Proof.Machine.execXorRRm g m st
  | .xorRD16 ov g d => Sys2Proof.Machine.execXorRD16 ov g d st
  | .xorRB8 ov g d => Sys2Proof.Machine.execXorRB8 ov g d st
  | .xorRB16 ov g d => Sys2Proof.Machine.execXorRB16 ov g d st
  | .xorAxI16 i => Sys2Proof.Machine.execXorAxI16 i st
  | .xorRmI16 m i => Sys2Proof.Machine.execXorRmI16 m i st
  | .xorRmI8 m i => Sys2Proof.Machine.execXorRmI8 m i st
  | .orRmR g m => Sys2Proof.Machine.execOrRmR g m st
  | .orRRm g m => Sys2Proof.Machine.execOrRRm g m st
  | .orRD16 ov g d => Sys2Proof.Machine.execOrRD16 ov g d st
  | .orRB8 ov g d => Sys2Proof.Machine.execOrRB8 ov g d st
  | .orRB16 ov g d => Sys2Proof.Machine.execOrRB16 ov g d st
  | .orAxI16 i => Sys2Proof.Machine.execOrAxI16 i st
  | .orRmI16 m i => Sys2Proof.Machine.execOrRmI16 m i st
  | .orRmI8 m i => Sys2Proof.Machine.execOrRmI8 m i st
  | .shlRm1 m => Sys2Proof.Machine.execShlRm1 m st
  | .shlRmI8 m i => Sys2Proof.Machine.execShlRmI8 m i st
  | .pushR r => Sys2Proof.Machine.execPushR r st
  | .pushRm m => Sys2Proof.Machine.execPushRm m st
  | .pushD16 ov d => Sys2Proof.Machine.execPushD16 ov d st
  | .pushB8 ov d => Sys2Proof.Machine.execPushB8 ov d st
  | .pushB16 ov d => Sys2Proof.Machine.execPushB16 ov d st
  | .pushEs => Sys2Proof.Machine.execPushEs st
  | .pushCs => Sys2Proof.Machine.execPushCs st
  | .pushSs => Sys2Proof.Machine.execPushSs st
  | .pushDs => Sys2Proof.Machine.execPushDs st
  | .pushI16 i => Sys2Proof.Machine.execPushI16 i st
  | .pushI8 i => Sys2Proof.Machine.execPushI8 i st
  | .popR r => Sys2Proof.Machine.execPopR r st
  | .popRm m => Sys2Proof.Machine.execPopRm m st
  | .popEs => Sys2Proof.Machine.execPopEs st
  | .popSs => Sys2Proof.Machine.execPopSs st
  | .popDs => Sys2Proof.Machine.execPopDs st
  | .movRI16 r i => Sys2Proof.Machine.execMovRI16 r i st
  | .movRmI16 m i => Sys2Proof.Machine.execMovRmI16 m i st
  | .movD16I16 ov d i => Sys2Proof.Machine.execMovD16I16 ov d i st
  | .movB8I16 ov d i => Sys2Proof.Machine.execMovB8I16 ov d i st
  | .movB16I16 ov d i => Sys2Proof.Machine.execMovB16I16 ov d i st
  | .movByteD16I8 ov d i => Sys2Proof.Machine.execMovByteD16I8 ov d i st
  | .movByteB8I8 ov d i => Sys2Proof.Machine.execMovByteB8I8 ov d i st
  | .movByteB16I8 ov d i => Sys2Proof.Machine.execMovByteB16I8 ov d i st
  | .movRmR g m => Sys2Proof.Machine.execMovRmR g m st
  | .movD16R ov g d => Sys2Proof.Machine.execMovD16R ov g d st
  | .movB8R ov g d => Sys2Proof.Machine.execMovB8R ov g d st
  | .movB16R ov g d => Sys2Proof.Machine.execMovB16R ov g d st
  | .movRRm g m => Sys2Proof.Machine.execMovRRm g m st
  | .movRD16 ov g d => Sys2Proof.Machine.execMovRD16 ov g d st
  | .movRB8 ov g d => Sys2Proof.Machine.execMovRB8 ov g d st
  | .movRB16 ov g d => Sys2Proof.Machine.execMovRB16 ov g d st
  | .movRmS s m => Sys2Proof.Machine.execMovRmS s m st
  | .movD16S ov s d => Sys2Proof.Machine.execMovD16S ov s d st
  | .movB8S ov s d => Sys2Proof.Machine.execMovB8S ov s d st
  | .movB16S ov s d => Sys2Proof.Machine.execMovB16S ov s d st
  | .movSRm s m => Sys2Proof.Machine.execMovSRm s m st
  | .movSD16 ov s d => Sys2Proof.Machine.execMovSD16 ov s d st
  | .movSB8 ov s d => Sys2Proof.Machine.execMovSB8 ov s d st
  | .movSB16 ov s d => Sys2Proof.Machine.execMovSB16 ov s d st
  | .movAxMoffs ov d => Sys2Proof.Machine.execMovAxMoffs ov d st
  | .movMoffsAx ov d => Sys2Proof.Machine.execMovMoffsAx ov d st
  | .leaRB8 ov g d => Sys2Proof.Machine.execLeaRB8 ov g d st
  | .leaRB16 ov g d => Sys2Proof.Machine.execLeaRB16 ov g d st
  | .enterI16 i => Sys2Proof.Machine.execEnterI16 i st
  | .leave => Sys2Proof.Machine.execLeave st
  | .stosw => Sys2Proof.Machine.execStosw st
  | .repStosw => Sys2Proof.Machine.execRepStosw st
  | .repneStosw => Sys2Proof.Machine.execRepneStosw st
  | .jeRel8 rel => Sys2Proof.Machine.execJeRel8 rel st
  | .jeRel16 rel => Sys2Proof.Machine.execJeRel16 rel st
  | .jneRel8 rel => Sys2Proof.Machine.execJneRel8 rel st
  | .jneRel16 rel => Sys2Proof.Machine.execJneRel16 rel st
  | .jlRel8 rel => Sys2Proof.Machine.execJlRel8 rel st
  | .jlRel16 rel => Sys2Proof.Machine.execJlRel16 rel st
  | .jgeRel8 rel => Sys2Proof.Machine.execJgeRel8 rel st
  | .jgeRel16 rel => Sys2Proof.Machine.execJgeRel16 rel st
  | .jleRel8 rel => Sys2Proof.Machine.execJleRel8 rel st
  | .jleRel16 rel => Sys2Proof.Machine.execJleRel16 rel st
  | .jbeRel8 rel => Sys2Proof.Machine.execJbeRel8 rel st
  | .jbeRel16 rel => Sys2Proof.Machine.execJbeRel16 rel st
  | .jmpRel8 rel => Sys2Proof.Machine.execJmpRel8 rel st
  | .jmpRel16 rel => Sys2Proof.Machine.execJmpRel16 rel st
  | .callRel16 rel => Sys2Proof.Machine.execCallRel16 rel st
  | .callFar sel => Sys2Proof.Machine.execCallFar sel st

end Sys2Proof.Machine
end

