-- ==== Sys2Proof/Machine/Step.lean ====
section
/-!
DEFINITION. One step (spec/40_dispatch.md rule R90), and the state in which a given instruction is the
next one fetched.
-/

namespace Sys2Proof.Machine

/-- One step (R90): fetch, refuse an entry that is not admitted, run the handler. A faulted context has
no step (R30). -/
def step (s : State) : Host.Outcome State Fault Refusal :=
  match s.status with
  | .faulted k => .refused (.contextFaulted k)
  | .running =>
    match fetch s with
    | .error k => .fault k
    | .ok (.other n) => .fault (.unsupportedInstruction (.other n))
    | .ok (.instr i) => if i.wellFormed then exec i s else .fault (.unsupportedInstruction (.instr i))

/-- `s` with the instruction of a table word as the code at (CS, IP): its bytes in the segment and its
entry in the decoded index, which is what fetch reads (R61). The fetch also needs CS and IP readable
and the status Running. -/
def State.withFetchWord (s : State) (nbits w : Nat) : State :=
  let bytes := match decodeTableWord nbits w with
    | some i => encode i
    | none => tableBytes nbits w
  let entry : Decoded := match decodeTableWord nbits w with
    | some i => .instr i
    | none => .other (nbits / 8)
  let cs := s.regs.get (.seg .cs)
  { s with
    store := putCode cs s.ip.toNat entry s.store
    mem := putBytes (cellKey cs s.ip.toNat) (bytes.take (Config.segSize - s.ip.toNat)) s.mem
    written := s.written.set (.seg .cs) true
    ipWritten := true
    status := .running }

end Sys2Proof.Machine
end

