-- ==== Sys2Proof/Machine/HostOps.lean ====
section
/-!
DEFINITION. The host interface of one context, used between steps: registration, memory access, the
string read, relocation lookup, allocation, the register file and Step (spec/70_reset_and_hazards.md
rule R145, spec/20_memory.md rules R41 to R54, spec/10_state.md rule R28).
-/

namespace Sys2Proof.Machine

/-- What a host operation gives. A failed or refused one leaves the state as it was (R129). -/
inductive HostResult (α : Type)
  | ok (a : α) (s : State)
  | failed (k : Fault)
  | refused (r : Refusal)
  deriving DecidableEq, Repr

/-! ### Registration (R41, R42, R67) -/

/-- A store with one more segment, in rising order of ordinal. -/
def insertSegment (g : Segment) : List Segment → List Segment
  | [] => [g]
  | h :: rest => if g.ordinal < h.ordinal then g :: h :: rest else h :: insertSegment g rest

/-- The 65536-byte buffer of a segment: the data, then zeros (R41 item 2). -/
def paddedBuffer (data : List Byte) : List Byte := data ++ List.replicate (Config.segSize - data.length) 0#8

/-- The decoded index a segment is registered with: the sweep of a code segment (R67), and none for a
data segment (R34). -/
def buildIndex (tail : Config.TailPolicy) (data : List Byte) (isCode : Bool) :
    Except Nat (List (Nat × Decoded)) :=
  if isCode then sweep tail (paddedBuffer data) 0 0 else .ok []

/-- *Register segment(ordinal, data, isCode, relocations)* (R41). Data over 65536 bytes is outside the
contract (R42). -/
def hostRegister (ordinal : Word) (data : List Byte) (isCode : Bool) (relocs : List Reloc) (s : State) :
    HostResult Unit :=
  if Config.segSize < data.length then .refused .outsideContract
  else if registered s ordinal then .failed (.duplicateSegment ordinal)
  else
    match buildIndex s.cfg.tailPolicy data isCode with
    | .error o => .failed (.malformedCode ordinal o)
    | .ok index =>
      .ok () { s with
        store := insertSegment ⟨ordinal, isCode, relocs, index⟩ s.store
        mem := putBytes (cellKey ordinal 0) data s.mem }

/-! ### Memory (R43, R44, R46) -/

/-- A host operation that reads and changes nothing. -/
def hostGet {α : Type} (r : Except Fault α) (s : State) : HostResult α :=
  match r with
  | .ok a => .ok a s
  | .error k => .failed k

/-- A host operation that writes. -/
def hostPut (r : Except Fault State) : HostResult Unit :=
  match r with
  | .ok s => .ok () s
  | .error k => .failed k

/-- Read a byte. -/
def hostReadByte (segment offset : Word) (s : State) : HostResult Byte := hostGet (memRead8 segment offset s) s

/-- Read a word. -/
def hostReadWord (segment offset : Word) (s : State) : HostResult Word := hostGet (memRead16 segment offset s) s

/-- Write a byte. -/
def hostWriteByte (segment offset : Word) (b : Byte) (s : State) : HostResult Unit :=
  hostPut (memWrite8 segment offset b s)

/-- Write a word. -/
def hostWriteWord (segment offset v : Word) (s : State) : HostResult Unit :=
  hostPut (memWrite16 segment offset v s)

/-- Read `n` bytes from an offset on (R46). -/
def hostReadRange (segment : Word) (offset n : Nat) (s : State) : HostResult (List Byte) :=
  hostGet (access segment offset n ((List.range n).map (fun k => byteAt s segment (offset + k))) s) s

/-- Write bytes from an offset on (R46). -/
def hostWriteRange (segment : Word) (offset : Nat) (bytes : List Byte) (s : State) : HostResult Unit :=
  hostPut (access segment offset bytes.length
    { s with mem := putBytes (cellKey segment offset) bytes s.mem } s)

/-! ### The string read (R49) -/

/-- The bytes of a segment from an offset on, up to and with the first zero, `left` of them being there. -/
def scanString (s : State) (segment : Word) : Nat → Nat → Option (List Byte)
  | 0, _ => none
  | left + 1, o =>
    let b := byteAt s segment o
    if b = 0#8 then some [b] else (scanString s segment left (o + 1)).map (fun bs => b :: bs)

/-- *Read null-terminated byte string*: offsets o to 0xFFFF are examined (R49, D33). -/
def hostReadString (segment offset : Word) (s : State) : HostResult (List Byte) :=
  if registered s segment then
    match scanString s segment (Config.segSize - offset.toNat) offset.toNat with
    | some bs => .ok bs s
    | none => .failed (.unterminatedString segment offset.toNat)
  else .failed (.segmentFault segment offset.toNat)

/-! ### Relocations and the arena (R50, R53, R54) -/

/-- *Find relocation for a segment at a given offset*. -/
def hostFindRelocation (segment offset : Word) (s : State) : HostResult (Option RelocTarget) :=
  .ok (relocAt segment offset s) s

/-- *Allocate host memory(size)*: the cursor before, which then moves by `size`. -/
def hostAllocate (size : Nat) (s : State) : HostResult Nat :=
  if s.arena + size ≤ Config.segSize then .ok s.arena { s with arena := s.arena + size }
  else .failed (.segmentFault s.cfg.hostScratchSeg s.arena)

/-! ### The register file (R28) -/

/-- Get a named register. -/
def hostGetReg (r : Reg) (s : State) : HostResult Word := .ok (s.regs.get r) s

/-- Set a named register. -/
def hostSetReg (r : Reg) (v : Word) (s : State) : HostResult Unit := .ok () (writeReg r v s)

/-- Get IP. -/
def hostGetIp (s : State) : HostResult Word := .ok s.ip s

/-- Set IP. -/
def hostSetIp (v : Word) (s : State) : HostResult Unit := .ok () (writeIp v s)

/-- Get the flags bitfield. -/
def hostGetFlags (s : State) : HostResult Word := .ok s.flags s

/-- Set the flags bitfield. -/
def hostSetFlags (v : Word) (s : State) : HostResult Unit := .ok () (setFlags v s)

/-- Test ZF. -/
def hostTestZf (s : State) : HostResult Bool := .ok s.zf s

/-- Set or clear ZF. -/
def hostSetZf (b : Bool) (s : State) : HostResult Unit := .ok () (writeZf b s)

/-- Test CF. -/
def hostTestCf (s : State) : HostResult Bool := .ok s.cf s

/-- Set or clear CF. -/
def hostSetCf (b : Bool) (s : State) : HostResult Unit := .ok () (writeCf b s)

/-! ### Step (R90, R104, R131) -/

/-- What the host is told of a step. -/
inductive StepReport
  /-- The step completed. -/
  | completed
  /-- It ended with a fault, which the status now records. -/
  | faulted (k : Fault)
  /-- It never ends. -/
  | diverges
  /-- There was no step. -/
  | noStep (r : Refusal)
  deriving DecidableEq, Repr

/-- *Step* as the host calls it: the outcome of `step`, and the status it leaves. A fault is taken
(R131); a step that never ends gives no later state, so the one it started from stands. -/
def hostStep (s : State) : StepReport × State :=
  match step s with
  | .next t => (.completed, t)
  | .fault .diverges => (.diverges, s)
  | .fault k => (.faulted k, takeFault k s)
  | .refused r => (.noStep r, s)

end Sys2Proof.Machine
end

