-- ==== Sys2Proof/Safety.lean ====
section
/-!
DEFINITION. The terms claims are made in: when an access or an operand is in order, the value it has and
the state it leaves, what a store leaves alone, and the invariant of a context. Each is written from the
spec's words, apart from the machine's own operations.
-/

namespace Sys2Proof.Safety

open Sys2Proof.Machine

/-! ### Forms -/

/-- The instruction at offset `ip` is an admitted one with this mnemonic and these operands (R65, R93). -/
abbrev HasForm (i : Instr) (ip : Word) (mnemonic : Mnemonic) (ops : List Operand) : Prop :=
  i.wellFormed = true ∧ (i.decoded ip).mnemonic = mnemonic ∧ (i.decoded ip).ops = ops

/-- A general register of a state. -/
def gpr (s : State) (g : Gpr) : Word := s.regs.get (.gpr g)

/-- A segment register of a state. -/
def sreg (s : State) (r : Sreg) : Word := s.regs.get (.seg r)

/-- A register an instruction may read (R39). -/
def regOk (s : State) (r : Reg) : Bool := canRead (.reg r) s

/-! ### Memory operands (R48, R96, R97) -/

/-- The bytes a memory operand covers (R79). -/
def sizeBytes : MemSize → Nat
  | .byte => 1
  | .word => 2

/-- The segment of a memory operand. -/
def memSegment (m : MemOperand) (s : State) : Word := sreg s m.seg

/-- The offset of a memory operand: the displacement, or BP +16 displacement (R97). -/
def memOffset (m : MemOperand) (s : State) : Word :=
  match m.base with
  | .absent => m.disp
  | .bp => gpr s .bp + m.disp

/-- The registers that address a memory operand may be read. -/
def addressOk (m : MemOperand) (s : State) : Bool :=
  regOk s (.seg m.seg) && (m.base == .absent || regOk s (.gpr .bp))

/-- The bytes of a memory operand lie in a registered segment (R43). -/
def inSegment (m : MemOperand) (s : State) : Bool :=
  inBounds s (memSegment m s) (memOffset m s).toNat (sizeBytes m.size)

/-- A memory operand is read through the host: segment register ES with a value above 0xFF (R48). -/
def viaHost (m : MemOperand) (s : State) : Bool := m.seg == .es && decide (0xFF#16 < sreg s .es)

/-- A memory operand can be stored to. -/
def storeOk (m : MemOperand) (s : State) : Bool := addressOk m s && inSegment m s

/-- What the host answers for the word of a memory operand; none is a call that never returns (R56, R104). -/
def hostAnswer (m : MemOperand) (s : State) : Option Word :=
  match s.hostWords with
  | w :: _ => w
  | [] => some (Config.hostReadWord s.hostCalls.length (memSegment m s) (memOffset m s))

/-- A memory operand can be read: through the host, a word that the host answers. -/
def loadOk (m : MemOperand) (s : State) : Bool :=
  addressOk m s && (if viaHost m s then m.size == .word && (hostAnswer m s).isSome else inSegment m s)

/-- The value of a memory operand that can be read (R96). -/
def loadValue (m : MemOperand) (s : State) : Word :=
  if viaHost m s then (hostAnswer m s).getD 0#16
  else
    match m.size with
    | .word => wordAt s (memSegment m s) (memOffset m s).toNat
    | .byte => zext16 (byteAt s (memSegment m s) (memOffset m s).toNat)

/-- The state after a memory operand is read: a host read is on record and its answer used up, and nothing else
changes. -/
def loadState (m : MemOperand) (s : State) : State :=
  if viaHost m s then
    { s with hostWords := s.hostWords.tail, hostCalls := .readWord (memSegment m s) (memOffset m s) :: s.hostCalls }
  else s

/-! ### Operands (R96) -/

/-- An operand can be read. -/
def operandOk (op : Operand) (s : State) : Bool :=
  match op with
  | .reg r => regOk s r
  | .imm8 _ => true
  | .imm16 _ => true
  | .imm8to16 _ => true
  | .mem m => loadOk m s
  | .nearBranch _ => false
  | .farBranch _ _ => false

/-- The value of an operand. -/
def operandValue (op : Operand) (s : State) : Word :=
  match op with
  | .reg r => s.regs.get r
  | .imm8 v => zext16 v
  | .imm16 v => v
  | .imm8to16 v => sext16 v
  | .mem m => loadValue m s
  | .nearBranch t => t
  | .farBranch _ o => o

/-- The state after an operand is read. -/
def operandState (op : Operand) (s : State) : State :=
  match op with
  | .mem m => loadState m s
  | _ => s

/-! ### Relocation (R99, R50) -/

/-- The record that the immediate of the current instruction is looked up at: (CS, IP +16 1). -/
def relocHere (s : State) : Option RelocTarget := relocAt (sreg s .cs) (s.ip + 1#16) s

/-- The word an immediate becomes when no callback is needed. -/
def relocatedTo (v : Word) (s : State) : Option Word :=
  if v = 0xFFFF#16 then
    match relocHere s with
    | some (.importRef _ _) => none
    | some (.internalRef w) => some w
    | none => some 0xFFFF#16
  else some v

/-- The immediate is not the sentinel, or CS, which the lookup uses, may be read. -/
def relocOk (v : Word) (s : State) : Bool := v != 0xFFFF#16 || regOk s (.seg .cs)

/-- The instruction calls the external-function callback: a MOV of the sentinel or a far CALL, at an import record
(R51, R99, R127). -/
def makesCallback (i : Instr) (s : State) : Bool :=
  (match (i.decoded s.ip).mnemonic, (i.decoded s.ip).ops with
    | .mov, [_, .imm16 v] => v == 0xFFFF#16
    | .call, [.farBranch _ _] => true
    | _, _ => false) &&
  (match relocHere s with
    | some (.importRef _ _) => true
    | _ => false)

/-! ### The stack (R101) -/

/-- A word can be pushed. -/
def pushOk (s : State) : Bool :=
  regOk s (.gpr .sp) && regOk s (.seg .ss) && inBounds s (sreg s .ss) (gpr s .sp - 2#16).toNat 2

/-- The state after a push: SP falls by 2 and the word is at the new (SS, SP). -/
def pushed (v : Word) (s : State) : State :=
  putWord (sreg s .ss) (gpr s .sp - 2#16).toNat v (writeReg (.gpr .sp) (gpr s .sp - 2#16) s)

/-- A word can be popped. -/
def popOk (s : State) : Bool :=
  regOk s (.gpr .sp) && regOk s (.seg .ss) && inBounds s (sreg s .ss) (gpr s .sp).toNat 2

/-- The word a pop gives. -/
def popValue (s : State) : Word := wordAt s (sreg s .ss) (gpr s .sp).toNat

/-- The state after a pop: SP rises by 2. -/
def popped (s : State) : State := writeReg (.gpr .sp) (gpr s .sp + 2#16) s

/-- The state both CALL forms build before they transfer: IP and CS pushed, BP = SP (R126, R127). -/
def called (s : State) : State :=
  let t := pushed (sreg s .cs) (pushed s.ip s)
  writeReg (.gpr .bp) (gpr t .sp) t

/-- Both pushes of a CALL are in order, and CS may be read. -/
def callOk (s : State) : Bool := pushOk s && regOk s (.seg .cs) && pushOk (pushed s.ip s)

/-! ### STOSW (R117) -/

/-- The offset of iteration k. -/
def stoswOffset (s : State) (k : Nat) : Word := gpr s .di + BitVec.ofNat 16 (2 * k)

/-- AX, DI and ES may be read. -/
def stoswRegsOk (s : State) : Bool := regOk s (.seg .es) && regOk s (.gpr .di) && regOk s (.gpr .ax)

/-! ### The conditions of the jumps (R118) -/

/-- JCC_TABLE. -/
def jumpCondition : Mnemonic → Option (Bool → Bool → Bool)
  | .je => some (fun zf _ => zf == true)
  | .jne => some (fun zf _ => zf == false)
  | .jl => some (fun zf cf => zf == false && cf == true)
  | .jge => some (fun zf cf => zf == true || cf == false)
  | .jle => some (fun zf cf => zf == true || cf == true)
  | .jbe => some (fun zf cf => zf == true || cf == true)
  | _ => none

/-- The flags a jump reads may be read: ZF, and CF except for JE and JNE (R119 to R124). -/
def jumpFlagsOk (m : Mnemonic) (s : State) : Bool :=
  canRead .zf s && (m == .je || m == .jne || canRead .cf s)

/-! ### The checks of the handlers, in the order of their pseudocode (R130 item 5) -/

/-- The first fault of a list of checks. -/
def firstFault (checks : List (Option Fault)) : Option Fault := checks.findSome? id

/-- The read of a register or flag that nothing has written (R39). -/
def readFault (item : Item) (s : State) : Option Fault :=
  if canRead item s then none else some (.uninitialisedRead item)

/-- An access of `n` bytes out of bounds (R43). -/
def boundFault (segment offset : Word) (n : Nat) (s : State) : Option Fault :=
  if inBounds s segment offset.toNat n then none else some (.segmentFault segment offset.toNat)

/-- The reads of EA(m): the segment register, then BP for a BP-based form (R97; the order within one statement is log entry
17's). -/
def addressFault (m : MemOperand) (s : State) : Option Fault :=
  firstFault [readFault (.reg (.seg m.seg)) s, if m.base = .bp then readFault (.reg (.gpr .bp)) s else none]

/-- A read of a memory operand by the instruction `d` (R96). -/
def loadFault (d : Decoded) (m : MemOperand) (s : State) : Option Fault :=
  firstFault [addressFault m s,
    if viaHost m s then
      match m.size with
      | .byte => some (.unsupportedInstruction d)
      | .word => if (hostAnswer m s).isSome then none else some .diverges
    else boundFault (memSegment m s) (memOffset m s) (sizeBytes m.size) s]

/-- A store to a memory operand (R98). -/
def storeFault (m : MemOperand) (s : State) : Option Fault :=
  firstFault [addressFault m s, boundFault (memSegment m s) (memOffset m s) (sizeBytes m.size) s]

/-- `Operand(op)` (R96). -/
def operandFault (d : Decoded) (op : Operand) (s : State) : Option Fault :=
  match op with
  | .reg r => readFault (.reg r) s
  | .mem m => loadFault d m s
  | .imm8 _ => none
  | .imm16 _ => none
  | .imm8to16 _ => none
  | .nearBranch _ => some (.unsupportedInstruction d)
  | .farBranch _ _ => some (.unsupportedInstruction d)

/-- `Push16` (R101). -/
def pushFault (s : State) : Option Fault :=
  firstFault [readFault (.reg (.gpr .sp)) s, readFault (.reg (.seg .ss)) s,
    boundFault (sreg s .ss) (gpr s .sp - 2#16) 2 s]

/-- `Pop16` (R101). -/
def popFault (s : State) : Option Fault :=
  firstFault [readFault (.reg (.seg .ss)) s, readFault (.reg (.gpr .sp)) s, boundFault (sreg s .ss) (gpr s .sp) 2 s]

/-- The two pushes of a CALL, and the read of CS between them (R126, R127). -/
def callFault (s : State) : Option Fault :=
  firstFault [pushFault s, readFault (.reg (.seg .cs)) s, pushFault (pushed s.ip s)]

/-- A callback that does not return (R55, R104). -/
def replyFault (module function : Word) (reply : HostReply) : Option Fault :=
  match reply with
  | .returned _ _ => none
  | .failed => some (.hostFault module function)
  | .never => some .diverges

/-- `RelocSubst(v)` (R99): the read of CS, then the callback of an import record. -/
def relocFault (v : Word) (s : State) : Option Fault :=
  if v = 0xFFFF#16 then
    firstFault [readFault (.reg (.seg .cs)) s,
      match relocHere s with
      | some (.importRef m f) => replyFault m f (hostReply m f s)
      | some (.internalRef _) => none
      | none => none]
  else none

/-- The state `RelocSubst(v)` leaves: what the callback of an import record did. -/
def relocState (v : Word) (s : State) : State :=
  if v = 0xFFFF#16 then
    match relocHere s with
    | some (.importRef m f) =>
      match hostReply m f s with
      | .returned _ ws => applyHostWrites (recordInvoke m f s) ws
      | .failed => s
      | .never => s
    | some (.internalRef _) => s
    | none => s
  else s

/-- What a far CALL does after its frame: the record at (CS, IP +16 1), the callback, and the pops of CS and IP from the
stack as the callback left it (R127). -/
def farCallFault (d : Decoded) (s : State) : Option Fault :=
  match relocHere s with
  | none => some (.unresolvedExternalCall (sreg s .cs) s.ip)
  | some (.internalRef _) => some (.unsupportedInstruction d)
  | some (.importRef m f) =>
    match hostReply m f (called s) with
    | .failed => some (.hostFault m f)
    | .never => some .diverges
    | .returned _ ws =>
      let u := applyHostWrites (recordInvoke m f (called s)) ws
      firstFault [popFault u, popFault (writeReg (.seg .cs) (popValue u) (popped u))]

/-- The first check of the handler of a form that fails, in the order of its pseudocode (R105 to R127, R130 item 5). For
STOSW, the checks up to its first store. -/
def handlerFault (d : Decoded) (m : Mnemonic) (ops : List Operand) (s : State) : Option Fault :=
  match m, ops with
  | .add, [dst, src] | .cmp, [dst, src] | .xor, [dst, src] | .or, [dst, src] =>
    firstFault [operandFault d dst s, operandFault d src (operandState dst s)]
  | .inc, [dst] => operandFault d dst s
  | .shl, [dst, _] => operandFault d dst s
  | .push, [src] => firstFault [operandFault d src s, pushFault (operandState src s)]
  | .pop, _ => popFault s
  | .mov, [.reg _, .imm16 v] => relocFault v s
  | .mov, [.mem a, .imm16 v] => firstFault [relocFault v s, storeFault a (relocState v s)]
  | .mov, [.reg _, src] => operandFault d src s
  | .mov, [.mem a, src] => firstFault [operandFault d src s, storeFault a s]
  | .lea, _ => readFault (.reg (.gpr .bp)) s
  | .enter, _ => firstFault [readFault (.reg (.gpr .bp)) s, pushFault s]
  | .leave, _ =>
    firstFault [readFault (.reg (.gpr .bp)) s, readFault (.reg (.seg .ss)) s, boundFault (sreg s .ss) (gpr s .bp) 2 s,
      boundFault (sreg s .ss) (gpr s .bp + 2#16) 2 s, boundFault (sreg s .ss) (gpr s .bp + 4#16) 2 s]
  | .stosw, _ =>
    firstFault (readFault (.reg (.gpr .cx)) s ::
      if gpr s .cx = 0#16 then []
      else [readFault (.reg (.seg .es)) s, readFault (.reg (.gpr .di)) s, readFault (.reg (.gpr .ax)) s,
        boundFault (sreg s .es) (gpr s .di) 2 s])
  | .jmp, _ => none
  | .call, [.nearBranch _] => callFault s
  | .call, [.farBranch _ _] => firstFault [callFault s, farCallFault d s]
  | .je, _ | .jne, _ => readFault .zf s
  | .jl, _ | .jge, _ | .jle, _ | .jbe, _ => firstFault [readFault .zf s, readFault .cf s]
  | _, _ => none

/-! ### What a store leaves alone -/

/-- Every byte outside the `n` bytes from (segment, offset) on reads as before. -/
def BytesKeptOutside (s t : State) (segment offset : Word) (n : Nat) : Prop :=
  ∀ (g : Word) (o : Nat), o < 65536 → ¬(g = segment ∧ offset.toNat ≤ o ∧ o < offset.toNat + n) →
    byteAt t g o = byteAt s g o

/-- Every byte reads as before. -/
def BytesKept (s t : State) : Prop := ∀ (g : Word) (o : Nat), o < 65536 → byteAt t g o = byteAt s g o

/-- Every register but the listed ones holds what it held. -/
def RegsKept (s t : State) (except : List Reg) : Prop :=
  ∀ r : Reg, ¬r ∈ except → t.regs.get r = s.regs.get r

/-- What no instruction ever writes: the segments with their indexes and relocations, the arena cursor, the
construction parameters and the status (R31, R32, R35, R61). -/
def FixedKept (s t : State) : Prop :=
  t.store = s.store ∧ t.arena = s.arena ∧ t.cfg = s.cfg ∧ t.status = s.status

/-! ### The invariant of a context -/

/-- The segments stand in strictly rising order of ordinal, so no ordinal is registered twice (R31, R41). -/
def storeSorted : List Segment → Bool
  | [] => true
  | g :: rest => rest.all (fun h => decide (g.ordinal < h.ordinal)) && storeSorted rest

/-- Every listed byte belongs to a registered segment (R31, R40). -/
def bytesOwned (s : State) : Bool :=
  s.mem.all (fun c => decide (c.1 < 65536 * 65536) && registered s (BitVec.ofNat 16 (c.1 / 65536)))

/-- A data segment has no decoded instruction (R34). -/
def dataNotDecoded (s : State) : Bool := s.store.all (fun g => g.isCode || g.index.isEmpty)

/-- The memory is in canonical form and lists bytes of registered segments only, the segments are sorted,
data segments have an empty index, and the arena cursor is at most 65536 (R35). -/
def contextInv (s : State) : Bool :=
  Memory.wf s.mem && bytesOwned s && storeSorted s.store && dataNotDecoded s && decide (s.arena ≤ 65536)

end Sys2Proof.Safety
end

