-- ==== Sys2Proof/Certificates/Slice0/Obligations.lean ====
section
/-!
DEFINITION. The statements for the provers. Each names the rule of spec/ it comes from. A statement over
`HasForm i s.ip m ops` is about every row of the opcode table whose decoded form (R65) has that mnemonic
and those operands. `Config.drawBit`, `Config.hostReadWord` and `Config.hostInvoke` are free values:
a statement that mentions one holds whatever it is.
-/

open Sys2Proof Sys2Proof.Machine Sys2Proof.Safety

/-! ### Encoding -/

/-- Every admitted instruction is read back from its bytes, with every operand, and what follows is left
(R66 item 1, R71 to R83). -/
def Obligations.DecodeOfEncode : Prop :=
  ∀ (i : Instr) (rest : List Byte), i.wellFormed = true → decode (encode i ++ rest) = .ok (i, rest)

/-- What the decoder accepts is the encoding of the admitted instruction it gives: no other bytes decode
to it (R66, R70, R84). -/
def Obligations.DecodeAcceptsOnlyEncodings : Prop :=
  ∀ (bs : List Byte) (i : Instr) (rest : List Byte),
    decode bs = .ok (i, rest) → bs = encode i ++ rest ∧ i.wellFormed = true

/-- Words written out from the encodings of R71 to R83 decode to the instructions they stand for. -/
def Obligations.TableWordsDecode : Prop :=
  decode [0x01#8, 0xCB#8] = .ok (.addRmR .cx .bx, []) ∧
  decode [0x80#8, 0x7E#8, 0xFF#8, 0x80#8] = .ok (.cmpByteB8I8 none 0xFF#8 0x80#8, []) ∧
  decode [0xFF#8, 0x76#8, 0x04#8] = .ok (.pushB8 none 0x04#8, []) ∧
  decode [0x36#8, 0x8B#8, 0x06#8, 0x00#8, 0x02#8] = .ok (.movRD16 (some .ss) .ax 0x0200#16, []) ∧
  decode [0x8E#8, 0xD8#8] = .ok (.movSRm .ds .ax, []) ∧
  decode [0xC8#8, 0x04#8, 0x00#8, 0x00#8] = .ok (.enterI16 4#16, []) ∧
  decode [0x0F#8, 0x86#8, 0x00#8, 0x01#8] = .ok (.jbeRel16 0x0100#16, []) ∧
  decode [0x9A#8, 0xFF#8, 0xFF#8, 0x34#8, 0x12#8] = .ok (.callFar 0x1234#16, [])

/-- `Decode` outside the admitted forms (R66, R69, R70, R84). An entry has 1 to 15 bytes and lies within the buffer. An
admitted instruction with refused prefixes is Other, with the x86 length, which is the bytes of both unless 66 or 67 is
among them; so is every 0F opcode but the six jumps; neither is ever a Fail. An admitted instruction cut off by the end of
the buffer is set by TAIL_POLICY. The lengths that other bytes have are log entry 12's (PRESUMED). -/
def Obligations.DecodeFitsAndRefusedFormsAreOther : Prop :=
  ∀ (tail : Config.TailPolicy),
    (∀ (bs : List Byte) (d : Decoded), bs ≠ [] → decodeAt tail bs = some d →
      1 ≤ d.length ∧ d.length ≤ 15 ∧ d.length ≤ bs.length) ∧
    (∀ (prefixes : List Byte) (i : Instr) (rest : List Byte), i.wellFormed = true →
      (∀ b ∈ prefixes, b ∈ [0x26#8, 0x2E#8, 0x36#8, 0x3E#8, 0x64#8, 0x65#8, 0xF0#8, 0xF2#8, 0xF3#8]) →
      prefixes.length + i.length ≤ 15 → (∀ j more, decode (prefixes ++ encode i ++ rest) ≠ .ok (j, more)) →
      decodeAt tail (prefixes ++ encode i ++ rest) = some (.other (prefixes.length + i.length))) ∧
    (∀ (prefixes : List Byte) (i : Instr) (rest : List Byte), i.wellFormed = true →
      (∀ b ∈ prefixes, b ∈ [0x26#8, 0x2E#8, 0x36#8, 0x3E#8, 0x64#8, 0x65#8, 0xF0#8, 0xF2#8, 0xF3#8, 0x66#8, 0x67#8]) →
      (0x66#8 ∈ prefixes ∨ 0x67#8 ∈ prefixes) → prefixes.length + i.length ≤ 11 → 15 ≤ prefixes.length + i.length + rest.length →
      ∃ n, prefixes.length < n ∧ decodeAt tail (prefixes ++ encode i ++ rest) = some (.other n)) ∧
    (∀ (prefixes : List Byte) (op : Byte) (rest : List Byte),
      (∀ b ∈ prefixes, b ∈ [0x26#8, 0x2E#8, 0x36#8, 0x3E#8, 0x64#8, 0x65#8, 0xF0#8, 0xF2#8, 0xF3#8, 0x66#8, 0x67#8]) →
      ¬op ∈ [0x84#8, 0x85#8, 0x86#8, 0x8C#8, 0x8D#8, 0x8E#8] → prefixes.length ≤ 5 → 13 ≤ rest.length →
      ∃ n, prefixes.length + 2 ≤ n ∧ decodeAt tail (prefixes ++ 0x0F#8 :: op :: rest) = some (.other n)) ∧
    (∀ (i : Instr) (k : Nat), i.wellFormed = true → 1 ≤ k → k < i.length →
      decodeAt tail ((encode i).take k) = match tail with
        | .fail => none
        | .accept => some (.other k))

/-- The linear sweep (R67): the first entry is at the first offset, each later one where the one before it ends, and each is
what Decode gives there. When it succeeds the last one ends at the end of the buffer; when it fails, it fails at the offset
where the last one ends, and Decode gives Fail there. -/
def Obligations.SweepIndexesInstructionStarts : Prop :=
  ∀ (tail : Config.TailPolicy) (bs : List Byte) (o : Nat),
    let chain := fun index : List (Nat × Decoded) =>
      (∀ e ∈ index, o ≤ e.1 ∧ decodeAt tail (bs.drop (e.1 - o)) = some e.2) ∧
      (∀ k (h : k < index.length), (index[k]).1 = o + ((index.take k).map (fun e => e.2.length)).sum)
    (∀ index, sweep tail bs 0 o = .ok index → chain index ∧ (index.map (fun e => e.2.length)).sum = bs.length) ∧
    (∀ e, sweep tail bs 0 o = .error e → o ≤ e ∧ e < o + bs.length ∧ decodeAt tail (bs.drop (e - o)) = none ∧
      ∃ index, chain index ∧ o + (index.map (fun e => e.2.length)).sum = e)

/-! ### Registers, memory and the host's operations -/

/-- RESET_REGS (R39): an instruction's read of a register or flag gives its value when it has been written or under
draw, and raises UninitialisedRead otherwise. -/
def Obligations.UnwrittenReadFaults : Prop :=
  ∀ (s : State),
    (∀ r : Reg, readReg r s =
      if s.cfg.resetRegs = .draw ∨ s.written.get r = true then .ok (s.regs.get r) else .error (.uninitialisedRead (.reg r))) ∧
    (readZf s = if s.cfg.resetRegs = .draw ∨ s.zfWritten = true then .ok (s.flags.getLsbD 6) else .error (.uninitialisedRead .zf)) ∧
    (readCf s = if s.cfg.resetRegs = .draw ∨ s.cfWritten = true then .ok (s.flags.getLsbD 0) else .error (.uninitialisedRead .cf))

/-- The bound check of every access: the segment is registered and offset + n is at most 65536, without
wrapping (R43). -/
def Obligations.AccessOutOfBoundsFaults : Prop :=
  ∀ (s : State) (g o : Word),
    (registered s g = true → o.toNat + 2 ≤ 65536 → memRead16 g o s = .ok (wordAt s g o.toNat)) ∧
    (registered s g = true → memRead8 g o s = .ok (byteAt s g o.toNat)) ∧
    (registered s g = false ∨ 65536 < o.toNat + 2 →
      memRead16 g o s = .error (.segmentFault g o.toNat) ∧ ∀ v, memWrite16 g o v s = .error (.segmentFault g o.toNat)) ∧
    (registered s g = false →
      memRead8 g o s = .error (.segmentFault g o.toNat) ∧ ∀ b, memWrite8 g o b s = .error (.segmentFault g o.toNat))

/-- Little-endian words (R44): a stored word reads back, its low byte at the offset and its high byte after it,
and every other byte of every segment is unchanged. -/
def Obligations.StoredWordIsLittleEndian : Prop :=
  ∀ (s t : State) (g o v : Word), Memory.wf s.mem = true → memWrite16 g o v s = .ok t →
    memRead16 g o t = .ok v ∧ byteAt t g o.toNat = v.extractLsb' 0 8 ∧ byteAt t g (o.toNat + 1) = v.extractLsb' 8 8 ∧
    BytesKeptOutside s t g o 2

/-- `RelocAt` (R50): the first record in registration order whose offset is the one asked for, or none; none when
the segment is not registered. -/
def Obligations.RelocAtGivesFirstRecord : Prop :=
  ∀ (s : State) (g o : Word),
    (registered s g = false → relocAt g o s = none) ∧
    (∀ (seg : Segment), findSegment s.store g = some seg →
      (relocAt g o s = none ↔ ∀ r ∈ seg.relocs, r.offset ≠ o) ∧
      (∀ (before after : List Reloc) (r : Reloc), seg.relocs = before ++ r :: after → r.offset = o →
        (∀ q ∈ before, q.offset ≠ o) → relocAt g o s = some r.target))

/-- Registration (R41, R42, R67, R34): more than 65536 bytes is no request; a registered ordinal fails; a code segment whose
sweep fails is MalformedCode with the ordinal and the offset of the failing decode, and, as on every failure, no state comes
back. Otherwise registration succeeds, a data segment's always: the segment is there with its flag, its relocations in order,
the sweep as its index (none for data) and its bytes, padded with zeros, and nothing else changes. -/
def Obligations.RegistrationAddsOneSegment : Prop :=
  ∀ (s : State) (g : Word) (data : List Byte) (isCode : Bool) (relocs : List Reloc), contextInv s = true →
    (65536 < data.length → hostRegister g data isCode relocs s = .refused .outsideContract) ∧
    (data.length ≤ 65536 → registered s g = true → hostRegister g data isCode relocs s = .failed (.duplicateSegment g)) ∧
    (data.length ≤ 65536 → registered s g = false →
      let swept := sweep s.cfg.tailPolicy (data ++ List.replicate (65536 - data.length) 0#8) 0 0
      (∀ o, isCode = true → swept = .error o → hostRegister g data isCode relocs s = .failed (.malformedCode g o)) ∧
      (∀ index, (isCode = true ∧ swept = .ok index ∨ isCode = false ∧ index = []) →
        ∃ t, hostRegister g data isCode relocs s = .ok () t ∧
          findSegment t.store g = some ⟨g, isCode, relocs, index⟩ ∧
          (∀ h, h ≠ g → findSegment t.store h = findSegment s.store h) ∧
          (∀ o, o < 65536 → byteAt t g o = data.getD o 0#8) ∧
          (∀ h, h ≠ g → ∀ o, o < 65536 → byteAt t h o = byteAt s h o) ∧
          { t with store := s.store, mem := s.mem } = s))

/-- A code segment runs the bytes it was registered with (R67, R91): after registration, with CS naming it and IP 0,
what is fetched is the instruction its first bytes encode. -/
def Obligations.RegisteredCodeRunsItsBytes : Prop :=
  ∀ (s t : State) (g : Word) (i : Instr) (more : List Byte) (relocs : List Reloc) (u : Unit), i.wellFormed = true →
    hostRegister g (encode i ++ more) true relocs s = .ok u t →
    fetch (writeIp 0#16 (writeReg (.seg .cs) g t)) = .ok (.instr i)

/-- Allocation (R53, R54): it gives the cursor and moves it by the size, or fails with SegmentFault past 65536. A failed
operation gives no state, so the cursor stands. The info of the fault is left open. -/
def Obligations.AllocationBumpsTheCursor : Prop :=
  ∀ (s : State) (size : Nat),
    (s.arena + size ≤ 65536 → hostAllocate size s = .ok s.arena { s with arena := s.arena + size }) ∧
    (65536 < s.arena + size → ∃ segment offset, hostAllocate size s = .failed (.segmentFault segment offset))

/-- The string read (R49): the bytes up to and with the first zero among offsets o to 0xFFFF; UnterminatedString when
there is none; SegmentFault when the segment is not registered. -/
def Obligations.StringReadStopsAtFirstZero : Prop :=
  ∀ (s : State) (g o : Word),
    (registered s g = false → hostReadString g o s = .failed (.segmentFault g o.toNat)) ∧
    (registered s g = true → (∀ k, o.toNat ≤ k → k < 65536 → byteAt s g k ≠ 0#8) →
      hostReadString g o s = .failed (.unterminatedString g o.toNat)) ∧
    (registered s g = true → ∀ n, o.toNat + n < 65536 → byteAt s g (o.toNat + n) = 0#8 →
      (∀ k, k < n → byteAt s g (o.toNat + k) ≠ 0#8) →
      hostReadString g o s = .ok ((List.range (n + 1)).map (fun k => byteAt s g (o.toNat + k))) s)

/-! ### Operands, relocation and the stack -/

/-- The effective address (R97): the segment register's value, and the displacement or
BP - (0xFFFF - displacement + 1), which is BP +16 displacement. And the memory operand an admitted instruction's bytes give
(R73, R76, R79, R80): [disp16] with DS, [BP+disp8], sign-extended, and [BP+disp16] with SS, an override byte in place of
either default; a byte for opcodes 80 and C6, a word for every other (LEA's size is not used). -/
def Obligations.EffectiveAddressIsBpPlusDisplacement : Prop :=
  (∀ (s : State) (m : MemOperand), addressOk m s = true →
    effectiveAddress m s = .ok (sreg s m.seg, match m.base with | .absent => m.disp | .bp => gpr s .bp + m.disp) ∧
    bpOffset (gpr s .bp) m.disp = gpr s .bp + m.disp) ∧
  (∀ (i : Instr) (ip : Word) (m : MemOperand), i.wellFormed = true → .mem m ∈ (i.decoded ip).ops →
    ∃ (ov : Option Sreg) (before : List Byte) (op : Byte) (rest : List Byte),
      (ov, before) ∈ [(none, []), (some .es, [0x26#8]), (some .cs, [0x2E#8]), (some .ss, [0x36#8]), (some .ds, [0x3E#8])] ∧
      op ∈ [0x0B#8, 0x33#8, 0x39#8, 0x3B#8, 0x80#8, 0x81#8, 0x83#8, 0x89#8, 0x8B#8, 0x8C#8, 0x8D#8, 0x8E#8, 0xA1#8, 0xA3#8,
        0xC6#8, 0xC7#8, 0xFF#8] ∧
      encode i = before ++ op :: rest ∧
      (if op = 0xA1#8 ∨ op = 0xA3#8 then
        ∃ lo hi, rest = [lo, hi] ∧ m.base = .absent ∧ m.disp = hi ++ lo ∧ m.seg = ov.getD .ds
      else ∃ reg : BitVec 3,
        (∃ lo hi more, rest = (0#2 ++ reg ++ 6#3) :: lo :: hi :: more ∧ m.base = .absent ∧ m.disp = hi ++ lo ∧
          m.seg = ov.getD .ds) ∨
        (∃ d more, rest = (1#2 ++ reg ++ 6#3) :: d :: more ∧ m.base = .bp ∧ m.disp = d.signExtend 16 ∧ m.seg = ov.getD .ss) ∨
        (∃ lo hi more, rest = (2#2 ++ reg ++ 6#3) :: lo :: hi :: more ∧ m.base = .bp ∧ m.disp = hi ++ lo ∧
          m.seg = ov.getD .ss)) ∧
      (op ≠ 0x8D#8 → m.size = if op = 0x80#8 ∨ op = 0xC6#8 then .byte else .word))

/-- The operand resolver (R96, R48): a readable operand gives its value, through the host exactly when its segment
register is ES with a value above 0xFF; a byte read on that path is unsupported, a host that never answers leaves the
step without end (R104), and a read out of bounds faults. -/
def Obligations.OperandResolves : Prop :=
  ∀ (s : State) (d : Decoded) (op : Operand),
    (operandOk op s = true → operand d op s = .ok (operandValue op s, operandState op s)) ∧
    (∀ m, op = .mem m → addressOk m s = true → viaHost m s = true → m.size = .byte →
      operand d op s = .error (.unsupportedInstruction d)) ∧
    (∀ m, op = .mem m → addressOk m s = true → viaHost m s = true → m.size = .word → hostAnswer m s = none →
      operand d op s = .error .diverges) ∧
    (∀ m, op = .mem m → addressOk m s = true → viaHost m s = false → inSegment m s = false →
      operand d op s = .error (.segmentFault (memSegment m s) (memOffset m s).toNat))

/-- Relocation substitution (R99): only the sentinel is looked up, at (CS, IP +16 1); an import invokes the callback and
gives its word, an internal record gives its value, and no record gives 0xFFFF. -/
def Obligations.RelocationSubstitutesTheSentinel : Prop :=
  ∀ (s : State) (v : Word),
    (v ≠ 0xFFFF#16 → relocSubst v s = .ok (v, s)) ∧
    (regOk s (.seg .cs) = true →
      (relocAt (sreg s .cs) (s.ip + 1#16) s = none → relocSubst 0xFFFF#16 s = .ok (0xFFFF#16, s)) ∧
      (∀ w, relocAt (sreg s .cs) (s.ip + 1#16) s = some (.internalRef w) → relocSubst 0xFFFF#16 s = .ok (w, s)) ∧
      (∀ m f, relocAt (sreg s .cs) (s.ip + 1#16) s = some (.importRef m f) →
        (∀ w ws, hostReply m f s = .returned w ws →
          relocSubst 0xFFFF#16 s = .ok (w, applyHostWrites (recordInvoke m f s) ws)) ∧
        (hostReply m f s = .failed → relocSubst 0xFFFF#16 s = .error (.hostFault m f)) ∧
        (hostReply m f s = .never → relocSubst 0xFFFF#16 s = .error .diverges)))

/-- The stack primitives (R101): a push lowers SP by 2 and writes at the new SP, a pop reads at SP and raises it by 2; SP
wraps, and a word at offset 0xFFFF faults. -/
def Obligations.StackPrimitives : Prop :=
  ∀ (s : State), regOk s (.gpr .sp) = true → regOk s (.seg .ss) = true →
    (∀ v, registered s (sreg s .ss) = true → gpr s .sp ≠ 1#16 → push16 v s = .ok (pushed v s)) ∧
    (∀ v, gpr s .sp = 1#16 → push16 v s = .error (.segmentFault (sreg s .ss) 0xFFFF)) ∧
    (registered s (sreg s .ss) = true → gpr s .sp ≠ 0xFFFF#16 → pop16 s = .ok (popValue s, popped s)) ∧
    (gpr s .sp = 0xFFFF#16 → pop16 s = .error (.segmentFault (sreg s .ss) 0xFFFF)) ∧
    (registered s (sreg s .ss) = false → (∀ v, push16 v s = .error (.segmentFault (sreg s .ss) (gpr s .sp - 2#16).toNat)) ∧
      pop16 s = .error (.segmentFault (sreg s .ss) (gpr s .sp).toNat))

/-! ### ADD, CMP, INC, XOR, OR, SHL: results (completion statements) -/

/-- ADD (R105): addRmR, addRRm, addAxI16, addRmI16, addRmI8. The destination becomes a + b mod 65536, ZF is set iff that is
zero, and CF follows the sign heuristic under each of its switches; nothing else changes but IP. -/
def Obligations.AddResult : Prop :=
  ∀ (i : Instr) (s : State) (g : Gpr) (src : Operand), HasForm i s.ip .add [.reg (.gpr g), src] →
    regOk s (.gpr g) = true → operandOk src s = true →
    let a := gpr s g
    let b := operandValue src s
    let r := a + b
    let mismatch := match s.cfg.addCfSource with
      | .oldNew => a.msb != r.msb
      | .destSrc => a.msb != b.msb
    let t := writeZf (r == 0#16) (writeReg (.gpr g) r (operandState src s))
    exec i s = .next (advance i.length (match s.cfg.addCfWrite with
      | .assign => writeCf mismatch t
      | .setOnly => if mismatch then writeCf true t else t))

/-- CMP (R106): all 20 rows. ZF is set iff the operands are equal, CF iff the first is below the second, unsigned; nothing
is stored. -/
def Obligations.CmpResult : Prop :=
  ∀ (i : Instr) (s : State) (dst src : Operand), HasForm i s.ip .cmp [dst, src] →
    operandOk dst s = true → operandOk src s = true →
    let a := operandValue dst s
    let b := operandValue src s
    exec i s = .next (advance i.length
      (writeCf (decide (a.toNat < b.toNat)) (writeZf (a == b) (operandState src (operandState dst s)))))

/-- INC (R107): incR, incRm. The register rises by 1 mod 65536 and ZF is set iff the result is zero; CF is not
touched, nor read. An unwritten register is an UninitialisedRead. -/
def Obligations.IncResult : Prop :=
  ∀ (i : Instr) (s : State) (g : Gpr), HasForm i s.ip .inc [.reg (.gpr g)] →
    (regOk s (.gpr g) = true →
      exec i s = .next (advance i.length (writeZf (gpr s g + 1#16 == 0#16) (writeReg (.gpr g) (gpr s g + 1#16) s)))) ∧
    (regOk s (.gpr g) = false → exec i s = .fault (.uninitialisedRead (.reg (.gpr g))))

/-- XOR and OR (R108, R109): all 16 rows. The destination becomes the bitwise result; ZF and CF are two free values, left
alone, or x86's, by LOGIC_FLAGS. -/
def Obligations.XorOrResult : Prop :=
  ∀ (i : Instr) (s : State) (m : Mnemonic) (g : Gpr) (src : Operand), HasForm i s.ip m [.reg (.gpr g), src] →
    (m = .xor ∨ m = .or) → regOk s (.gpr g) = true → operandOk src s = true →
    let r := if m = .xor then gpr s g ^^^ operandValue src s else gpr s g ||| operandValue src s
    let t := writeReg (.gpr g) r (operandState src s)
    exec i s = .next (advance i.length (match s.cfg.logicFlags with
      | .draw => { writeCf (Config.drawBit (s.draws + 1)) (writeZf (Config.drawBit s.draws) t) with draws := s.draws + 2 }
      | .unchanged => t
      | .x86 => writeCf false (writeZf (r == 0#16) t)))

/-- SHL (R110): shlRm1, shlRmI8. The register is doubled mod 65536, whatever the immediate; the flags as for XOR, x86's CF
being the old bit 15. -/
def Obligations.ShlResult : Prop :=
  ∀ (i : Instr) (s : State) (g : Gpr) (count : Operand), HasForm i s.ip .shl [.reg (.gpr g), count] →
    regOk s (.gpr g) = true →
    let r := gpr s g * 2#16
    let t := writeReg (.gpr g) r s
    exec i s = .next (advance i.length (match s.cfg.logicFlags with
      | .draw => { writeCf (Config.drawBit (s.draws + 1)) (writeZf (Config.drawBit s.draws) t) with draws := s.draws + 2 }
      | .unchanged => t
      | .x86 => writeCf ((gpr s g).getLsbD 15) (writeZf (r == 0#16) t)))

/-! ### PUSH, POP, MOV, LEA: results (completion statements) -/

/-- PUSH (R111): all 11 rows. The operand is read before SP moves, then pushed; it is never relocated. -/
def Obligations.PushResult : Prop :=
  ∀ (i : Instr) (s : State) (src : Operand), HasForm i s.ip .push [src] → operandOk src s = true → pushOk s = true →
    exec i s = .next (advance i.length (pushed (operandValue src s) (operandState src s)))

/-- POP (R112): all 5 rows. The destination gets the popped word after SP has risen, so POP SP leaves the word in SP. -/
def Obligations.PopResult : Prop :=
  ∀ (i : Instr) (s : State) (r : Reg), HasForm i s.ip .pop [.reg r] → popOk s = true →
    exec i s = .next (advance i.length (writeReg r (popValue s) (popped s)))

/-- MOV imm16 where no callback is needed (R113, R99, R98): movRI16, movRmI16 to a register; movD16I16, movB8I16, movB16I16 to
word memory. The immediate 0xFFFF becomes the internal record's value at (CS, IP +16 1), or stays with no record. -/
def Obligations.MovImmediateResult : Prop :=
  ∀ (i : Instr) (s : State) (v w : Word), relocOk v s = true → relocatedTo v s = some w →
    (∀ g, HasForm i s.ip .mov [.reg (.gpr g), .imm16 v] → exec i s = .next (advance i.length (writeReg (.gpr g) w s))) ∧
    (∀ m, HasForm i s.ip .mov [.mem m, .imm16 v] → storeOk m s = true →
      exec i s = .next (advance i.length (putWord (memSegment m s) (memOffset m s).toNat w s)))

/-- MOV register or word memory, 0xFFFF, at an import record (R113, R99, R100, D24): the callback runs first and its word is
moved, to the address as the callback left the registers. That IP is its value at the start of the step plus the length,
whatever the callback wrote to it, is the model's reading of R100 (DEDUCED, log entry 18). -/
def Obligations.MovImportResult : Prop :=
  ∀ (i : Instr) (s : State) (m f w : Word) (ws : List HostWrite), regOk s (.seg .cs) = true →
    relocHere s = some (.importRef m f) → hostReply m f s = .returned w ws →
    let u := applyHostWrites (recordInvoke m f s) ws
    (∀ g, HasForm i s.ip .mov [.reg (.gpr g), .imm16 0xFFFF#16] →
      exec i s = .next (writeIp (s.ip + BitVec.ofNat 16 i.length) (writeReg (.gpr g) w u))) ∧
    (∀ d, HasForm i s.ip .mov [.mem d, .imm16 0xFFFF#16] → storeOk d u = true →
      exec i s = .next (writeIp (s.ip + BitVec.ofNat 16 i.length) (putWord (memSegment d u) (memOffset d u).toNat w u)))

/-- MOV into a register (R113, R48): movRmR, movRRm, movRmS, movSRm from a register; movRD16, movRB8, movRB16, movSD16, movSB8,
movSB16, movAxMoffs from memory, through the host when the operand is host-owned. -/
def Obligations.MovToRegisterResult : Prop :=
  ∀ (i : Instr) (s : State) (dst : Reg),
    (∀ src, HasForm i s.ip .mov [.reg dst, .reg src] → regOk s src = true →
      exec i s = .next (advance i.length (writeReg dst (s.regs.get src) s))) ∧
    (∀ m, HasForm i s.ip .mov [.reg dst, .mem m] → loadOk m s = true →
      exec i s = .next (advance i.length (writeReg dst (loadValue m s) (loadState m s))))

/-- MOV into memory (R113, R98): movD16R, movB8R, movB16R, movD16S, movB8S, movB16S, movMoffsAx store a register's word;
movByteD16I8, movByteB8I8, movByteB16I8 store one byte, never relocated. The store goes to the Segment Store, whatever the
segment value. -/
def Obligations.MovToMemoryResult : Prop :=
  ∀ (i : Instr) (s : State) (m : MemOperand), storeOk m s = true →
    (∀ src, HasForm i s.ip .mov [.mem m, .reg src] → regOk s src = true →
      exec i s = .next (advance i.length (putWord (memSegment m s) (memOffset m s).toNat (s.regs.get src) s))) ∧
    (∀ v, HasForm i s.ip .mov [.mem m, .imm8 v] →
      exec i s = .next (advance i.length (putByte (memSegment m s) (memOffset m s).toNat v s)))

/-- LEA (R114): leaRB8, leaRB16. The offset BP +16 displacement is loaded; the segment is not read and memory not
accessed. An unwritten BP is an UninitialisedRead. -/
def Obligations.LeaResult : Prop :=
  ∀ (i : Instr) (s : State) (g : Gpr) (m : MemOperand), HasForm i s.ip .lea [.reg (.gpr g), .mem m] →
    (regOk s (.gpr .bp) = true → exec i s = .next (advance i.length (writeReg (.gpr g) (gpr s .bp + m.disp) s))) ∧
    (regOk s (.gpr .bp) = false → exec i s = .fault (.uninitialisedRead (.reg (.gpr .bp))))

/-! ### ENTER, LEAVE, STOSW: results -/

/-- ENTER n, 0 (R115): enterI16. BP is pushed, BP becomes SP, and SP falls by n. -/
def Obligations.EnterResult : Prop :=
  ∀ (i : Instr) (s : State) (n : Word), HasForm i s.ip .enter [.imm16 n, .imm8 0#8] → regOk s (.gpr .bp) = true →
    pushOk s = true →
    exec i s = .next (advance i.length (writeReg (.gpr .sp) (gpr s .sp - 2#16 - n)
      (writeReg (.gpr .bp) (gpr s .sp - 2#16) (pushed (gpr s .bp) s))))

/-- LEAVE (R116): SP becomes BP + 6, BP, CS and IP get the three words from BP on, and IP is not advanced. -/
def Obligations.LeaveResult : Prop :=
  ∀ (i : Instr) (s : State), HasForm i s.ip .leave [] → regOk s (.gpr .bp) = true → regOk s (.seg .ss) = true →
    (∀ k, k < 3 → inBounds s (sreg s .ss) (gpr s .bp + BitVec.ofNat 16 (2 * k)).toNat 2 = true) →
    let word := fun k : Nat => wordAt s (sreg s .ss) (gpr s .bp + BitVec.ofNat 16 (2 * k)).toNat
    exec i s = .next (writeIp (word 2) (writeReg (.gpr .sp) (gpr s .bp + 6#16)
      (writeReg (.seg .cs) (word 1) (writeReg (.gpr .bp) (word 0) s))))

/-- STOSW with an even CX (R117): stosw, repStosw, repneStosw. CX / 2 words of AX are stored from (ES, DI) on, wrapping, DI
rises by CX, CX ends at 0, and no other byte, register or flag changes. With CX = 0 nothing is stored and AX, DI and ES
are not read. -/
def Obligations.StoswEvenResult : Prop :=
  ∀ (i : Instr) (s : State), HasForm i s.ip .stosw [] → Memory.wf s.mem = true → regOk s (.gpr .cx) = true →
    (gpr s .cx = 0#16 → exec i s = .next (advance i.length s)) ∧
    (gpr s .cx ≠ 0#16 → (gpr s .cx).toNat % 2 = 0 → stoswRegsOk s = true → registered s (sreg s .es) = true →
      (∀ k, k < (gpr s .cx).toNat / 2 → stoswOffset s k ≠ 0xFFFF#16) →
      ∃ t, exec i s = .next t ∧
        gpr t .cx = 0#16 ∧ gpr t .di = gpr s .di + gpr s .cx ∧ RegsKept s t [.gpr .cx, .gpr .di] ∧ t.flags = s.flags ∧
        t.ip = s.ip + BitVec.ofNat 16 i.length ∧
        (∀ k, k < (gpr s .cx).toNat / 2 → wordAt t (sreg s .es) (stoswOffset s k).toNat = gpr s .ax) ∧
        (∀ g o, o < 65536 →
          ¬(g = sreg s .es ∧ ∃ k, k < (gpr s .cx).toNat / 2 ∧ (o = (stoswOffset s k).toNat ∨ o = (stoswOffset s k).toNat + 1)) →
          byteAt t g o = byteAt s g o))

/-- STOSW with an odd CX and an even DI in a registered segment never ends (R117, R150): the step diverges. -/
def Obligations.StoswOddDiverges : Prop :=
  ∀ (i : Instr) (s : State), HasForm i s.ip .stosw [] → regOk s (.gpr .cx) = true → stoswRegsOk s = true →
    registered s (sreg s .es) = true → (gpr s .cx).toNat % 2 = 1 → (gpr s .di).toNat % 2 = 0 →
    exec i s = .fault .diverges

/-- STOSW faults (R117): an unregistered ES at the first word, and an odd DI when the loop reaches offset 0xFFFF, which an
odd CX always does. -/
def Obligations.StoswFaults : Prop :=
  ∀ (i : Instr) (s : State), HasForm i s.ip .stosw [] → regOk s (.gpr .cx) = true → stoswRegsOk s = true →
    gpr s .cx ≠ 0#16 →
    (registered s (sreg s .es) = false → exec i s = .fault (.segmentFault (sreg s .es) (gpr s .di).toNat)) ∧
    (registered s (sreg s .es) = true → (gpr s .di).toNat % 2 = 1 →
      ((gpr s .cx).toNat % 2 = 1 ∨ (0xFFFF - (gpr s .di).toNat) / 2 < (gpr s .cx).toNat / 2) →
      exec i s = .fault (.segmentFault (sreg s .es) 0xFFFF))

/-! ### Control transfer: results -/

/-- The jumps (R118 to R125, R77): jeRel8 to jbeRel16, jmpRel8, jmpRel16. For a conditional jump IP becomes the target when
the condition of JCC_TABLE holds and advances by the length otherwise; for JMP it becomes the target. The target is IP plus
the length plus the sign-extended rel8 or the rel16 of the instruction's bytes. Nothing else changes. An unwritten flag that
the jump reads is an UninitialisedRead. That JL, JGE, JLE and JBE always read both flags, ZF first, is the model's reading of
R121 to R124 (DEDUCED, log entry 9). -/
def Obligations.JumpResult : Prop :=
  ∀ (i : Instr) (s : State) (m : Mnemonic) (target : Word), HasForm i s.ip m [.nearBranch target] → m ≠ .call →
    (∀ cond, jumpCondition m = some cond →
      (jumpFlagsOk m s = true → exec i s = .next (if cond s.zf s.cf then writeIp target s else advance i.length s)) ∧
      (canRead .zf s = false → exec i s = .fault (.uninitialisedRead .zf)) ∧
      (canRead .zf s = true → jumpFlagsOk m s = false → exec i s = .fault (.uninitialisedRead .cf))) ∧
    (m = .jmp → exec i s = .next (writeIp target s)) ∧
    ((∃ op rel, encode i = [op, rel] ∧ target = s.ip + 2#16 + rel.signExtend 16 ∧
        (m, op) ∈ [(.je, 0x74#8), (.jne, 0x75#8), (.jbe, 0x76#8), (.jl, 0x7C#8), (.jge, 0x7D#8), (.jle, 0x7E#8), (.jmp, 0xEB#8)]) ∨
      (∃ op lo hi, encode i = [0x0F#8, op, lo, hi] ∧ target = s.ip + 4#16 + (hi ++ lo) ∧
        (m, op) ∈ [(.je, 0x84#8), (.jne, 0x85#8), (.jbe, 0x86#8), (.jl, 0x8C#8), (.jge, 0x8D#8), (.jle, 0x8E#8)]) ∨
      (∃ lo hi, encode i = [0xE9#8, lo, hi] ∧ target = s.ip + 3#16 + (hi ++ lo) ∧ m = .jmp))

/-- CALL near (R126, R77): callRel16. The CALL's own offset and CS are pushed, BP becomes SP, and IP the target, which is IP
plus the length plus the rel16 of the instruction's bytes. -/
def Obligations.CallNearResult : Prop :=
  ∀ (i : Instr) (s : State) (target : Word), HasForm i s.ip .call [.nearBranch target] →
    (callOk s = true → exec i s = .next (writeIp target (called s))) ∧
    (∃ lo hi, encode i = [0xE8#8, lo, hi] ∧ target = s.ip + 3#16 + (hi ++ lo))

/-- CALL far at an import record (R127): callFar. After the pushes the callback runs, its value is ignored, and CS and IP are
popped from the stack as it left it; IP is the popped word plus the length. -/
def Obligations.CallFarResult : Prop :=
  ∀ (i : Instr) (s : State) (sel m f w : Word) (ws : List HostWrite), HasForm i s.ip .call [.farBranch sel 0xFFFF#16] →
    callOk s = true → relocHere s = some (.importRef m f) → hostReply m f (called s) = .returned w ws →
    let u := applyHostWrites (recordInvoke m f (called s)) ws
    popOk u = true →
    let v := writeReg (.seg .cs) (popValue u) (popped u)
    popOk v = true → exec i s = .next (writeIp (popValue v + BitVec.ofNat 16 i.length) (popped v))

/-- CALL far with no import to call (R127, R128): no record is UnresolvedExternalCall at the CALL, an Internal record is
unsupported. -/
def Obligations.CallFarFaults : Prop :=
  ∀ (i : Instr) (s : State) (sel : Word), HasForm i s.ip .call [.farBranch sel 0xFFFF#16] → callOk s = true →
    (relocHere s = none → exec i s = .fault (.unresolvedExternalCall (sreg s .cs) s.ip)) ∧
    (∀ v, relocHere s = some (.internalRef v) → exec i s = .fault (.unsupportedInstruction (.instr i)))

/-- A callback that does not return (R55, R99, R104, R127), from a MOV of 0xFFFF or a far CALL at an import record: HostFault where
it fails, and a step that never ends where it never returns. -/
def Obligations.FailedCallbackEndsTheStep : Prop :=
  ∀ (i : Instr) (s : State) (m f : Word), relocHere s = some (.importRef m f) →
    (∀ dst, HasForm i s.ip .mov [dst, .imm16 0xFFFF#16] → regOk s (.seg .cs) = true →
      (hostReply m f s = .failed → exec i s = .fault (.hostFault m f)) ∧
      (hostReply m f s = .never → exec i s = .fault .diverges)) ∧
    (∀ sel, HasForm i s.ip .call [.farBranch sel 0xFFFF#16] → callOk s = true →
      (hostReply m f (called s) = .failed → exec i s = .fault (.hostFault m f)) ∧
      (hostReply m f (called s) = .never → exec i s = .fault .diverges))

/-! ### Frames: what an instruction leaves unchanged whenever it completes -/

/-- ADD, INC, XOR, OR, SHL, LEA and CMP: no register but the destination changes (none for CMP), no byte of memory, and no bit
of F but ZF and CF (ZF only for INC, none for LEA). -/
def Obligations.AluFrame : Prop :=
  ∀ (i : Instr) (s t : State) (m : Mnemonic) (ops : List Operand), HasForm i s.ip m ops →
    m ∈ [.add, .cmp, .inc, .xor, .or, .shl, .lea] → exec i s = .next t →
    RegsKept s t (match m, ops with | .cmp, _ => [] | _, .reg r :: _ => [r] | _, _ => []) ∧ BytesKept s t ∧ FixedKept s t ∧
    t.flags &&& 0xFFBE#16 = s.flags &&& 0xFFBE#16 ∧ (m = .inc → t.cf = s.cf) ∧ (m = .lea → t.flags = s.flags) ∧
    t.hostReplies = s.hostReplies

/-- PUSH, POP, ENTER, LEAVE and CALL near: only SP and the registers the rule names change (the destination of POP; BP of
ENTER, LEAVE and CALL; CS of LEAVE), F does not, POP and LEAVE change no byte, and the others change none outside the words
pushed. -/
def Obligations.StackFrame : Prop :=
  ∀ (i : Instr) (s t : State) (m : Mnemonic) (ops : List Operand), HasForm i s.ip m ops → exec i s = .next t →
    (m = .push → RegsKept s t [.gpr .sp] ∧ t.flags = s.flags ∧ FixedKept s t ∧
      BytesKeptOutside s t (sreg s .ss) (gpr s .sp - 2#16) 2) ∧
    (∀ r, m = .pop → ops = [.reg r] → RegsKept s t [.gpr .sp, r] ∧ t.flags = s.flags ∧ FixedKept s t ∧ BytesKept s t) ∧
    (m = .enter → RegsKept s t [.gpr .sp, .gpr .bp] ∧ t.flags = s.flags ∧ FixedKept s t ∧
      BytesKeptOutside s t (sreg s .ss) (gpr s .sp - 2#16) 2) ∧
    (m = .leave → RegsKept s t [.gpr .sp, .gpr .bp, .seg .cs] ∧ t.flags = s.flags ∧ FixedKept s t ∧ BytesKept s t) ∧
    (∀ target, m = .call → ops = [.nearBranch target] →
      RegsKept s t [.gpr .sp, .gpr .bp] ∧ t.flags = s.flags ∧ FixedKept s t ∧
      (∀ g o, o < 65536 →
        ¬(g = sreg s .ss ∧ (gpr s .sp - 2#16).toNat ≤ o ∧ o < (gpr s .sp - 2#16).toNat + 2) →
        ¬(g = sreg s .ss ∧ (gpr s .sp - 4#16).toNat ≤ o ∧ o < (gpr s .sp - 4#16).toNat + 2) → byteAt t g o = byteAt s g o))

/-- MOV with no callback (the source is not 0xFFFF at an import record): a register destination alone changes, or the bytes of
a memory destination at its effective address; F does not change. -/
def Obligations.MovFrame : Prop :=
  ∀ (i : Instr) (s t : State) (dst src : Operand), HasForm i s.ip .mov [dst, src] → exec i s = .next t →
    makesCallback i s = false →
    t.flags = s.flags ∧ FixedKept s t ∧ t.hostReplies = s.hostReplies ∧
    (∀ r, dst = .reg r → RegsKept s t [r] ∧ BytesKept s t) ∧
    (∀ m seg off, dst = .mem m → effectiveAddress m s = .ok (seg, off) →
      RegsKept s t [] ∧ BytesKeptOutside s t seg off (match m.size with | .byte => 1 | .word => 2))

/-- The jumps change IP alone. -/
def Obligations.JumpFrame : Prop :=
  ∀ (i : Instr) (s t : State) (m : Mnemonic) (target : Word), HasForm i s.ip m [.nearBranch target] → m ≠ .call →
    exec i s = .next t → { t with ip := s.ip, ipWritten := s.ipWritten } = s ∧
      (t.ip = target ∨ t.ip = s.ip + BitVec.ofNat 16 i.length)

/-- STOSW: whenever it completes, CX is 0, only CX and DI have changed among the registers, F has not, and no byte outside
the words at DI, DI + 2, ... of segment ES has. -/
def Obligations.StoswFrame : Prop :=
  ∀ (i : Instr) (s t : State), HasForm i s.ip .stosw [] → exec i s = .next t →
    gpr t .cx = 0#16 ∧ (gpr s .cx).toNat % 2 = 0 ∧ RegsKept s t [.gpr .cx, .gpr .di] ∧ t.flags = s.flags ∧ FixedKept s t ∧
    (∀ g o, o < 65536 →
      ¬(g = sreg s .es ∧ ∃ k, k < (gpr s .cx).toNat / 2 ∧ (o = (stoswOffset s k).toNat ∨ o = (stoswOffset s k).toNat + 1)) →
      byteAt t g o = byteAt s g o)

/-- CALL far: whatever the callback did, BP apart, what changes between the callback's end and the end of the step is SP, CS
and IP alone: no byte, flag or other register (R127). -/
def Obligations.CallFarFrame : Prop :=
  ∀ (i : Instr) (s t : State) (sel : Word), HasForm i s.ip .call [.farBranch sel 0xFFFF#16] → exec i s = .next t →
    ∃ m f w ws, relocHere s = some (.importRef m f) ∧ hostReply m f (called s) = .returned w ws ∧
      let u := applyHostWrites (recordInvoke m f (called s)) ws
      RegsKept u t [.gpr .sp, .seg .cs] ∧ t.flags = u.flags ∧ t.mem = u.mem ∧ FixedKept s t ∧
      t.hostCalls = .invoke m f :: s.hostCalls ∧ t.hostReplies = s.hostReplies.tail

/-! ### The step -/

/-- A step runs the decoded instruction (R90, R91): in a running context with CS and IP readable, when the index of the segment
named by CS has an admitted instruction at IP, the step is that instruction's meaning. -/
def Obligations.StepRunsTheDecodedInstruction : Prop :=
  ∀ (s : State) (g : Segment) (i : Instr), s.status = .running → regOk s (.seg .cs) = true → canRead .ip s = true →
    findSegment s.store (sreg s .cs) = some g → indexAt g s.ip.toNat = some (.instr i) → i.wellFormed = true →
    step s = exec i s

/-- The faults before any handler, in their order (R39, R91, R92, R94, R130): an unwritten CS, then an unwritten IP, an
unregistered CS, no instruction start at IP, and an entry that is Other or not admitted. Where there is an entry, it is what
Fetch gives. That CS is named when CS and IP are both unwritten is the model's reading (DEDUCED, log entry 17). -/
def Obligations.StepFaultsBeforeTheHandler : Prop :=
  ∀ (s : State), s.status = .running →
    (regOk s (.seg .cs) = false → step s = .fault (.uninitialisedRead (.reg (.seg .cs)))) ∧
    (regOk s (.seg .cs) = true → canRead .ip s = false → step s = .fault (.uninitialisedRead .ip)) ∧
    (regOk s (.seg .cs) = true → canRead .ip s = true →
      (findSegment s.store (sreg s .cs) = none → step s = .fault (.segmentFault (sreg s .cs) s.ip.toNat)) ∧
      (∀ g, findSegment s.store (sreg s .cs) = some g →
        (indexAt g s.ip.toNat = none → step s = .fault (.invalidControlFlow (sreg s .cs) s.ip.toNat)) ∧
        (∀ d, indexAt g s.ip.toNat = some d → fetch s = .ok d) ∧
        (∀ d, indexAt g s.ip.toNat = some d → (∀ i, d = .instr i → i.wellFormed = false) →
          step s = .fault (.unsupportedInstruction d))))

/-- Taking a fault (R30, R131 to R133): the host's Step records it in the status, the segments stay as they were, and the faulted
context has no further step. Registers, flags and bytes are free values. -/
def Obligations.FaultEndsTheContext : Prop :=
  ∀ (s : State) (k : Fault), k ≠ .diverges → step s = .fault k →
    (hostStep s).1 = .faulted k ∧ (hostStep s).2.status = .faulted k ∧ (hostStep s).2.store = s.store ∧
    step (hostStep s).2 = .refused (.contextFaulted k) ∧ (hostStep (hostStep s).2).2 = (hostStep s).2

/-- How a step can stop (R104, R128, R129, R133): its fault is of code 1, 2, 3, 6, 8 or 9, or it diverges; with RESET_REGS = draw it
is never code 9; only STOSW, and an instruction whose callback never returns, diverges; and the only refusal is a faulted
context's, so every instruction has a meaning. -/
def Obligations.StepStopsOnlyAsTheSpecSays : Prop :=
  ∀ (s : State),
    (∀ k, step s = .fault k →
      k = .diverges ∨ k.code = some 1 ∨ k.code = some 2 ∨ k.code = some 3 ∨ k.code = some 6 ∨ k.code = some 8 ∨ k.code = some 9) ∧
    (∀ item, s.cfg.resetRegs = .draw → step s ≠ .fault (.uninitialisedRead item)) ∧
    (∀ i, exec i s = .fault .diverges → (i.decoded s.ip).mnemonic = .stosw ∨
      (∃ m, .mem m ∈ (i.decoded s.ip).ops ∧ viaHost m s = true ∧ hostAnswer m s = none) ∨
      ∃ m f, relocHere s = some (.importRef m f) ∧
        ((i.decoded s.ip).mnemonic = .mov ∧ hostReply m f s = .never ∨
         (i.decoded s.ip).mnemonic = .call ∧ hostReply m f (called s) = .never)) ∧
    (∀ r, step s = .refused r → ∃ k, s.status = .faulted k ∧ r = .contextFaulted k)

/-- No step changes the registered segments, their decoded indexes or relocation records, the arena cursor or the construction
parameters, and a step that completes leaves the status Running (R30, R35, R55, R61, R132). -/
def Obligations.StepNeverChangesCode : Prop :=
  ∀ (s t : State), step s = .next t → FixedKept s t ∧ t.status = .running

/-- The invariant of a context is kept by every step: canonical memory, bytes of registered segments only, each ordinal once,
data segments undecoded, the cursor at most 65536 (R31, R34, R35, R40). -/
def Obligations.StepKeepsInvariant : Prop :=
  ∀ (s t : State), contextInv s = true → step s = .next t → contextInv t = true

/-- The state at context creation (R38): the Segment Store is empty, the arena cursor 0 and the status Running, every register
and flag is unwritten. That no byte is listed and the invariant holds is the model's representation (DESIGN CHOICE, log
entry 5). Nothing is said of the registers' values (log entry 2). -/
def Obligations.ResetMeetsInvariant : Prop :=
  State.reset.store = [] ∧ State.reset.mem = [] ∧ State.reset.arena = 0 ∧ State.reset.status = .running ∧
  (∀ item, itemWritten State.reset item = false) ∧ contextInv State.reset = true

/-- The host's operations keep the invariant too (R41, R43, R46, R53, R131). -/
def Obligations.HostOperationsKeepInvariant : Prop :=
  ∀ (s t : State) (u : Unit), contextInv s = true →
    (∀ g data isCode relocs, hostRegister g data isCode relocs s = .ok u t → contextInv t = true) ∧
    (∀ g o b, hostWriteByte g o b s = .ok u t → contextInv t = true) ∧
    (∀ g o v, hostWriteWord g o v s = .ok u t → contextInv t = true) ∧
    (∀ g o bytes, hostWriteRange g o bytes s = .ok u t → contextInv t = true) ∧
    (∀ size c, hostAllocate size s = .ok c t → contextInv t = true) ∧
    contextInv (hostStep s).2 = true

/-! ### Consequences the spec points out -/

/-- CS is written by LEAVE, CALL far and the host alone (R22): an admitted instruction other than LEAVE that makes no callback
leaves it. (A far CALL that completes makes one.) -/
def Obligations.CsIsLoadedByLeaveAndFarCallOnly : Prop :=
  ∀ (i : Instr) (s t : State), i.wellFormed = true → exec i s = .next t → makesCallback i s = false →
    (i.decoded s.ip).mnemonic ≠ .leave → t.regs.get (.seg .cs) = s.regs.get (.seg .cs)

/-- F is written by ADD, CMP, INC, XOR, OR and SHL alone, and no instruction writes a bit of it other than ZF and CF, unless a
callback does (R25 to R27). -/
def Obligations.FlagsAreWrittenByTheAluOnly : Prop :=
  ∀ (i : Instr) (s t : State), exec i s = .next t → makesCallback i s = false →
    t.flags &&& 0xFFBE#16 = s.flags &&& 0xFFBE#16 ∧
    (¬(i.decoded s.ip).mnemonic ∈ [.add, .cmp, .inc, .xor, .or, .shl] →
      t.flags = s.flags ∧ t.zfWritten = s.zfWritten ∧ t.cfWritten = s.cfWritten)

/-- PUSH then POP (R112): of any word, into any admitted register, the register gets the word, and SP, unless it is that
register, its old value. -/
def Obligations.PushThenPopRestores : Prop :=
  ∀ (i j : Instr) (s t u : State) (src : Operand) (r : Reg), Memory.wf s.mem = true →
    HasForm i s.ip .push [src] → operandOk src s = true → HasForm j t.ip .pop [.reg r] →
    exec i s = .next t → exec j t = .next u →
    u.regs.get r = operandValue src s ∧ (r ≠ .gpr .sp → gpr u .sp = gpr s .sp)

/-- ENTER n, 0 then LEAVE (R116, conflict C3): whenever both complete, wherever SP stands, BP is back, SP ends 4 above its
value before ENTER, and CS and IP are the two words above the frame, at the old SP and 2 above it, mod 65536. -/
def Obligations.EnterThenLeave : Prop :=
  ∀ (s t u : State) (n : Word), Memory.wf s.mem = true → exec (.enterI16 n) s = .next t → exec .leave t = .next u →
    gpr u .bp = gpr s .bp ∧ gpr u .sp = gpr s .sp + 4#16 ∧
    sreg u .cs = wordAt s (sreg s .ss) (gpr s .sp).toNat ∧ u.ip = wordAt s (sreg s .ss) (gpr s .sp + 2#16).toNat

/-- A near CALL answered by ENTER and LEAVE returns to the CALL itself (R116, R149), with CS and SP as they were and BP the SP
the CALL left, whenever all three complete, wherever SP stands. -/
def Obligations.CallEnterLeaveReturnsToTheCall : Prop :=
  ∀ (s t u v : State) (rel n : Word), Memory.wf s.mem = true →
    exec (.callRel16 rel) s = .next t → exec (.enterI16 n) t = .next u → exec .leave u = .next v →
    v.ip = s.ip ∧ sreg v .cs = sreg s .cs ∧ gpr v .sp = gpr s .sp ∧ gpr v .bp = gpr s .sp - 4#16

/-- A conditional jump after CMP a, b (R118): JE iff equal, JL iff a <u b, JGE iff a >=u b, JLE and JBE iff a <=u b; and CMP
never leaves both flags set (R106). -/
def Obligations.JumpAfterCompareIsUnsigned : Prop :=
  ∀ (i j : Instr) (s t : State) (dst src : Operand) (m : Mnemonic) (target : Word),
    HasForm i s.ip .cmp [dst, src] → operandOk dst s = true → operandOk src s = true → exec i s = .next t →
    HasForm j t.ip m [.nearBranch target] →
    let a := (operandValue dst s).toNat
    let b := (operandValue src s).toNat
    ¬(t.zf = true ∧ t.cf = true) ∧
    (m = .je → exec j t = .next (if a = b then writeIp target t else advance j.length t)) ∧
    (m = .jne → exec j t = .next (if a ≠ b then writeIp target t else advance j.length t)) ∧
    (m = .jl → exec j t = .next (if a < b then writeIp target t else advance j.length t)) ∧
    (m = .jge → exec j t = .next (if b ≤ a then writeIp target t else advance j.length t)) ∧
    (m = .jle ∨ m = .jbe → exec j t = .next (if a ≤ b then writeIp target t else advance j.length t))

/-- The handlers' faults in their order (R130 item 5): for every instruction, the first of its handler's checks that fails,
in the order its pseudocode reaches them (`handlerFault`, R105 to R127), is the fault of the instruction; and when none fails
the instruction completes. For STOSW these are the checks up to its first store. Which of two registers that one statement
reads is named first is the model's reading (DEDUCED, log entries 9 and 17). -/
def Obligations.HandlerFaultsInOrder : Prop :=
  ∀ (i : Instr) (s : State) (m : Mnemonic) (ops : List Operand), HasForm i s.ip m ops →
    (∀ k, handlerFault (.instr i) m ops s = some k → exec i s = .fault k) ∧
    (m ≠ .stosw → handlerFault (.instr i) m ops s = none → ∃ t, exec i s = .next t)
end

