-- ==== Sys2Proof/Laws/State.lean ====
section
/-!
SUPPORT. One lemma per field of State per update, and the read-after-write laws of the register bank and
the flags register.
-/

namespace Sys2Proof.Machine

variable (s : State)

/-! ### writeReg -/

@[simp] theorem writeReg_regs (r : Reg) (v : Word) : (writeReg r v s).regs = s.regs.set r v := rfl
@[simp] theorem writeReg_ip (r : Reg) (v : Word) : (writeReg r v s).ip = s.ip := rfl
@[simp] theorem writeReg_flags (r : Reg) (v : Word) : (writeReg r v s).flags = s.flags := rfl
@[simp] theorem writeReg_written (r : Reg) (v : Word) : (writeReg r v s).written = s.written.set r true := rfl
@[simp] theorem writeReg_ipWritten (r : Reg) (v : Word) : (writeReg r v s).ipWritten = s.ipWritten := rfl
@[simp] theorem writeReg_zfWritten (r : Reg) (v : Word) : (writeReg r v s).zfWritten = s.zfWritten := rfl
@[simp] theorem writeReg_cfWritten (r : Reg) (v : Word) : (writeReg r v s).cfWritten = s.cfWritten := rfl
@[simp] theorem writeReg_status (r : Reg) (v : Word) : (writeReg r v s).status = s.status := rfl
@[simp] theorem writeReg_store (r : Reg) (v : Word) : (writeReg r v s).store = s.store := rfl
@[simp] theorem writeReg_mem (r : Reg) (v : Word) : (writeReg r v s).mem = s.mem := rfl
@[simp] theorem writeReg_arena (r : Reg) (v : Word) : (writeReg r v s).arena = s.arena := rfl
@[simp] theorem writeReg_cfg (r : Reg) (v : Word) : (writeReg r v s).cfg = s.cfg := rfl
@[simp] theorem writeReg_draws (r : Reg) (v : Word) : (writeReg r v s).draws = s.draws := rfl
@[simp] theorem writeReg_hostReplies (r : Reg) (v : Word) : (writeReg r v s).hostReplies = s.hostReplies := rfl
@[simp] theorem writeReg_hostWords (r : Reg) (v : Word) : (writeReg r v s).hostWords = s.hostWords := rfl
@[simp] theorem writeReg_hostCalls (r : Reg) (v : Word) : (writeReg r v s).hostCalls = s.hostCalls := rfl

/-! ### writeIp -/

@[simp] theorem writeIp_regs (v : Word) : (writeIp v s).regs = s.regs := rfl
@[simp] theorem writeIp_ip (v : Word) : (writeIp v s).ip = v := rfl
@[simp] theorem writeIp_flags (v : Word) : (writeIp v s).flags = s.flags := rfl
@[simp] theorem writeIp_written (v : Word) : (writeIp v s).written = s.written := rfl
@[simp] theorem writeIp_ipWritten (v : Word) : (writeIp v s).ipWritten = true := rfl
@[simp] theorem writeIp_zfWritten (v : Word) : (writeIp v s).zfWritten = s.zfWritten := rfl
@[simp] theorem writeIp_cfWritten (v : Word) : (writeIp v s).cfWritten = s.cfWritten := rfl
@[simp] theorem writeIp_status (v : Word) : (writeIp v s).status = s.status := rfl
@[simp] theorem writeIp_store (v : Word) : (writeIp v s).store = s.store := rfl
@[simp] theorem writeIp_mem (v : Word) : (writeIp v s).mem = s.mem := rfl
@[simp] theorem writeIp_arena (v : Word) : (writeIp v s).arena = s.arena := rfl
@[simp] theorem writeIp_cfg (v : Word) : (writeIp v s).cfg = s.cfg := rfl
@[simp] theorem writeIp_draws (v : Word) : (writeIp v s).draws = s.draws := rfl
@[simp] theorem writeIp_hostReplies (v : Word) : (writeIp v s).hostReplies = s.hostReplies := rfl
@[simp] theorem writeIp_hostWords (v : Word) : (writeIp v s).hostWords = s.hostWords := rfl
@[simp] theorem writeIp_hostCalls (v : Word) : (writeIp v s).hostCalls = s.hostCalls := rfl

/-! ### advance -/

@[simp] theorem advance_regs (n : Nat) : (advance n s).regs = s.regs := rfl
@[simp] theorem advance_ip (n : Nat) : (advance n s).ip = s.ip + BitVec.ofNat 16 n := rfl
@[simp] theorem advance_flags (n : Nat) : (advance n s).flags = s.flags := rfl
@[simp] theorem advance_written (n : Nat) : (advance n s).written = s.written := rfl
@[simp] theorem advance_ipWritten (n : Nat) : (advance n s).ipWritten = true := rfl
@[simp] theorem advance_zfWritten (n : Nat) : (advance n s).zfWritten = s.zfWritten := rfl
@[simp] theorem advance_cfWritten (n : Nat) : (advance n s).cfWritten = s.cfWritten := rfl
@[simp] theorem advance_status (n : Nat) : (advance n s).status = s.status := rfl
@[simp] theorem advance_store (n : Nat) : (advance n s).store = s.store := rfl
@[simp] theorem advance_mem (n : Nat) : (advance n s).mem = s.mem := rfl
@[simp] theorem advance_arena (n : Nat) : (advance n s).arena = s.arena := rfl
@[simp] theorem advance_cfg (n : Nat) : (advance n s).cfg = s.cfg := rfl
@[simp] theorem advance_draws (n : Nat) : (advance n s).draws = s.draws := rfl
@[simp] theorem advance_hostReplies (n : Nat) : (advance n s).hostReplies = s.hostReplies := rfl
@[simp] theorem advance_hostWords (n : Nat) : (advance n s).hostWords = s.hostWords := rfl
@[simp] theorem advance_hostCalls (n : Nat) : (advance n s).hostCalls = s.hostCalls := rfl

/-! ### writeZf -/

@[simp] theorem writeZf_regs (b : Bool) : (writeZf b s).regs = s.regs := rfl
@[simp] theorem writeZf_ip (b : Bool) : (writeZf b s).ip = s.ip := rfl
@[simp] theorem writeZf_flags (b : Bool) : (writeZf b s).flags = setBit s.flags zfMask b := rfl
@[simp] theorem writeZf_written (b : Bool) : (writeZf b s).written = s.written := rfl
@[simp] theorem writeZf_ipWritten (b : Bool) : (writeZf b s).ipWritten = s.ipWritten := rfl
@[simp] theorem writeZf_zfWritten (b : Bool) : (writeZf b s).zfWritten = true := rfl
@[simp] theorem writeZf_cfWritten (b : Bool) : (writeZf b s).cfWritten = s.cfWritten := rfl
@[simp] theorem writeZf_status (b : Bool) : (writeZf b s).status = s.status := rfl
@[simp] theorem writeZf_store (b : Bool) : (writeZf b s).store = s.store := rfl
@[simp] theorem writeZf_mem (b : Bool) : (writeZf b s).mem = s.mem := rfl
@[simp] theorem writeZf_arena (b : Bool) : (writeZf b s).arena = s.arena := rfl
@[simp] theorem writeZf_cfg (b : Bool) : (writeZf b s).cfg = s.cfg := rfl
@[simp] theorem writeZf_draws (b : Bool) : (writeZf b s).draws = s.draws := rfl
@[simp] theorem writeZf_hostReplies (b : Bool) : (writeZf b s).hostReplies = s.hostReplies := rfl
@[simp] theorem writeZf_hostWords (b : Bool) : (writeZf b s).hostWords = s.hostWords := rfl
@[simp] theorem writeZf_hostCalls (b : Bool) : (writeZf b s).hostCalls = s.hostCalls := rfl

/-! ### writeCf -/

@[simp] theorem writeCf_regs (b : Bool) : (writeCf b s).regs = s.regs := rfl
@[simp] theorem writeCf_ip (b : Bool) : (writeCf b s).ip = s.ip := rfl
@[simp] theorem writeCf_flags (b : Bool) : (writeCf b s).flags = setBit s.flags cfMask b := rfl
@[simp] theorem writeCf_written (b : Bool) : (writeCf b s).written = s.written := rfl
@[simp] theorem writeCf_ipWritten (b : Bool) : (writeCf b s).ipWritten = s.ipWritten := rfl
@[simp] theorem writeCf_zfWritten (b : Bool) : (writeCf b s).zfWritten = s.zfWritten := rfl
@[simp] theorem writeCf_cfWritten (b : Bool) : (writeCf b s).cfWritten = true := rfl
@[simp] theorem writeCf_status (b : Bool) : (writeCf b s).status = s.status := rfl
@[simp] theorem writeCf_store (b : Bool) : (writeCf b s).store = s.store := rfl
@[simp] theorem writeCf_mem (b : Bool) : (writeCf b s).mem = s.mem := rfl
@[simp] theorem writeCf_arena (b : Bool) : (writeCf b s).arena = s.arena := rfl
@[simp] theorem writeCf_cfg (b : Bool) : (writeCf b s).cfg = s.cfg := rfl
@[simp] theorem writeCf_draws (b : Bool) : (writeCf b s).draws = s.draws := rfl
@[simp] theorem writeCf_hostReplies (b : Bool) : (writeCf b s).hostReplies = s.hostReplies := rfl
@[simp] theorem writeCf_hostWords (b : Bool) : (writeCf b s).hostWords = s.hostWords := rfl
@[simp] theorem writeCf_hostCalls (b : Bool) : (writeCf b s).hostCalls = s.hostCalls := rfl

/-! ### setFlags -/

@[simp] theorem setFlags_regs (v : Word) : (setFlags v s).regs = s.regs := rfl
@[simp] theorem setFlags_ip (v : Word) : (setFlags v s).ip = s.ip := rfl
@[simp] theorem setFlags_flags (v : Word) : (setFlags v s).flags = v := rfl
@[simp] theorem setFlags_written (v : Word) : (setFlags v s).written = s.written := rfl
@[simp] theorem setFlags_ipWritten (v : Word) : (setFlags v s).ipWritten = s.ipWritten := rfl
@[simp] theorem setFlags_zfWritten (v : Word) : (setFlags v s).zfWritten = true := rfl
@[simp] theorem setFlags_cfWritten (v : Word) : (setFlags v s).cfWritten = true := rfl
@[simp] theorem setFlags_status (v : Word) : (setFlags v s).status = s.status := rfl
@[simp] theorem setFlags_store (v : Word) : (setFlags v s).store = s.store := rfl
@[simp] theorem setFlags_mem (v : Word) : (setFlags v s).mem = s.mem := rfl
@[simp] theorem setFlags_arena (v : Word) : (setFlags v s).arena = s.arena := rfl
@[simp] theorem setFlags_cfg (v : Word) : (setFlags v s).cfg = s.cfg := rfl
@[simp] theorem setFlags_draws (v : Word) : (setFlags v s).draws = s.draws := rfl
@[simp] theorem setFlags_hostReplies (v : Word) : (setFlags v s).hostReplies = s.hostReplies := rfl
@[simp] theorem setFlags_hostWords (v : Word) : (setFlags v s).hostWords = s.hostWords := rfl
@[simp] theorem setFlags_hostCalls (v : Word) : (setFlags v s).hostCalls = s.hostCalls := rfl

/-! ### putByte -/

@[simp] theorem putByte_regs (g : Word) (o : Nat) (b : Byte) : (putByte g o b s).regs = s.regs := rfl
@[simp] theorem putByte_ip (g : Word) (o : Nat) (b : Byte) : (putByte g o b s).ip = s.ip := rfl
@[simp] theorem putByte_flags (g : Word) (o : Nat) (b : Byte) : (putByte g o b s).flags = s.flags := rfl
@[simp] theorem putByte_written (g : Word) (o : Nat) (b : Byte) : (putByte g o b s).written = s.written := rfl
@[simp] theorem putByte_ipWritten (g : Word) (o : Nat) (b : Byte) : (putByte g o b s).ipWritten = s.ipWritten := rfl
@[simp] theorem putByte_zfWritten (g : Word) (o : Nat) (b : Byte) : (putByte g o b s).zfWritten = s.zfWritten := rfl
@[simp] theorem putByte_cfWritten (g : Word) (o : Nat) (b : Byte) : (putByte g o b s).cfWritten = s.cfWritten := rfl
@[simp] theorem putByte_status (g : Word) (o : Nat) (b : Byte) : (putByte g o b s).status = s.status := rfl
@[simp] theorem putByte_store (g : Word) (o : Nat) (b : Byte) : (putByte g o b s).store = s.store := rfl
@[simp] theorem putByte_mem (g : Word) (o : Nat) (b : Byte) : (putByte g o b s).mem = Memory.write s.mem (cellKey g o) b := rfl
@[simp] theorem putByte_arena (g : Word) (o : Nat) (b : Byte) : (putByte g o b s).arena = s.arena := rfl
@[simp] theorem putByte_cfg (g : Word) (o : Nat) (b : Byte) : (putByte g o b s).cfg = s.cfg := rfl
@[simp] theorem putByte_draws (g : Word) (o : Nat) (b : Byte) : (putByte g o b s).draws = s.draws := rfl
@[simp] theorem putByte_hostReplies (g : Word) (o : Nat) (b : Byte) : (putByte g o b s).hostReplies = s.hostReplies := rfl
@[simp] theorem putByte_hostWords (g : Word) (o : Nat) (b : Byte) : (putByte g o b s).hostWords = s.hostWords := rfl
@[simp] theorem putByte_hostCalls (g : Word) (o : Nat) (b : Byte) : (putByte g o b s).hostCalls = s.hostCalls := rfl

/-! ### putWord -/

@[simp] theorem putWord_regs (g : Word) (o : Nat) (v : Word) : (putWord g o v s).regs = s.regs := rfl
@[simp] theorem putWord_ip (g : Word) (o : Nat) (v : Word) : (putWord g o v s).ip = s.ip := rfl
@[simp] theorem putWord_flags (g : Word) (o : Nat) (v : Word) : (putWord g o v s).flags = s.flags := rfl
@[simp] theorem putWord_written (g : Word) (o : Nat) (v : Word) : (putWord g o v s).written = s.written := rfl
@[simp] theorem putWord_ipWritten (g : Word) (o : Nat) (v : Word) : (putWord g o v s).ipWritten = s.ipWritten := rfl
@[simp] theorem putWord_zfWritten (g : Word) (o : Nat) (v : Word) : (putWord g o v s).zfWritten = s.zfWritten := rfl
@[simp] theorem putWord_cfWritten (g : Word) (o : Nat) (v : Word) : (putWord g o v s).cfWritten = s.cfWritten := rfl
@[simp] theorem putWord_status (g : Word) (o : Nat) (v : Word) : (putWord g o v s).status = s.status := rfl
@[simp] theorem putWord_store (g : Word) (o : Nat) (v : Word) : (putWord g o v s).store = s.store := rfl
@[simp] theorem putWord_mem (g : Word) (o : Nat) (v : Word) : (putWord g o v s).mem = Memory.write (Memory.write s.mem (cellKey g o) (loByte v)) (cellKey g (o + 1)) (hiByte v) := rfl
@[simp] theorem putWord_arena (g : Word) (o : Nat) (v : Word) : (putWord g o v s).arena = s.arena := rfl
@[simp] theorem putWord_cfg (g : Word) (o : Nat) (v : Word) : (putWord g o v s).cfg = s.cfg := rfl
@[simp] theorem putWord_draws (g : Word) (o : Nat) (v : Word) : (putWord g o v s).draws = s.draws := rfl
@[simp] theorem putWord_hostReplies (g : Word) (o : Nat) (v : Word) : (putWord g o v s).hostReplies = s.hostReplies := rfl
@[simp] theorem putWord_hostWords (g : Word) (o : Nat) (v : Word) : (putWord g o v s).hostWords = s.hostWords := rfl
@[simp] theorem putWord_hostCalls (g : Word) (o : Nat) (v : Word) : (putWord g o v s).hostCalls = s.hostCalls := rfl

/-! ### recordInvoke -/

@[simp] theorem recordInvoke_regs (m f : Word) : (recordInvoke m f s).regs = s.regs := rfl
@[simp] theorem recordInvoke_ip (m f : Word) : (recordInvoke m f s).ip = s.ip := rfl
@[simp] theorem recordInvoke_flags (m f : Word) : (recordInvoke m f s).flags = s.flags := rfl
@[simp] theorem recordInvoke_written (m f : Word) : (recordInvoke m f s).written = s.written := rfl
@[simp] theorem recordInvoke_ipWritten (m f : Word) : (recordInvoke m f s).ipWritten = s.ipWritten := rfl
@[simp] theorem recordInvoke_zfWritten (m f : Word) : (recordInvoke m f s).zfWritten = s.zfWritten := rfl
@[simp] theorem recordInvoke_cfWritten (m f : Word) : (recordInvoke m f s).cfWritten = s.cfWritten := rfl
@[simp] theorem recordInvoke_status (m f : Word) : (recordInvoke m f s).status = s.status := rfl
@[simp] theorem recordInvoke_store (m f : Word) : (recordInvoke m f s).store = s.store := rfl
@[simp] theorem recordInvoke_mem (m f : Word) : (recordInvoke m f s).mem = s.mem := rfl
@[simp] theorem recordInvoke_arena (m f : Word) : (recordInvoke m f s).arena = s.arena := rfl
@[simp] theorem recordInvoke_cfg (m f : Word) : (recordInvoke m f s).cfg = s.cfg := rfl
@[simp] theorem recordInvoke_draws (m f : Word) : (recordInvoke m f s).draws = s.draws := rfl
@[simp] theorem recordInvoke_hostReplies (m f : Word) : (recordInvoke m f s).hostReplies = s.hostReplies.tail := rfl
@[simp] theorem recordInvoke_hostWords (m f : Word) : (recordInvoke m f s).hostWords = s.hostWords := rfl
@[simp] theorem recordInvoke_hostCalls (m f : Word) : (recordInvoke m f s).hostCalls = .invoke m f :: s.hostCalls := rfl

/-! ### recordRead -/

@[simp] theorem recordRead_regs (g o : Word) : (recordRead g o s).regs = s.regs := rfl
@[simp] theorem recordRead_ip (g o : Word) : (recordRead g o s).ip = s.ip := rfl
@[simp] theorem recordRead_flags (g o : Word) : (recordRead g o s).flags = s.flags := rfl
@[simp] theorem recordRead_written (g o : Word) : (recordRead g o s).written = s.written := rfl
@[simp] theorem recordRead_ipWritten (g o : Word) : (recordRead g o s).ipWritten = s.ipWritten := rfl
@[simp] theorem recordRead_zfWritten (g o : Word) : (recordRead g o s).zfWritten = s.zfWritten := rfl
@[simp] theorem recordRead_cfWritten (g o : Word) : (recordRead g o s).cfWritten = s.cfWritten := rfl
@[simp] theorem recordRead_status (g o : Word) : (recordRead g o s).status = s.status := rfl
@[simp] theorem recordRead_store (g o : Word) : (recordRead g o s).store = s.store := rfl
@[simp] theorem recordRead_mem (g o : Word) : (recordRead g o s).mem = s.mem := rfl
@[simp] theorem recordRead_arena (g o : Word) : (recordRead g o s).arena = s.arena := rfl
@[simp] theorem recordRead_cfg (g o : Word) : (recordRead g o s).cfg = s.cfg := rfl
@[simp] theorem recordRead_draws (g o : Word) : (recordRead g o s).draws = s.draws := rfl
@[simp] theorem recordRead_hostReplies (g o : Word) : (recordRead g o s).hostReplies = s.hostReplies := rfl
@[simp] theorem recordRead_hostWords (g o : Word) : (recordRead g o s).hostWords = s.hostWords.tail := rfl
@[simp] theorem recordRead_hostCalls (g o : Word) : (recordRead g o s).hostCalls = .readWord g o :: s.hostCalls := rfl

/-! ### The register bank -/

@[simp] theorem Bank.get_set_same {α : Type} (k : Bank α) (r : Reg) (v : α) : (k.set r v).get r = v := by
  rcases r with g | g <;> cases g <;> rfl

theorem Bank.get_set_other {α : Type} (k : Bank α) {r q : Reg} (v : α) (h : q ≠ r) : (k.set r v).get q = k.get q := by
  rcases r with r | r <;> rcases q with q | q <;> cases r <;> cases q <;> first | rfl | exact absurd rfl h

theorem Bank.get_set {α : Type} (k : Bank α) (r q : Reg) (v : α) :
    (k.set r v).get q = if q = r then v else k.get q := by
  split
  · subst q; exact Bank.get_set_same k r v
  · exact Bank.get_set_other k v ‹_›

theorem Bank.set_set {α : Type} (k : Bank α) (r : Reg) (v w : α) : (k.set r v).set r w = k.set r w := by
  rcases r with g | g <;> cases g <;> rfl

theorem Bank.set_comm {α : Type} (k : Bank α) {r q : Reg} (v w : α) (h : q ≠ r) :
    (k.set r v).set q w = (k.set q w).set r v := by
  rcases r with r | r <;> rcases q with q | q <;> cases r <;> cases q <;> first | rfl | exact absurd rfl h

/-! ### The flags register -/

theorem zf_setBit_zf (f : Word) (b : Bool) : (setBit f zfMask b).getLsbD 6 = b := by
  cases b <;> simp [setBit, zfMask, BitVec.getLsbD_or, BitVec.getLsbD_and]

theorem cf_setBit_cf (f : Word) (b : Bool) : (setBit f cfMask b).getLsbD 0 = b := by
  cases b <;> simp [setBit, cfMask, BitVec.getLsbD_or, BitVec.getLsbD_and]

theorem zf_setBit_cf (f : Word) (b : Bool) : (setBit f cfMask b).getLsbD 6 = f.getLsbD 6 := by
  cases b <;> simp [setBit, cfMask, BitVec.getLsbD_or, BitVec.getLsbD_and]

theorem cf_setBit_zf (f : Word) (b : Bool) : (setBit f zfMask b).getLsbD 0 = f.getLsbD 0 := by
  cases b <;> simp [setBit, zfMask, BitVec.getLsbD_or, BitVec.getLsbD_and]

/-- Every bit of F other than CF (bit 0) and ZF (bit 6). -/
theorem setBit_zf_rest (f : Word) (b : Bool) : setBit f zfMask b &&& 0xFFBE#16 = f &&& 0xFFBE#16 := by
  cases b <;> simp only [setBit, zfMask, Bool.false_eq_true, if_true, if_false] <;> ext i hi <;>
    (interval_cases i <;> simp)

theorem setBit_cf_rest (f : Word) (b : Bool) : setBit f cfMask b &&& 0xFFBE#16 = f &&& 0xFFBE#16 := by
  cases b <;> simp only [setBit, cfMask, Bool.false_eq_true, if_true, if_false] <;> ext i hi <;>
    (interval_cases i <;> simp)

@[simp] theorem writeZf_zf (b : Bool) : (writeZf b s).zf = b := zf_setBit_zf _ _
@[simp] theorem writeZf_cf (b : Bool) : (writeZf b s).cf = s.cf := cf_setBit_zf _ _
@[simp] theorem writeCf_cf (b : Bool) : (writeCf b s).cf = b := cf_setBit_cf _ _
@[simp] theorem writeCf_zf (b : Bool) : (writeCf b s).zf = s.zf := zf_setBit_cf _ _

/-! ### What reads look at -/

theorem byteAt_eq_of_mem {s t : State} (h : t.mem = s.mem) (g : Word) (o : Nat) : byteAt t g o = byteAt s g o := by
  rw [byteAt, byteAt, h]

theorem wordAt_eq_of_mem {s t : State} (h : t.mem = s.mem) (g : Word) (o : Nat) : wordAt t g o = wordAt s g o := by
  rw [wordAt, wordAt, byteAt_eq_of_mem h, byteAt_eq_of_mem h]

theorem registered_eq_of_store {s t : State} (h : t.store = s.store) (g : Word) : registered t g = registered s g := by
  rw [registered, registered, h]

theorem inBounds_eq_of_store {s t : State} (h : t.store = s.store) (g : Word) (o n : Nat) :
    inBounds t g o n = inBounds s g o n := by
  rw [inBounds, inBounds, registered_eq_of_store h]

theorem relocAt_eq_of_store {s t : State} (h : t.store = s.store) (g o : Word) : relocAt g o t = relocAt g o s := by
  rw [relocAt, relocAt, h]

end Sys2Proof.Machine
end

