-- ==== Sys2Proof/Laws/Memory.lean ====
section
/-!
SUPPORT. Memory: a read after a write, what a write leaves alone, and that every memory operation keeps
the canonical form (log entry 5).
-/

namespace Sys2Proof.Machine

/-! ### Reading and writing one cell -/

theorem Memory.wf_cons {a : Nat} {b : Byte} {m : List Host.Cell} :
    Memory.wf ((a, b) :: m) = true ↔ b ≠ Config.unlistedByte ∧ (∀ c ∈ m, a < c.1) ∧ Memory.wf m = true := by
  simp [Memory.wf, and_assoc]

/-- An address below every listed one reads as an unlisted one. -/
theorem Memory.read_below {m : List Host.Cell} {x : Nat} (h : ∀ c ∈ m, x < c.1) :
    Memory.read m x = Config.unlistedByte := by
  induction m with
  | nil => rfl
  | cons c m ih =>
    have hc := h c (by simp)
    rw [Memory.read, if_neg (by omega), ih (fun d hd => h d (by simp [hd]))]

theorem Memory.read_put_same {m : List Host.Cell} {x : Nat} (b : Byte) (h : ∀ c ∈ m, x < c.1) :
    Memory.read (Memory.put x b m) x = b := by
  unfold Memory.put
  split
  · rw [Memory.read_below h]; exact Eq.symm ‹_›
  · simp [Memory.read]

theorem Memory.read_put_other {m : List Host.Cell} {x y : Nat} (b : Byte) (h : y ≠ x) :
    Memory.read (Memory.put x b m) y = Memory.read m y := by
  unfold Memory.put
  split
  · rfl
  · rw [Memory.read, if_neg (Ne.symm h)]

/-- A read after a write to the same address gives the byte written. -/
theorem Memory.read_write_same {m : List Host.Cell} (hm : Memory.wf m = true) (x : Nat) (b : Byte) :
    Memory.read (Memory.write m x b) x = b := by
  induction m with
  | nil => exact Memory.read_put_same b (by simp)
  | cons c m ih =>
    obtain ⟨a, d⟩ := c
    obtain ⟨-, hlt, hwf⟩ := Memory.wf_cons.mp hm
    rw [Memory.write]
    split
    · refine Memory.read_put_same b fun c hc => ?_
      obtain rfl | hc := List.mem_cons.mp hc
      · assumption
      · exact Nat.lt_trans ‹_› (hlt c hc)
    · split
      · subst x; exact Memory.read_put_same b hlt
      · rw [Memory.read, if_neg (by omega), ih hwf]

/-- A write leaves every other address alone. -/
theorem Memory.read_write_other (m : List Host.Cell) {x y : Nat} (b : Byte) (h : y ≠ x) :
    Memory.read (Memory.write m x b) y = Memory.read m y := by
  induction m with
  | nil => exact Memory.read_put_other b h
  | cons c m ih =>
    obtain ⟨a, d⟩ := c
    rw [Memory.write]
    split
    · exact Memory.read_put_other b h
    · split
      · rw [Memory.read_put_other b h, Memory.read, if_neg (by omega)]
      · rw [Memory.read, Memory.read, ih]

/-! ### The canonical form -/

theorem Memory.wf_put {m : List Host.Cell} {x : Nat} (b : Byte) (hm : Memory.wf m = true) (h : ∀ c ∈ m, x < c.1) :
    Memory.wf (Memory.put x b m) = true := by
  unfold Memory.put
  split
  · exact hm
  · exact Memory.wf_cons.mpr ⟨‹_›, h, hm⟩

/-- The addresses a write leaves listed. -/
theorem Memory.mem_write {m : List Host.Cell} {x : Nat} {b : Byte} {c : Host.Cell} (h : c ∈ Memory.write m x b) :
    c ∈ m ∨ c.1 = x := by
  have hput : ∀ m', c ∈ Memory.put x b m' → c ∈ m' ∨ c.1 = x := by
    intro m' hc
    unfold Memory.put at hc
    split at hc
    · exact .inl hc
    · obtain rfl | hc := List.mem_cons.mp hc
      · exact .inr rfl
      · exact .inl hc
  induction m with
  | nil => exact hput _ h
  | cons d m ih =>
    obtain ⟨a, e⟩ := d
    rw [Memory.write] at h
    split at h
    · exact hput _ h
    · split at h
      · exact (hput _ h).imp (List.mem_cons_of_mem _) id
      · obtain rfl | hc := List.mem_cons.mp h
        · exact .inl (by simp)
        · exact (ih hc).imp (List.mem_cons_of_mem _) id

/-- A write keeps the canonical form. -/
theorem Memory.wf_write {m : List Host.Cell} (hm : Memory.wf m = true) (x : Nat) (b : Byte) :
    Memory.wf (Memory.write m x b) = true := by
  induction m with
  | nil => exact Memory.wf_put b rfl (by simp)
  | cons c m ih =>
    obtain ⟨a, d⟩ := c
    obtain ⟨hd, hlt, hwf⟩ := Memory.wf_cons.mp hm
    rw [Memory.write]
    split
    · refine Memory.wf_put b hm fun c hc => ?_
      obtain rfl | hc := List.mem_cons.mp hc
      · assumption
      · exact Nat.lt_trans ‹_› (hlt c hc)
    · split
      · subst x; exact Memory.wf_put b hwf hlt
      · refine Memory.wf_cons.mpr ⟨hd, fun c hc => ?_, ih hwf⟩
        obtain hc | hc := Memory.mem_write hc
        · exact hlt c hc
        · omega

theorem wf_putBytes {m : List Host.Cell} (hm : Memory.wf m = true) (key : Nat) (bs : List Byte) :
    Memory.wf (putBytes key bs m) = true := by
  induction bs generalizing key m with
  | nil => exact hm
  | cons b bs ih => exact ih (Memory.wf_write hm key b) (key + 1)

/-- The memory at context creation is in canonical form. -/
theorem wf_reset : Memory.wf State.reset.mem = true := rfl

/-! ### Storing a run of bytes -/

theorem read_putBytes_outside (m : List Host.Cell) {key x : Nat} (bs : List Byte) (h : x < key ∨ key + bs.length ≤ x) :
    Memory.read (putBytes key bs m) x = Memory.read m x := by
  induction bs generalizing key m with
  | nil => rfl
  | cons b bs ih =>
    rw [List.length_cons] at h
    rw [putBytes, ih _ (by omega), Memory.read_write_other m b (by omega)]

theorem read_putBytes_inside {m : List Host.Cell} (hm : Memory.wf m = true) (key : Nat) (bs : List Byte) {k : Nat}
    (h : k < bs.length) : Memory.read (putBytes key bs m) (key + k) = bs[k] := by
  induction bs generalizing key k m with
  | nil => simp at h
  | cons b bs ih =>
    cases k with
    | zero =>
      rw [putBytes, read_putBytes_outside _ _ (by omega)]
      exact Memory.read_write_same hm key b
    | succ k =>
      rw [putBytes, show key + (k + 1) = key + 1 + k by omega,
        ih (Memory.wf_write hm key b) (key + 1) (by simpa using h)]
      rfl

theorem mem_putBytes {m : List Host.Cell} {key : Nat} {bs : List Byte} {c : Host.Cell} (h : c ∈ putBytes key bs m) :
    c ∈ m ∨ key ≤ c.1 ∧ c.1 < key + bs.length := by
  induction bs generalizing key m with
  | nil => exact .inl h
  | cons b bs ih =>
    rw [List.length_cons]
    obtain hc | hc := ih h
    · obtain hc | hc := Memory.mem_write hc
      · exact .inl hc
      · exact .inr (by omega)
    · exact .inr (by omega)

/-! ### Keys (R40) -/

/-- Two bytes of segments have the same key only when they are the same byte. -/
theorem cellKey_inj {g h : Word} {o p : Nat} (ho : o < 65536) (hp : p < 65536) (e : cellKey g o = cellKey h p) :
    g = h ∧ o = p := by
  simp only [cellKey, Config.segSize] at e
  exact ⟨BitVec.eq_of_toNat_eq (by omega), by omega⟩

theorem cellKey_lt (g : Word) {o : Nat} (ho : o < 65536) : cellKey g o < 65536 * 65536 := by
  have := g.isLt
  simp only [cellKey, Config.segSize]
  omega

theorem cellKey_div (g : Word) {o : Nat} (ho : o < 65536) : cellKey g o / 65536 = g.toNat := by
  simp only [cellKey, Config.segSize]
  omega

/-! ### Bytes and words of segments (R43, R44) -/

theorem getLsbD_wordOf (lo hi : Byte) (i : Nat) :
    (wordOf lo hi).getLsbD i = if i < 8 then lo.getLsbD i else hi.getLsbD (i - 8) := by
  have h := BitVec.getLsbD_append (x := hi) (y := lo) (i := i)
  rw [show wordOf lo hi = (hi ++ lo : BitVec (8 + 8)) from rfl, h]

theorem getLsbD_loByte (w : Word) (i : Nat) : (loByte w).getLsbD i = (decide (i < 8) && w.getLsbD i) := by
  simp [loByte]

theorem getLsbD_hiByte (w : Word) (i : Nat) : (hiByte w).getLsbD i = (decide (i < 8) && w.getLsbD (8 + i)) := by
  simp [hiByte]

@[simp] theorem wordOf_lo_hi (v : Word) : wordOf (loByte v) (hiByte v) = v := by
  refine BitVec.eq_of_getLsbD_eq fun i hi => ?_
  rw [getLsbD_wordOf, getLsbD_loByte, getLsbD_hiByte]
  split
  · simp [*]
  · rw [show 8 + (i - 8) = i by omega]
    simp
    intro _
    omega

@[simp] theorem loByte_wordOf (lo hi : Byte) : loByte (wordOf lo hi) = lo := by
  refine BitVec.eq_of_getLsbD_eq fun i hi => ?_
  rw [getLsbD_loByte, getLsbD_wordOf, if_pos hi]
  simp [hi]

@[simp] theorem hiByte_wordOf (lo hi : Byte) : hiByte (wordOf lo hi) = hi := by
  refine BitVec.eq_of_getLsbD_eq fun i h => ?_
  rw [getLsbD_hiByte, getLsbD_wordOf, if_neg (by omega), Nat.add_sub_cancel_left]
  simp [h]

theorem byteAt_putByte_same {s : State} (hm : Memory.wf s.mem = true) (g : Word) (o : Nat) (b : Byte) :
    byteAt (putByte g o b s) g o = b := Memory.read_write_same hm _ b

theorem byteAt_putByte_other (s : State) {g h : Word} {o p : Nat} (b : Byte) (ho : o < 65536) (hp : p < 65536)
    (hne : ¬(h = g ∧ p = o)) : byteAt (putByte g o b s) h p = byteAt s h p :=
  Memory.read_write_other s.mem b fun e => hne (cellKey_inj hp ho e)

/-- A stored word reads back. -/
theorem wordAt_putWord_same {s : State} (hm : Memory.wf s.mem = true) (g : Word) {o : Nat} (v : Word) (ho : o + 2 ≤ 65536) :
    wordAt (putWord g o v s) g o = v := by
  have hm' : Memory.wf (putByte g o (loByte v) s).mem = true := Memory.wf_write hm _ _
  rw [wordAt, putWord, byteAt_putByte_same hm', byteAt_putByte_other _ _ (by omega) (by omega) (by omega),
    byteAt_putByte_same hm, wordOf_lo_hi]

/-- Storing a word changes no byte outside it. -/
theorem byteAt_putWord_other (s : State) {g h : Word} {o p : Nat} (v : Word) (ho : o + 2 ≤ 65536) (hp : p < 65536)
    (hne : ¬(h = g ∧ o ≤ p ∧ p < o + 2)) : byteAt (putWord g o v s) h p = byteAt s h p := by
  rw [putWord, byteAt_putByte_other _ _ (by omega) hp (fun h => hne ⟨h.1, by omega⟩),
    byteAt_putByte_other _ _ (by omega) hp (fun h => hne ⟨h.1, by omega⟩)]

theorem wf_putByte {s : State} (hm : Memory.wf s.mem = true) (g : Word) (o : Nat) (b : Byte) :
    Memory.wf (putByte g o b s).mem = true := Memory.wf_write hm _ b

theorem wf_putWord {s : State} (hm : Memory.wf s.mem = true) (g : Word) (o : Nat) (v : Word) :
    Memory.wf (putWord g o v s).mem = true := Memory.wf_write (Memory.wf_write hm _ _) _ _

end Sys2Proof.Machine
end

