-- ==== Sys2Proof/Laws/Decode.lean ====
section
/-!
SUPPORT. The parts of decoding and encoding, each inverted once: what the parts of an encoding decode
to, and from which bytes each part of the decoder answers.
-/

namespace Sys2Proof

open Sys2Proof.Machine

theorem exceptBind_ok {ε α β : Type} {x : Except ε α} {f : α → Except ε β} {b : β} :
    (x >>= f) = .ok b ↔ ∃ a, x = .ok a ∧ f a = .ok b := by
  cases x <;> simp [bind, Except.bind]

/-! ### Fields of bytes -/

theorem modRM_mod : ∀ (m : BitVec 2) (r q : BitVec 3), (modRM m r q).extractLsb' 6 2 = m := by decide

theorem modRM_reg : ∀ (m : BitVec 2) (r q : BitVec 3), (modRM m r q).extractLsb' 3 3 = r := by decide

theorem modRM_rm : ∀ (m : BitVec 2) (r q : BitVec 3), (modRM m r q).extractLsb' 0 3 = q := by decide

/-- A ModRM byte is made of its three fields. -/
theorem modRM_fields (b : Byte) : modRM (b.extractLsb' 6 2) (b.extractLsb' 3 3) (b.extractLsb' 0 3) = b := by
  revert b; decide

theorem gprOfBits_bits (g : Gpr) : gprOfBits g.bits = g := by cases g <;> rfl

theorem bits_gprOfBits : ∀ b : BitVec 3, (gprOfBits b).bits = b := by decide

theorem sregOfBits_bits3 (s : Sreg) : sregOfBits s.bits3 = some s := by cases s <;> rfl

theorem bits3_of_sregOfBits {b : BitVec 3} {s : Sreg} (h : sregOfBits b = some s) : s.bits3 = b := by
  revert b s; decide

theorem opReg_fields (b : Byte) : opReg (b.extractLsb' 3 5) (gprOfBits (b.extractLsb' 0 3)) = b := by
  revert b; decide

/-! ### What the parts of the decoder read -/

theorem take8_ok {bs rest : List Byte} {b : Byte} : take8 bs = .ok (b, rest) ↔ bs = b :: rest := by
  cases bs <;> simp [take8]

theorem take16_ok {bs rest : List Byte} {w : Word} : take16 bs = .ok (w, rest) ↔ bs = le16 w ++ rest := by
  match bs with
  | [] => simp [take16, le16]
  | [b] => simp [take16, le16]
  | lo :: hi :: bs =>
    simp only [take16, Except.ok.injEq, Prod.mk.injEq, le16, List.cons_append, List.nil_append, List.cons.injEq]
    constructor
    · rintro ⟨rfl, rfl⟩; simp
    · rintro ⟨rfl, rfl, rfl⟩; simp

/-- The bytes a ModRM operand is encoded in. -/
def rmBytes (reg : BitVec 3) : RmOperand → List Byte
  | .reg m => [modRM 3#2 reg m.bits]
  | .d16 d => modRM 0#2 reg 6#3 :: le16 d
  | .b8 d => [modRM 1#2 reg 6#3, d]
  | .b16 d => modRM 2#2 reg 6#3 :: le16 d

/-- A ModRM operand is read from exactly its encoding. -/
theorem takeModRM_ok {bs rest : List Byte} {reg : BitVec 3} {rm : RmOperand} :
    takeModRM bs = .ok (reg, rm, rest) ↔ bs = rmBytes reg rm ++ rest := by
  constructor
  · intro h
    cases bs with
    | nil => cases h
    | cons b bs =>
      have hb := modRM_fields b
      generalize hr : b.extractLsb' 3 3 = r at hb
      generalize hm : b.extractLsb' 0 3 = m at hb
      generalize hd : b.extractLsb' 6 2 = d at hb
      simp only [takeModRM, hr, hm, hd] at h
      split at h
      · rename_i h3
        obtain rfl : d = 3#2 := BitVec.eq_of_toNat_eq h3
        cases h
        simp [rmBytes, bits_gprOfBits, hb]
      · rename_i h0
        obtain rfl : d = 0#2 := BitVec.eq_of_toNat_eq h0
        split at h
        · rename_i h6
          rw [h6] at hb
          obtain ⟨⟨w, t⟩, hw, h⟩ := exceptBind_ok.mp h
          cases h
          simp [rmBytes, hb, take16_ok.mp hw]
        · cases h
      · rename_i h1
        obtain rfl : d = 1#2 := BitVec.eq_of_toNat_eq h1
        split at h
        · rename_i h6
          rw [h6] at hb
          obtain ⟨⟨w, t⟩, hw, h⟩ := exceptBind_ok.mp h
          cases h
          simp [rmBytes, hb, take8_ok.mp hw]
        · cases h
      · rename_i h3 h0 h1
        obtain rfl : d = 2#2 := by
          clear hb hd h
          revert h0 h1 h3; revert d; decide
        split at h
        · rename_i h6
          rw [h6] at hb
          obtain ⟨⟨w, t⟩, hw, h⟩ := exceptBind_ok.mp h
          cases h
          simp [rmBytes, hb, take16_ok.mp hw]
        · cases h
  · rintro rfl
    cases rm with
    | reg m => simp [rmBytes, takeModRM, modRM_mod, modRM_reg, modRM_rm, gprOfBits_bits]
    | d16 d =>
      simp only [rmBytes, List.cons_append, takeModRM, modRM_mod, modRM_reg, modRM_rm]
      exact exceptBind_ok.mpr ⟨_, take16_ok.mpr rfl, rfl⟩
    | b8 d =>
      simp only [rmBytes, List.cons_append, takeModRM, modRM_mod, modRM_reg, modRM_rm]
      exact exceptBind_ok.mpr ⟨_, take8_ok.mpr rfl, rfl⟩
    | b16 d =>
      simp only [rmBytes, List.cons_append, takeModRM, modRM_mod, modRM_reg, modRM_rm]
      exact exceptBind_ok.mpr ⟨_, take16_ok.mpr rfl, rfl⟩

theorem noOverride_ok {α : Type} {ov : Option Sreg} {r : Except DecodeError α} {a : α} :
    noOverride ov r = .ok a ↔ ov = none ∧ r = .ok a := by
  cases ov <;> simp [noOverride]

/-! ### The forms -/

variable {ov : Option Sreg} {bs rest : List Byte} {i : Instr}

theorem wordForm_ok {f : Word → Instr} : wordForm ov bs f = .ok (i, rest) ↔
    ov = none ∧ ∃ w, i = f w ∧ bs = le16 w ++ rest := by
  simp only [wordForm, noOverride_ok, exceptBind_ok, Prod.exists, take16_ok, Except.ok.injEq, Prod.mk.injEq]
  constructor
  · rintro ⟨h, w, t, rfl, rfl, rfl⟩; exact ⟨h, w, rfl, rfl⟩
  · rintro ⟨h, w, rfl, rfl⟩; exact ⟨h, w, rest, rfl, rfl, rfl⟩

theorem byteForm_ok {f : Byte → Instr} : byteForm ov bs f = .ok (i, rest) ↔
    ov = none ∧ ∃ b, i = f b ∧ bs = b :: rest := by
  simp only [byteForm, noOverride_ok, exceptBind_ok, Prod.exists, take8_ok, Except.ok.injEq, Prod.mk.injEq]
  constructor
  · rintro ⟨h, w, t, rfl, rfl, rfl⟩; exact ⟨h, w, rfl, rfl⟩
  · rintro ⟨h, w, rfl, rfl⟩; exact ⟨h, w, rest, rfl, rfl, rfl⟩

theorem regForm_ok {f : Gpr → Gpr → Instr} : regForm ov bs f = .ok (i, rest) ↔
    ov = none ∧ ∃ g m, i = f g m ∧ bs = modRM 3#2 g.bits m.bits :: rest := by
  simp only [regForm, exceptBind_ok, Prod.exists, takeModRM_ok]
  constructor
  · rintro ⟨reg, rm, t, rfl, h⟩
    cases rm <;> simp only [noOverride_ok, reduceCtorEq] at h
    obtain ⟨h, e⟩ := h
    cases e
    exact ⟨h, _, _, rfl, by simp [rmBytes, bits_gprOfBits]⟩
  · rintro ⟨rfl, g, m, rfl, rfl⟩
    exact ⟨g.bits, .reg m, rest, rfl, by simp [noOverride, gprOfBits_bits]⟩

theorem regDigit_ok {digit : BitVec 3} {f : Gpr → Instr} : regDigit ov bs digit f = .ok (i, rest) ↔
    ov = none ∧ ∃ m, i = f m ∧ bs = modRM 3#2 digit m.bits :: rest := by
  simp only [regDigit, exceptBind_ok, Prod.exists, takeModRM_ok]
  constructor
  · rintro ⟨reg, rm, t, rfl, h⟩
    split at h
    · subst reg
      cases rm <;> simp only [noOverride_ok, reduceCtorEq] at h
      obtain ⟨h, e⟩ := h
      cases e
      exact ⟨h, _, rfl, rfl⟩
    · cases h
  · rintro ⟨rfl, m, rfl, rfl⟩
    exact ⟨digit, .reg m, rest, rfl, by simp [noOverride]⟩

theorem regMemForm_ok {fr : Gpr → Gpr → Instr} {fd : Option Sreg → Gpr → Word → Instr}
    {fb : Option Sreg → Gpr → Byte → Instr} {fw : Option Sreg → Gpr → Word → Instr} :
    regMemForm ov bs fr fd fb fw = .ok (i, rest) ↔
    (ov = none ∧ ∃ g m, i = fr g m ∧ bs = modRM 3#2 g.bits m.bits :: rest) ∨
    (∃ g d, i = fd ov g d ∧ bs = modRM 0#2 g.bits 6#3 :: (le16 d ++ rest)) ∨
    (∃ g d, i = fb ov g d ∧ bs = modRM 1#2 g.bits 6#3 :: d :: rest) ∨
    (∃ g d, i = fw ov g d ∧ bs = modRM 2#2 g.bits 6#3 :: (le16 d ++ rest)) := by
  simp only [regMemForm, exceptBind_ok, Prod.exists, takeModRM_ok]
  constructor
  · rintro ⟨reg, rm, t, rfl, h⟩
    cases rm <;> simp only [noOverride_ok] at h
    · obtain ⟨h, e⟩ := h
      cases e
      exact .inl ⟨h, _, _, rfl, by simp [rmBytes, bits_gprOfBits]⟩
    · cases h
      exact .inr (.inl ⟨_, _, rfl, by simp [rmBytes, bits_gprOfBits]⟩)
    · cases h
      exact .inr (.inr (.inl ⟨_, _, rfl, by simp [rmBytes, bits_gprOfBits]⟩))
    · cases h
      exact .inr (.inr (.inr ⟨_, _, rfl, by simp [rmBytes, bits_gprOfBits]⟩))
  · rintro (⟨rfl, g, m, rfl, rfl⟩ | ⟨g, d, rfl, rfl⟩ | ⟨g, d, rfl, rfl⟩ | ⟨g, d, rfl, rfl⟩)
    · exact ⟨g.bits, .reg m, rest, rfl, by simp [noOverride, gprOfBits_bits]⟩
    · exact ⟨g.bits, .d16 d, rest, rfl, by simp [gprOfBits_bits]⟩
    · exact ⟨g.bits, .b8 d, rest, rfl, by simp [gprOfBits_bits]⟩
    · exact ⟨g.bits, .b16 d, rest, rfl, by simp [gprOfBits_bits]⟩

theorem sregForm_ok {ok : Sreg → Bool} {fr : Sreg → Gpr → Instr} {fd : Option Sreg → Sreg → Word → Instr}
    {fb : Option Sreg → Sreg → Byte → Instr} {fw : Option Sreg → Sreg → Word → Instr} :
    sregForm ov bs ok fr fd fb fw = .ok (i, rest) ↔ ∃ s, ok s = true ∧
    ((ov = none ∧ ∃ m, i = fr s m ∧ bs = modRM 3#2 s.bits3 m.bits :: rest) ∨
    (∃ d, i = fd ov s d ∧ bs = modRM 0#2 s.bits3 6#3 :: (le16 d ++ rest)) ∨
    (∃ d, i = fb ov s d ∧ bs = modRM 1#2 s.bits3 6#3 :: d :: rest) ∨
    (∃ d, i = fw ov s d ∧ bs = modRM 2#2 s.bits3 6#3 :: (le16 d ++ rest))) := by
  simp only [sregForm, exceptBind_ok, Prod.exists, takeModRM_ok]
  constructor
  · rintro ⟨reg, rm, t, rfl, h⟩
    split at h
    · cases h
    · rename_i s hs
      obtain rfl := bits3_of_sregOfBits hs
      split at h
      · refine ⟨s, ‹_›, ?_⟩
        cases rm <;> simp only [noOverride_ok] at h
        · obtain ⟨h, e⟩ := h
          cases e
          exact .inl ⟨h, _, rfl, rfl⟩
        · cases h
          exact .inr (.inl ⟨_, rfl, rfl⟩)
        · cases h
          exact .inr (.inr (.inl ⟨_, rfl, rfl⟩))
        · cases h
          exact .inr (.inr (.inr ⟨_, rfl, rfl⟩))
      · cases h
  · rintro ⟨s, hs, ⟨rfl, m, rfl, rfl⟩ | ⟨d, rfl, rfl⟩ | ⟨d, rfl, rfl⟩ | ⟨d, rfl, rfl⟩⟩
    · exact ⟨s.bits3, .reg m, rest, rfl, by simp [sregOfBits_bits3, hs, noOverride]⟩
    · exact ⟨s.bits3, .d16 d, rest, rfl, by simp [sregOfBits_bits3, hs]⟩
    · exact ⟨s.bits3, .b8 d, rest, rfl, by simp [sregOfBits_bits3, hs]⟩
    · exact ⟨s.bits3, .b16 d, rest, rfl, by simp [sregOfBits_bits3, hs]⟩

/-- The segment-override bytes are the four of R69. -/
theorem segOverride_some {b : Byte} {s : Sreg} (h : segOverride b = some s) : b = s.overrideByte := by
  revert b s; decide

theorem segOverride_overrideByte (s : Sreg) : segOverride s.overrideByte = some s := by cases s <;> rfl

end Sys2Proof
end

