-- ==== Sys2Proof/Laws/Fields.lean ====
section
/-!
SUPPORT. What the flag computations, the stack terms and an operand's read leave alone, field by field.
-/

namespace Sys2Proof.Machine

open Sys2Proof.Safety

variable (s : State)

/-! ### The stack terms (R101, R126) -/

@[simp] theorem pushed_ip (v : Word) : (pushed v s).ip = s.ip := rfl
@[simp] theorem pushed_flags (v : Word) : (pushed v s).flags = s.flags := rfl
@[simp] theorem pushed_ipWritten (v : Word) : (pushed v s).ipWritten = s.ipWritten := rfl
@[simp] theorem pushed_zfWritten (v : Word) : (pushed v s).zfWritten = s.zfWritten := rfl
@[simp] theorem pushed_cfWritten (v : Word) : (pushed v s).cfWritten = s.cfWritten := rfl
@[simp] theorem pushed_status (v : Word) : (pushed v s).status = s.status := rfl
@[simp] theorem pushed_store (v : Word) : (pushed v s).store = s.store := rfl
@[simp] theorem pushed_arena (v : Word) : (pushed v s).arena = s.arena := rfl
@[simp] theorem pushed_cfg (v : Word) : (pushed v s).cfg = s.cfg := rfl
@[simp] theorem pushed_draws (v : Word) : (pushed v s).draws = s.draws := rfl
@[simp] theorem pushed_hostReplies (v : Word) : (pushed v s).hostReplies = s.hostReplies := rfl
@[simp] theorem pushed_hostWords (v : Word) : (pushed v s).hostWords = s.hostWords := rfl
@[simp] theorem pushed_hostCalls (v : Word) : (pushed v s).hostCalls = s.hostCalls := rfl

@[simp] theorem popped_ip : (popped s).ip = s.ip := rfl
@[simp] theorem popped_flags : (popped s).flags = s.flags := rfl
@[simp] theorem popped_ipWritten : (popped s).ipWritten = s.ipWritten := rfl
@[simp] theorem popped_zfWritten : (popped s).zfWritten = s.zfWritten := rfl
@[simp] theorem popped_cfWritten : (popped s).cfWritten = s.cfWritten := rfl
@[simp] theorem popped_status : (popped s).status = s.status := rfl
@[simp] theorem popped_store : (popped s).store = s.store := rfl
@[simp] theorem popped_arena : (popped s).arena = s.arena := rfl
@[simp] theorem popped_cfg : (popped s).cfg = s.cfg := rfl
@[simp] theorem popped_draws : (popped s).draws = s.draws := rfl
@[simp] theorem popped_hostReplies : (popped s).hostReplies = s.hostReplies := rfl
@[simp] theorem popped_hostWords : (popped s).hostWords = s.hostWords := rfl
@[simp] theorem popped_hostCalls : (popped s).hostCalls = s.hostCalls := rfl
@[simp] theorem popped_mem : (popped s).mem = s.mem := rfl

@[simp] theorem called_ip : (called s).ip = s.ip := rfl
@[simp] theorem called_flags : (called s).flags = s.flags := rfl
@[simp] theorem called_ipWritten : (called s).ipWritten = s.ipWritten := rfl
@[simp] theorem called_zfWritten : (called s).zfWritten = s.zfWritten := rfl
@[simp] theorem called_cfWritten : (called s).cfWritten = s.cfWritten := rfl
@[simp] theorem called_status : (called s).status = s.status := rfl
@[simp] theorem called_store : (called s).store = s.store := rfl
@[simp] theorem called_arena : (called s).arena = s.arena := rfl
@[simp] theorem called_cfg : (called s).cfg = s.cfg := rfl
@[simp] theorem called_draws : (called s).draws = s.draws := rfl
@[simp] theorem called_hostReplies : (called s).hostReplies = s.hostReplies := rfl
@[simp] theorem called_hostWords : (called s).hostWords = s.hostWords := rfl
@[simp] theorem called_hostCalls : (called s).hostCalls = s.hostCalls := rfl

/-! ### The flag computations (R105 to R110) -/

@[simp] theorem cmpFlags_regs (a b : Word) : (cmpFlags a b s).regs = s.regs := rfl
@[simp] theorem cmpFlags_ip (a b : Word) : (cmpFlags a b s).ip = s.ip := rfl
@[simp] theorem cmpFlags_written (a b : Word) : (cmpFlags a b s).written = s.written := rfl
@[simp] theorem cmpFlags_ipWritten (a b : Word) : (cmpFlags a b s).ipWritten = s.ipWritten := rfl
@[simp] theorem cmpFlags_status (a b : Word) : (cmpFlags a b s).status = s.status := rfl
@[simp] theorem cmpFlags_store (a b : Word) : (cmpFlags a b s).store = s.store := rfl
@[simp] theorem cmpFlags_mem (a b : Word) : (cmpFlags a b s).mem = s.mem := rfl
@[simp] theorem cmpFlags_arena (a b : Word) : (cmpFlags a b s).arena = s.arena := rfl
@[simp] theorem cmpFlags_cfg (a b : Word) : (cmpFlags a b s).cfg = s.cfg := rfl
@[simp] theorem cmpFlags_hostReplies (a b : Word) : (cmpFlags a b s).hostReplies = s.hostReplies := rfl
@[simp] theorem cmpFlags_hostWords (a b : Word) : (cmpFlags a b s).hostWords = s.hostWords := rfl
@[simp] theorem cmpFlags_hostCalls (a b : Word) : (cmpFlags a b s).hostCalls = s.hostCalls := rfl

@[simp] theorem incFlags_regs (r : Word) : (incFlags r s).regs = s.regs := rfl
@[simp] theorem incFlags_ip (r : Word) : (incFlags r s).ip = s.ip := rfl
@[simp] theorem incFlags_written (r : Word) : (incFlags r s).written = s.written := rfl
@[simp] theorem incFlags_ipWritten (r : Word) : (incFlags r s).ipWritten = s.ipWritten := rfl
@[simp] theorem incFlags_status (r : Word) : (incFlags r s).status = s.status := rfl
@[simp] theorem incFlags_store (r : Word) : (incFlags r s).store = s.store := rfl
@[simp] theorem incFlags_mem (r : Word) : (incFlags r s).mem = s.mem := rfl
@[simp] theorem incFlags_arena (r : Word) : (incFlags r s).arena = s.arena := rfl
@[simp] theorem incFlags_cfg (r : Word) : (incFlags r s).cfg = s.cfg := rfl
@[simp] theorem incFlags_hostReplies (r : Word) : (incFlags r s).hostReplies = s.hostReplies := rfl
@[simp] theorem incFlags_hostWords (r : Word) : (incFlags r s).hostWords = s.hostWords := rfl
@[simp] theorem incFlags_hostCalls (r : Word) : (incFlags r s).hostCalls = s.hostCalls := rfl

@[simp] theorem addFlags_regs (a b r : Word) : (addFlags a b r s).regs = s.regs := by
  unfold addFlags; dsimp only; split <;> [skip; split] <;> rfl

@[simp] theorem addFlags_ip (a b r : Word) : (addFlags a b r s).ip = s.ip := by
  unfold addFlags; dsimp only; split <;> [skip; split] <;> rfl

@[simp] theorem addFlags_written (a b r : Word) : (addFlags a b r s).written = s.written := by
  unfold addFlags; dsimp only; split <;> [skip; split] <;> rfl

@[simp] theorem addFlags_ipWritten (a b r : Word) : (addFlags a b r s).ipWritten = s.ipWritten := by
  unfold addFlags; dsimp only; split <;> [skip; split] <;> rfl

@[simp] theorem addFlags_status (a b r : Word) : (addFlags a b r s).status = s.status := by
  unfold addFlags; dsimp only; split <;> [skip; split] <;> rfl

@[simp] theorem addFlags_store (a b r : Word) : (addFlags a b r s).store = s.store := by
  unfold addFlags; dsimp only; split <;> [skip; split] <;> rfl

@[simp] theorem addFlags_mem (a b r : Word) : (addFlags a b r s).mem = s.mem := by
  unfold addFlags; dsimp only; split <;> [skip; split] <;> rfl

@[simp] theorem addFlags_arena (a b r : Word) : (addFlags a b r s).arena = s.arena := by
  unfold addFlags; dsimp only; split <;> [skip; split] <;> rfl

@[simp] theorem addFlags_cfg (a b r : Word) : (addFlags a b r s).cfg = s.cfg := by
  unfold addFlags; dsimp only; split <;> [skip; split] <;> rfl

@[simp] theorem addFlags_hostReplies (a b r : Word) : (addFlags a b r s).hostReplies = s.hostReplies := by
  unfold addFlags; dsimp only; split <;> [skip; split] <;> rfl

@[simp] theorem addFlags_hostWords (a b r : Word) : (addFlags a b r s).hostWords = s.hostWords := by
  unfold addFlags; dsimp only; split <;> [skip; split] <;> rfl

@[simp] theorem addFlags_hostCalls (a b r : Word) : (addFlags a b r s).hostCalls = s.hostCalls := by
  unfold addFlags; dsimp only; split <;> [skip; split] <;> rfl

@[simp] theorem logicFlags_regs (zf cf : Bool) : (logicFlags zf cf s).regs = s.regs := by
  unfold logicFlags; split <;> rfl

@[simp] theorem logicFlags_ip (zf cf : Bool) : (logicFlags zf cf s).ip = s.ip := by
  unfold logicFlags; split <;> rfl

@[simp] theorem logicFlags_written (zf cf : Bool) : (logicFlags zf cf s).written = s.written := by
  unfold logicFlags; split <;> rfl

@[simp] theorem logicFlags_ipWritten (zf cf : Bool) : (logicFlags zf cf s).ipWritten = s.ipWritten := by
  unfold logicFlags; split <;> rfl

@[simp] theorem logicFlags_status (zf cf : Bool) : (logicFlags zf cf s).status = s.status := by
  unfold logicFlags; split <;> rfl

@[simp] theorem logicFlags_store (zf cf : Bool) : (logicFlags zf cf s).store = s.store := by
  unfold logicFlags; split <;> rfl

@[simp] theorem logicFlags_mem (zf cf : Bool) : (logicFlags zf cf s).mem = s.mem := by
  unfold logicFlags; split <;> rfl

@[simp] theorem logicFlags_arena (zf cf : Bool) : (logicFlags zf cf s).arena = s.arena := by
  unfold logicFlags; split <;> rfl

@[simp] theorem logicFlags_cfg (zf cf : Bool) : (logicFlags zf cf s).cfg = s.cfg := by
  unfold logicFlags; split <;> rfl

@[simp] theorem logicFlags_hostReplies (zf cf : Bool) : (logicFlags zf cf s).hostReplies = s.hostReplies := by
  unfold logicFlags; split <;> rfl

@[simp] theorem logicFlags_hostWords (zf cf : Bool) : (logicFlags zf cf s).hostWords = s.hostWords := by
  unfold logicFlags; split <;> rfl

@[simp] theorem logicFlags_hostCalls (zf cf : Bool) : (logicFlags zf cf s).hostCalls = s.hostCalls := by
  unfold logicFlags; split <;> rfl

/-- The flag computations write no bit of F but ZF and CF (R25 to R27). -/
theorem addFlags_rest (a b r : Word) : (addFlags a b r s).flags &&& 0xFFBE#16 = s.flags &&& 0xFFBE#16 := by
  unfold addFlags; dsimp only; split <;> [skip; split] <;> simp [setBit_cf_rest, setBit_zf_rest]

theorem cmpFlags_rest (a b : Word) : (cmpFlags a b s).flags &&& 0xFFBE#16 = s.flags &&& 0xFFBE#16 := by
  simp [cmpFlags, setBit_cf_rest, setBit_zf_rest]

theorem incFlags_rest (r : Word) : (incFlags r s).flags &&& 0xFFBE#16 = s.flags &&& 0xFFBE#16 := by
  simp [incFlags, setBit_zf_rest]

theorem logicFlags_rest (zf cf : Bool) : (logicFlags zf cf s).flags &&& 0xFFBE#16 = s.flags &&& 0xFFBE#16 := by
  unfold logicFlags; split <;> simp [setBit_cf_rest, setBit_zf_rest]

/-- INC does not touch CF (R107). -/
theorem incFlags_cf (r : Word) : (incFlags r s).cf = s.cf := cf_setBit_zf _ _

/-! ### Reading an operand (R96): only the callbacks' answers and record can change -/

@[simp] theorem loadState_regs (m : MemOperand) : (loadState m s).regs = s.regs := by
  unfold loadState; split <;> rfl

@[simp] theorem loadState_ip (m : MemOperand) : (loadState m s).ip = s.ip := by
  unfold loadState; split <;> rfl

@[simp] theorem loadState_flags (m : MemOperand) : (loadState m s).flags = s.flags := by
  unfold loadState; split <;> rfl

@[simp] theorem loadState_written (m : MemOperand) : (loadState m s).written = s.written := by
  unfold loadState; split <;> rfl

@[simp] theorem loadState_ipWritten (m : MemOperand) : (loadState m s).ipWritten = s.ipWritten := by
  unfold loadState; split <;> rfl

@[simp] theorem loadState_zfWritten (m : MemOperand) : (loadState m s).zfWritten = s.zfWritten := by
  unfold loadState; split <;> rfl

@[simp] theorem loadState_cfWritten (m : MemOperand) : (loadState m s).cfWritten = s.cfWritten := by
  unfold loadState; split <;> rfl

@[simp] theorem loadState_status (m : MemOperand) : (loadState m s).status = s.status := by
  unfold loadState; split <;> rfl

@[simp] theorem loadState_store (m : MemOperand) : (loadState m s).store = s.store := by
  unfold loadState; split <;> rfl

@[simp] theorem loadState_mem (m : MemOperand) : (loadState m s).mem = s.mem := by
  unfold loadState; split <;> rfl

@[simp] theorem loadState_arena (m : MemOperand) : (loadState m s).arena = s.arena := by
  unfold loadState; split <;> rfl

@[simp] theorem loadState_cfg (m : MemOperand) : (loadState m s).cfg = s.cfg := by
  unfold loadState; split <;> rfl

@[simp] theorem loadState_draws (m : MemOperand) : (loadState m s).draws = s.draws := by
  unfold loadState; split <;> rfl

@[simp] theorem loadState_hostReplies (m : MemOperand) : (loadState m s).hostReplies = s.hostReplies := by
  unfold loadState; split <;> rfl

@[simp] theorem operandState_regs (op : Operand) : (operandState op s).regs = s.regs := by
  cases op <;> simp [operandState]

@[simp] theorem operandState_ip (op : Operand) : (operandState op s).ip = s.ip := by
  cases op <;> simp [operandState]

@[simp] theorem operandState_flags (op : Operand) : (operandState op s).flags = s.flags := by
  cases op <;> simp [operandState]

@[simp] theorem operandState_written (op : Operand) : (operandState op s).written = s.written := by
  cases op <;> simp [operandState]

@[simp] theorem operandState_ipWritten (op : Operand) : (operandState op s).ipWritten = s.ipWritten := by
  cases op <;> simp [operandState]

@[simp] theorem operandState_zfWritten (op : Operand) : (operandState op s).zfWritten = s.zfWritten := by
  cases op <;> simp [operandState]

@[simp] theorem operandState_cfWritten (op : Operand) : (operandState op s).cfWritten = s.cfWritten := by
  cases op <;> simp [operandState]

@[simp] theorem operandState_status (op : Operand) : (operandState op s).status = s.status := by
  cases op <;> simp [operandState]

@[simp] theorem operandState_store (op : Operand) : (operandState op s).store = s.store := by
  cases op <;> simp [operandState]

@[simp] theorem operandState_mem (op : Operand) : (operandState op s).mem = s.mem := by
  cases op <;> simp [operandState]

@[simp] theorem operandState_arena (op : Operand) : (operandState op s).arena = s.arena := by
  cases op <;> simp [operandState]

@[simp] theorem operandState_cfg (op : Operand) : (operandState op s).cfg = s.cfg := by
  cases op <;> simp [operandState]

@[simp] theorem operandState_draws (op : Operand) : (operandState op s).draws = s.draws := by
  cases op <;> simp [operandState]

@[simp] theorem operandState_hostReplies (op : Operand) : (operandState op s).hostReplies = s.hostReplies := by
  cases op <;> simp [operandState]

end Sys2Proof.Machine
end

