-- ==== Sys2Proof/Laws/Ops.lean ====
section
/-!
SUPPORT. One lemma per shared operation that says everything it answers: when it succeeds, with what
value and what state, in the terms of Sys2Proof/Safety.lean, and when and how it fails.
-/

namespace Sys2Proof.Machine

open Sys2Proof.Safety

/-! ### Sequencing -/

theorem bind_eq_ok {ε α β : Type} {x : Except ε α} {f : α → Except ε β} {b : β} :
    (x >>= f) = .ok b ↔ ∃ a, x = .ok a ∧ f a = .ok b := by
  cases x <;> simp [bind, Except.bind]

theorem bind_eq_error {ε α β : Type} {x : Except ε α} {f : α → Except ε β} {e : ε} :
    (x >>= f) = .error e ↔ x = .error e ∨ ∃ a, x = .ok a ∧ f a = .error e := by
  cases x <;> simp [bind, Except.bind]

theorem bind_of_ok {ε α β : Type} {x : Except ε α} {f : α → Except ε β} {a : α} (h : x = .ok a) :
    (x >>= f) = f a := by
  rw [h]; rfl

theorem bind_of_error {ε α β : Type} {x : Except ε α} {f : α → Except ε β} {e : ε} (h : x = .error e) :
    (x >>= f) = .error e := by
  rw [h]; rfl

theorem ok_eq_ok {ε α : Type} {a b : α} : (.ok a : Except ε α) = .ok b ↔ b = a := by
  rw [Except.ok.injEq, eq_comm]

theorem error_eq_error {ε α : Type} {d e : ε} : (.error d : Except ε α) = .error e ↔ e = d := by
  rw [Except.error.injEq, eq_comm]

theorem pair_ok_eq_ok {ε α β : Type} {a b : α} {c d : β} : (.ok (a, c) : Except ε (α × β)) = .ok (b, d) ↔ b = a ∧ d = c := by
  rw [Except.ok.injEq, Prod.mk.injEq, eq_comm, eq_comm (a := c)]

theorem finish_eq_next {r : Except Fault State} {t : State} : finish r = .next t ↔ r = .ok t := by
  cases r <;> simp [finish]

theorem finish_eq_fault {r : Except Fault State} {k : Fault} : finish r = .fault k ↔ r = .error k := by
  cases r <;> simp [finish]

theorem finish_ne_refused {r : Except Fault State} {q : Refusal} : finish r ≠ .refused q := by
  cases r <;> simp [finish]

/-! ### Reading registers (R12, R39) -/

theorem readItem_ok {α : Type} {item : Item} {v w : α} {s : State} :
    readItem item v s = .ok w ↔ canRead item s = true ∧ w = v := by
  unfold readItem
  split
  · simp [*, eq_comm]
  · simp [*]

theorem readItem_error {α : Type} {item : Item} {v : α} {s : State} {k : Fault} :
    readItem item v s = .error k ↔ canRead item s = false ∧ k = .uninitialisedRead item := by
  unfold readItem
  split
  · simp [*]
  · simp [*, eq_comm]

theorem readReg_ok {r : Reg} {s : State} {v : Word} :
    readReg r s = .ok v ↔ regOk s r = true ∧ v = s.regs.get r := readItem_ok

theorem readReg_error {r : Reg} {s : State} {k : Fault} :
    readReg r s = .error k ↔ regOk s r = false ∧ k = .uninitialisedRead (.reg r) := readItem_error

theorem canRead_of_draw {s : State} (h : s.cfg.resetRegs = .draw) (item : Item) : canRead item s = true := by
  simp [canRead, h]

/-- What a register write leaves readable: the register written, and what was. -/
theorem regOk_writeReg {s : State} {r q : Reg} {v : Word} :
    regOk (writeReg r v s) q = true ↔ q = r ∨ regOk s q = true := by
  simp only [regOk, canRead, itemWritten, writeReg_cfg, writeReg_written, Bank.get_set]
  split <;> simp_all

theorem regOk_of_eq {s t : State} (hc : t.cfg = s.cfg) (hw : t.written = s.written) (r : Reg) : regOk t r = regOk s r := by
  simp [regOk, canRead, itemWritten, hc, hw]

@[simp] theorem regOk_putWord {s : State} {g : Word} {o : Nat} {v : Word} {r : Reg} :
    regOk (putWord g o v s) r = regOk s r := regOk_of_eq rfl rfl r

@[simp] theorem regOk_recordRead {s : State} {g o : Word} {r : Reg} :
    regOk (recordRead g o s) r = regOk s r := regOk_of_eq rfl rfl r

/-! ### Accesses (R43) -/

theorem inBounds_eq {s : State} {g : Word} {o n : Nat} :
    inBounds s g o n = true ↔ registered s g = true ∧ o + n ≤ 65536 := by
  rw [inBounds, Bool.and_eq_true, decide_eq_true_iff]
  rfl

theorem access_ok {α : Type} {g : Word} {o n : Nat} {v w : α} {s : State} :
    access g o n v s = .ok w ↔ inBounds s g o n = true ∧ w = v := by
  unfold access
  split
  · simp [*, eq_comm]
  · simp [*]

theorem access_error {α : Type} {g : Word} {o n : Nat} {v : α} {s : State} {k : Fault} :
    access g o n v s = .error k ↔ inBounds s g o n = false ∧ k = .segmentFault g o := by
  unfold access
  split
  · simp [*]
  · simp [*, eq_comm]

theorem memRead8_ok {g o : Word} {s : State} {b : Byte} :
    memRead8 g o s = .ok b ↔ inBounds s g o.toNat 1 = true ∧ b = byteAt s g o.toNat := access_ok

theorem memRead16_ok {g o : Word} {s : State} {v : Word} :
    memRead16 g o s = .ok v ↔ inBounds s g o.toNat 2 = true ∧ v = wordAt s g o.toNat := access_ok

theorem memWrite8_ok {g o : Word} {b : Byte} {s t : State} :
    memWrite8 g o b s = .ok t ↔ inBounds s g o.toNat 1 = true ∧ t = putByte g o.toNat b s := access_ok

theorem memWrite16_ok {g o v : Word} {s t : State} :
    memWrite16 g o v s = .ok t ↔ inBounds s g o.toNat 2 = true ∧ t = putWord g o.toNat v s := access_ok

/-! ### The stack (R101) -/

theorem push16_ok {v : Word} {s t : State} : push16 v s = .ok t ↔ pushOk s = true ∧ t = pushed v s := by
  simp only [push16, bind_eq_ok, readReg_ok, memWrite16_ok, pushOk, pushed, gpr, sreg, Config.stackStep,
    Bool.and_eq_true]
  constructor
  · rintro ⟨sp, ⟨hsp, rfl⟩, ss, ⟨hss, rfl⟩, hb, rfl⟩
    rw [regOk_writeReg] at hss
    exact ⟨⟨⟨hsp, hss.resolve_left (by decide)⟩, hb⟩, rfl⟩
  · rintro ⟨⟨⟨hsp, hss⟩, hb⟩, rfl⟩
    exact ⟨_, ⟨hsp, rfl⟩, _, ⟨regOk_writeReg.mpr (.inr hss), rfl⟩, hb, rfl⟩

/-- How a push fails. -/
theorem push16_error {v : Word} {s : State} {k : Fault} : push16 v s = .error k ↔
    regOk s (.gpr .sp) = false ∧ k = .uninitialisedRead (.reg (.gpr .sp)) ∨
    regOk s (.gpr .sp) = true ∧ regOk s (.seg .ss) = false ∧ k = .uninitialisedRead (.reg (.seg .ss)) ∨
    regOk s (.gpr .sp) = true ∧ regOk s (.seg .ss) = true ∧ inBounds s (sreg s .ss) (gpr s .sp - 2#16).toNat 2 = false ∧
      k = .segmentFault (sreg s .ss) (gpr s .sp - 2#16).toNat := by
  have hss : ∀ v, regOk (writeReg (.gpr .sp) v s) (.seg .ss) = regOk s (.seg .ss) := fun v =>
    Bool.eq_iff_iff.mpr (regOk_writeReg.trans (by simp))
  cases h1 : regOk s (.gpr .sp)
  · rw [push16, bind_of_error (readReg_error.mpr ⟨h1, rfl⟩)]
    simp [error_eq_error, -Except.error.injEq]
  · rw [push16, bind_of_ok (readReg_ok.mpr ⟨h1, rfl⟩)]
    cases h2 : regOk s (.seg .ss)
    · rw [bind_of_error (readReg_error.mpr ⟨(hss _).trans h2, rfl⟩)]
      simp [error_eq_error, -Except.error.injEq]
    · rw [bind_of_ok (readReg_ok.mpr ⟨(hss _).trans h2, rfl⟩), memWrite16, access_error]
      simp [Config.stackStep, gpr, sreg, inBounds_eq_of_store (writeReg_store s _ _), Bank.get_set]

theorem pop16_ok {s t : State} {v : Word} :
    pop16 s = .ok (v, t) ↔ popOk s = true ∧ v = popValue s ∧ t = popped s := by
  simp only [pop16, bind_eq_ok, readReg_ok, memRead16_ok, popOk, popValue, popped, gpr, sreg, Config.stackStep,
    Bool.and_eq_true, Except.ok.injEq, Prod.mk.injEq]
  constructor
  · rintro ⟨ss, ⟨hss, rfl⟩, sp, ⟨hsp, rfl⟩, w, ⟨hb, rfl⟩, rfl, rfl⟩
    exact ⟨⟨⟨hsp, hss⟩, hb⟩, rfl, rfl⟩
  · rintro ⟨⟨⟨hsp, hss⟩, hb⟩, rfl, rfl⟩
    exact ⟨_, ⟨hss, rfl⟩, _, ⟨hsp, rfl⟩, _, ⟨hb, rfl⟩, rfl, rfl⟩

/-- How a pop fails. -/
theorem pop16_error {s : State} {k : Fault} : pop16 s = .error k ↔
    regOk s (.seg .ss) = false ∧ k = .uninitialisedRead (.reg (.seg .ss)) ∨
    regOk s (.seg .ss) = true ∧ regOk s (.gpr .sp) = false ∧ k = .uninitialisedRead (.reg (.gpr .sp)) ∨
    regOk s (.seg .ss) = true ∧ regOk s (.gpr .sp) = true ∧ inBounds s (sreg s .ss) (gpr s .sp).toNat 2 = false ∧
      k = .segmentFault (sreg s .ss) (gpr s .sp).toNat := by
  cases h1 : regOk s (.seg .ss)
  · rw [pop16, bind_of_error (readReg_error.mpr ⟨h1, rfl⟩)]
    simp [error_eq_error, -Except.error.injEq]
  · rw [pop16, bind_of_ok (readReg_ok.mpr ⟨h1, rfl⟩)]
    cases h2 : regOk s (.gpr .sp)
    · rw [bind_of_error (readReg_error.mpr ⟨h2, rfl⟩)]
      simp [error_eq_error, -Except.error.injEq]
    · rw [bind_of_ok (readReg_ok.mpr ⟨h2, rfl⟩), bind_eq_error, memRead16, access_error]
      simp [gpr, sreg]

/-- What both CALL forms do first (R126, R127). -/
theorem callFrame_ok {s t : State} : callFrame s = .ok t ↔ callOk s = true ∧ t = called s := by
  have hcs : regOk (pushed s.ip s) (.seg .cs) = regOk s (.seg .cs) := Bool.eq_iff_iff.mpr (by
    simp [pushed, regOk_writeReg])
  have hv : (pushed s.ip s).regs.get (.seg .cs) = sreg s .cs := by simp [pushed, sreg, Bank.get_set]
  have hsp : ∀ v u, regOk (pushed v u) (.gpr .sp) = true := fun v u => by simp [pushed, regOk_writeReg]
  simp only [callFrame, bind_eq_ok, push16_ok, readReg_ok, callOk, Bool.and_eq_true, Except.ok.injEq]
  constructor
  · rintro ⟨t1, ⟨h1, rfl⟩, cs, ⟨h2, rfl⟩, t2, ⟨h3, rfl⟩, sp, ⟨-, rfl⟩, rfl⟩
    exact ⟨⟨⟨h1, hcs ▸ h2⟩, h3⟩, by rw [hv]; rfl⟩
  · rintro ⟨⟨⟨h1, h2⟩, h3⟩, rfl⟩
    exact ⟨_, ⟨h1, rfl⟩, _, ⟨hcs.trans h2, rfl⟩, _, ⟨h3, rfl⟩, _, ⟨hsp _ _, rfl⟩, by rw [hv]; rfl⟩

/-! ### Effective addresses and operands (R96 to R98) -/

/-- "`BP - (0xFFFF - displacement + 1)`" is BP +16 displacement. -/
theorem bpOffset_eq (bp disp : Word) : bpOffset bp disp = bp + disp := by
  unfold bpOffset
  bv_omega

theorem effectiveAddress_ok {m : MemOperand} {s : State} {p : Word × Word} :
    effectiveAddress m s = .ok p ↔ addressOk m s = true ∧ p = (memSegment m s, memOffset m s) := by
  obtain ⟨size, seg, base, disp⟩ := m
  cases base
  · simp only [effectiveAddress, bind_eq_ok, readReg_ok, addressOk, memSegment, memOffset, sreg, ok_eq_ok]
    constructor
    · rintro ⟨g, ⟨hg, rfl⟩, rfl⟩
      exact ⟨by simp [hg], rfl⟩
    · rintro ⟨hg, rfl⟩
      exact ⟨_, ⟨(Bool.and_eq_true _ _ ▸ hg).1, rfl⟩, rfl⟩
  · simp only [effectiveAddress, bind_eq_ok, readReg_ok, addressOk, memSegment, memOffset, sreg, gpr, bpOffset_eq,
      Except.ok.injEq, Bool.and_eq_true, Bool.or_eq_true]
    constructor
    · rintro ⟨g, ⟨hg, rfl⟩, bp, ⟨hb, rfl⟩, rfl⟩
      exact ⟨⟨hg, .inr hb⟩, rfl⟩
    · rintro ⟨⟨hg, hb⟩, rfl⟩
      exact ⟨_, ⟨hg, rfl⟩, _, ⟨hb.resolve_left (by decide), rfl⟩, rfl⟩

/-- How an effective address fails: the segment register first, then BP. -/
theorem effectiveAddress_error {m : MemOperand} {s : State} {k : Fault} : effectiveAddress m s = .error k ↔
    regOk s (.seg m.seg) = false ∧ k = .uninitialisedRead (.reg (.seg m.seg)) ∨
    regOk s (.seg m.seg) = true ∧ m.base = .bp ∧ regOk s (.gpr .bp) = false ∧ k = .uninitialisedRead (.reg (.gpr .bp)) := by
  obtain ⟨size, seg, base, disp⟩ := m
  cases base <;> simp [effectiveAddress, bind_eq_error, readReg_error, readReg_ok]

theorem viaHost_eq {m : MemOperand} {s : State} : hostPath m (memSegment m s) = viaHost m s := by
  obtain ⟨size, seg, base, disp⟩ := m
  cases seg <;> rfl

theorem hostRead_ok {g o v : Word} {s t : State} :
    hostRead g o s = .ok (v, t) ↔ hostWord g o s = some v ∧ t = recordRead g o s := by
  unfold hostRead
  cases h : hostWord g o s <;> simp [eq_comm]

theorem hostRead_error {g o : Word} {s : State} {k : Fault} :
    hostRead g o s = .error k ↔ hostWord g o s = none ∧ k = .diverges := by
  unfold hostRead
  cases h : hostWord g o s <;> simp [eq_comm]

theorem hostAnswer_eq {m : MemOperand} {s : State} : hostWord (memSegment m s) (memOffset m s) s = hostAnswer m s := rfl

theorem memOperand_ok {d : Decoded} {m : MemOperand} {s t : State} {v : Word} : memOperand d m s = .ok (v, t) ↔
    loadOk m s = true ∧ v = loadValue m s ∧ t = loadState m s := by
  simp only [memOperand, bind_eq_ok, effectiveAddress_ok, loadOk, loadValue, loadState, inSegment, sizeBytes,
    Bool.and_eq_true]
  constructor
  · rintro ⟨p, ⟨ha, rfl⟩, h⟩
    rw [viaHost_eq] at h
    split at h <;> split at h <;>
      simp_all [bind_eq_ok, memRead16_ok, memRead8_ok, hostRead_ok, hostAnswer_eq, recordRead, pair_ok_eq_ok, -Except.ok.injEq]
  · rintro ⟨⟨ha, hl⟩, rfl, rfl⟩
    refine ⟨_, ⟨ha, rfl⟩, ?_⟩
    rw [viaHost_eq]
    split <;> split <;> simp_all [bind_eq_ok, memRead16_ok, memRead8_ok, hostRead_ok, hostAnswer_eq, recordRead, Option.isSome_iff_exists]
    obtain ⟨w, hw⟩ := hl
    simp [hw]

theorem operand_ok {d : Decoded} {op : Operand} {s t : State} {v : Word} : operand d op s = .ok (v, t) ↔
    operandOk op s = true ∧ v = operandValue op s ∧ t = operandState op s := by
  cases op with
  | mem m => exact memOperand_ok
  | reg r =>
    simp only [operand, operandOk, operandValue, operandState, bind_eq_ok, readReg_ok, Except.ok.injEq, Prod.mk.injEq]
    constructor
    · rintro ⟨a, ⟨h, rfl⟩, rfl, rfl⟩; exact ⟨h, rfl, rfl⟩
    · rintro ⟨h, rfl, rfl⟩; exact ⟨_, ⟨h, rfl⟩, rfl, rfl⟩
  | _ => simp [operand, operandOk, operandValue, operandState, pair_ok_eq_ok, -Except.ok.injEq]

theorem storeWord_ok {m : MemOperand} {v : Word} {s t : State} (hm : m.size = .word) : storeWord m v s = .ok t ↔
    storeOk m s = true ∧ t = putWord (memSegment m s) (memOffset m s).toNat v s := by
  simp only [storeWord, bind_eq_ok, effectiveAddress_ok, storeOk, inSegment, hm, sizeBytes, Bool.and_eq_true]
  constructor
  · rintro ⟨p, ⟨ha, rfl⟩, h⟩
    have := memWrite16_ok.mp h
    exact ⟨⟨ha, this.1⟩, this.2⟩
  · rintro ⟨⟨ha, hb⟩, rfl⟩
    exact ⟨_, ⟨ha, rfl⟩, memWrite16_ok.mpr ⟨hb, rfl⟩⟩

theorem storeByte_ok {m : MemOperand} {b : Byte} {s t : State} (hm : m.size = .byte) : storeByte m b s = .ok t ↔
    storeOk m s = true ∧ t = putByte (memSegment m s) (memOffset m s).toNat b s := by
  simp only [storeByte, bind_eq_ok, effectiveAddress_ok, storeOk, inSegment, hm, sizeBytes, Bool.and_eq_true]
  constructor
  · rintro ⟨p, ⟨ha, rfl⟩, h⟩
    have := memWrite8_ok.mp h
    exact ⟨⟨ha, this.1⟩, this.2⟩
  · rintro ⟨⟨ha, hb⟩, rfl⟩
    exact ⟨_, ⟨ha, rfl⟩, memWrite8_ok.mpr ⟨hb, rfl⟩⟩

/-- How a store fails: its address, then its bound. -/
theorem storeWord_error {m : MemOperand} {v : Word} {s : State} {k : Fault} (hm : m.size = .word) :
    storeWord m v s = .error k ↔ effectiveAddress m s = .error k ∨
      addressOk m s = true ∧ inSegment m s = false ∧ k = .segmentFault (memSegment m s) (memOffset m s).toNat := by
  simp only [storeWord, bind_eq_error, effectiveAddress_ok, inSegment, hm, sizeBytes]
  refine or_congr_right ⟨?_, ?_⟩
  · rintro ⟨p, ⟨ha, rfl⟩, h⟩
    exact ⟨ha, access_error.mp h⟩
  · rintro ⟨ha, h⟩
    exact ⟨_, ⟨ha, rfl⟩, access_error.mpr h⟩

/-! ### Callbacks and relocation (R15, R55, R99) -/

theorem hostInvoke_ok {m f v : Word} {s t : State} : hostInvoke m f s = .ok (v, t) ↔
    ∃ ws, hostReply m f s = .returned v ws ∧ t = applyHostWrites (recordInvoke m f s) ws := by
  unfold hostInvoke
  cases h : hostReply m f s <;> simp [eq_comm, and_assoc]

theorem hostInvoke_error {m f : Word} {s : State} {k : Fault} : hostInvoke m f s = .error k ↔
    hostReply m f s = .failed ∧ k = .hostFault m f ∨ hostReply m f s = .never ∧ k = .diverges := by
  unfold hostInvoke
  cases h : hostReply m f s <;> simp [error_eq_error, -Except.error.injEq]

/-- RelocSubst succeeds with a word that needs no callback, or through one. -/
theorem relocSubst_ok {v w : Word} {s t : State} : relocSubst v s = .ok (w, t) ↔ relocOk v s = true ∧
    (relocatedTo v s = some w ∧ t = s ∨
      v = 0xFFFF#16 ∧ ∃ m f ws, relocHere s = some (.importRef m f) ∧ hostReply m f s = .returned w ws ∧
        t = applyHostWrites (recordInvoke m f s) ws) := by
  by_cases hv : v = 0xFFFF#16
  · subst v
    simp only [relocSubst, Config.relocSentinel, if_true, bind_eq_ok, readReg_ok, relocOk, relocatedTo, relocHere, sreg,
      Config.relocProbeOffset, bne_self_eq_false, Bool.false_or]
    constructor
    · rintro ⟨cs, ⟨hcs, rfl⟩, h⟩
      refine ⟨hcs, ?_⟩
      split at h <;> simp_all [hostInvoke_ok, pair_ok_eq_ok, -Except.ok.injEq]
    · rintro ⟨hcs, h⟩
      refine ⟨_, ⟨hcs, rfl⟩, ?_⟩
      split <;> simp_all [hostInvoke_ok, -Except.ok.injEq]
  · simp [relocSubst, Config.relocSentinel, hv, relocOk, relocatedTo, pair_ok_eq_ok, -Except.ok.injEq]
    exact fun _ => eq_comm

/-- How RelocSubst fails: CS unwritten, or a callback that does not return. -/
theorem relocSubst_error {v : Word} {s : State} {k : Fault} : relocSubst v s = .error k ↔ v = 0xFFFF#16 ∧
    (regOk s (.seg .cs) = false ∧ k = .uninitialisedRead (.reg (.seg .cs)) ∨
      regOk s (.seg .cs) = true ∧ ∃ m f, relocHere s = some (.importRef m f) ∧
        (hostReply m f s = .failed ∧ k = .hostFault m f ∨ hostReply m f s = .never ∧ k = .diverges)) := by
  by_cases hv : v = 0xFFFF#16
  · subst v
    simp only [relocSubst, Config.relocSentinel, if_true, bind_eq_error, readReg_ok, readReg_error, relocHere, sreg,
      Config.relocProbeOffset, true_and]
    refine or_congr_right ⟨?_, ?_⟩
    · rintro ⟨cs, ⟨hcs, rfl⟩, h⟩
      refine ⟨hcs, ?_⟩
      split at h <;> simp_all [hostInvoke_error]
    · rintro ⟨hcs, m, f, hr, h⟩
      refine ⟨_, ⟨hcs, rfl⟩, ?_⟩
      simp only [hr, hostInvoke_error, h]
  · simp [relocSubst, Config.relocSentinel, hv]

/-- What no callback can change: the segments, the arena cursor, the construction parameters, the status, the record of
callbacks and the free bits taken. -/
theorem applyHostWrites_kept (ws : List HostWrite) (s : State) :
    (applyHostWrites s ws).store = s.store ∧ (applyHostWrites s ws).arena = s.arena ∧
    (applyHostWrites s ws).cfg = s.cfg ∧ (applyHostWrites s ws).status = s.status ∧
    (applyHostWrites s ws).hostCalls = s.hostCalls ∧ (applyHostWrites s ws).hostReplies = s.hostReplies ∧
    (applyHostWrites s ws).draws = s.draws := by
  induction ws generalizing s with
  | nil => simp [applyHostWrites]
  | cons w ws ih =>
    have h := ih (applyHostWrite s w)
    have hw : (applyHostWrite s w).store = s.store ∧ (applyHostWrite s w).arena = s.arena ∧
        (applyHostWrite s w).cfg = s.cfg ∧ (applyHostWrite s w).status = s.status ∧
        (applyHostWrite s w).hostCalls = s.hostCalls ∧ (applyHostWrite s w).hostReplies = s.hostReplies ∧
        (applyHostWrite s w).draws = s.draws := by
      cases w <;> simp only [applyHostWrite] <;> first | exact ⟨rfl, rfl, rfl, rfl, rfl, rfl, rfl⟩ | (split <;> simp)
    rw [hw.1, hw.2.1, hw.2.2.1, hw.2.2.2.1, hw.2.2.2.2.1, hw.2.2.2.2.2.1, hw.2.2.2.2.2.2] at h
    exact h

/-- A callback keeps the canonical form of memory. -/
theorem wf_applyHostWrites (ws : List HostWrite) {s : State} (hm : Memory.wf s.mem = true) :
    Memory.wf (applyHostWrites s ws).mem = true := by
  induction ws generalizing s with
  | nil => exact hm
  | cons w ws ih =>
    refine ih ?_
    cases w with
    | byte g o b =>
      simp only [applyHostWrite]
      split
      · exact wf_putByte hm _ _ _
      · exact hm
    | _ => exact hm

/-! ### The conditions of the jumps (R118) -/

theorem readZf_ok {s : State} {b : Bool} : readZf s = .ok b ↔ canRead .zf s = true ∧ b = s.zf := readItem_ok

theorem readCf_ok {s : State} {b : Bool} : readCf s = .ok b ↔ canRead .cf s = true ∧ b = s.cf := readItem_ok

/-- A condition is evaluated when the flags it reads may be read, and it is then JCC_TABLE's. -/
theorem evalCond_ok {c : Cond} {s : State} {b : Bool} : evalCond c s = .ok b ↔
    canRead .zf s = true ∧ (c = .e ∨ c = .ne ∨ canRead .cf s = true) ∧ b = condHolds c s.zf s.cf := by
  cases c <;> simp [evalCond, bind_eq_ok, readZf_ok, readCf_ok, condHolds] <;> grind

/-- How a condition fails. -/
theorem evalCond_error {c : Cond} {s : State} {k : Fault} : evalCond c s = .error k ↔
    canRead .zf s = false ∧ k = .uninitialisedRead .zf ∨
    canRead .zf s = true ∧ c ≠ .e ∧ c ≠ .ne ∧ canRead .cf s = false ∧ k = .uninitialisedRead .cf := by
  cases c <;>
    simp [evalCond, bind_eq_error, readZf, readCf, readItem_ok, readItem_error]

end Sys2Proof.Machine
end

