-- ==== Sys2Proof/Laws/Dispatch.lean ====
section
/-!
SUPPORT. Which shared meaning runs an instruction of a given decoded form: the opcode table's rows read
once, so that a proof about a mnemonic need not split over the constructors of Instr.
-/

namespace Sys2Proof.Machine

open Sys2Proof.Safety

variable {i : Instr} {s : State}

theorem exec_add {g : Gpr} {src : Operand} (h : HasForm i s.ip .add [.reg (.gpr g), src]) :
    exec i s = addMeaning i g src s := by
  obtain ⟨-, hm, ho⟩ := h
  cases i <;> cases hm <;> cases ho <;> rfl

theorem exec_cmp {dst src : Operand} (h : HasForm i s.ip .cmp [dst, src]) : exec i s = cmpMeaning i dst src s := by
  obtain ⟨-, hm, ho⟩ := h
  cases i <;> cases hm <;> cases ho <;> rfl

theorem exec_inc {g : Gpr} (h : HasForm i s.ip .inc [.reg (.gpr g)]) : exec i s = incMeaning i g s := by
  obtain ⟨-, hm, ho⟩ := h
  cases i <;> cases hm <;> cases ho <;> rfl

theorem exec_xor {g : Gpr} {src : Operand} (h : HasForm i s.ip .xor [.reg (.gpr g), src]) :
    exec i s = xorMeaning i g src s := by
  obtain ⟨-, hm, ho⟩ := h
  cases i <;> cases hm <;> cases ho <;> rfl

theorem exec_or {g : Gpr} {src : Operand} (h : HasForm i s.ip .or [.reg (.gpr g), src]) :
    exec i s = orMeaning i g src s := by
  obtain ⟨-, hm, ho⟩ := h
  cases i <;> cases hm <;> cases ho <;> rfl

theorem exec_shl {g : Gpr} {count : Operand} (h : HasForm i s.ip .shl [.reg (.gpr g), count]) :
    exec i s = shlMeaning i g s := by
  obtain ⟨-, hm, ho⟩ := h
  cases i <;> cases hm <;> cases ho <;> rfl

theorem exec_push {src : Operand} (h : HasForm i s.ip .push [src]) : exec i s = pushMeaning i src s := by
  obtain ⟨-, hm, ho⟩ := h
  cases i <;> cases hm <;> cases ho <;> rfl

theorem exec_pop {r : Reg} (h : HasForm i s.ip .pop [.reg r]) : exec i s = popMeaning i r s := by
  obtain ⟨-, hm, ho⟩ := h
  cases i <;> cases hm <;> cases ho <;> rfl

theorem exec_mov_reg_imm {g : Gpr} {v : Word} (h : HasForm i s.ip .mov [.reg (.gpr g), .imm16 v]) :
    exec i s = movRegImm i g v s := by
  obtain ⟨-, hm, ho⟩ := h
  cases i <;> cases hm <;> cases ho <;> rfl

theorem exec_mov_reg_reg {dst src : Reg} (h : HasForm i s.ip .mov [.reg dst, .reg src]) :
    exec i s = movRegReg i dst src s := by
  obtain ⟨-, hm, ho⟩ := h
  cases i <;> cases hm <;> cases ho <;> rfl

theorem exec_mov_reg_mem {dst : Reg} {m : MemOperand} (h : HasForm i s.ip .mov [.reg dst, .mem m]) :
    m.size = .word ∧ exec i s = movRegMem i dst m s := by
  obtain ⟨-, hm, ho⟩ := h
  cases i <;> cases hm <;> cases ho <;> exact ⟨rfl, rfl⟩

theorem exec_mov_mem_imm {m : MemOperand} {v : Word} (h : HasForm i s.ip .mov [.mem m, .imm16 v]) :
    m.size = .word ∧ exec i s = movMemImm i m v s := by
  obtain ⟨-, hm, ho⟩ := h
  cases i <;> cases hm <;> cases ho <;> exact ⟨rfl, rfl⟩

theorem exec_mov_mem_imm8 {m : MemOperand} {v : Byte} (h : HasForm i s.ip .mov [.mem m, .imm8 v]) :
    m.size = .byte ∧ exec i s = movMemImm8 i m v s := by
  obtain ⟨-, hm, ho⟩ := h
  cases i <;> cases hm <;> cases ho <;> exact ⟨rfl, rfl⟩

theorem exec_mov_mem_reg {m : MemOperand} {src : Reg} (h : HasForm i s.ip .mov [.mem m, .reg src]) :
    m.size = .word ∧ exec i s = movMemReg i m src s := by
  obtain ⟨-, hm, ho⟩ := h
  cases i <;> cases hm <;> cases ho <;> exact ⟨rfl, rfl⟩

theorem exec_lea {g : Gpr} {m : MemOperand} (h : HasForm i s.ip .lea [.reg (.gpr g), .mem m]) :
    m.base = .bp ∧ exec i s = leaMeaning i g m s := by
  obtain ⟨-, hm, ho⟩ := h
  cases i <;> cases hm <;> cases ho <;> exact ⟨rfl, rfl⟩

theorem exec_enter {n : Word} {level : Byte} (h : HasForm i s.ip .enter [.imm16 n, .imm8 level]) :
    level = 0#8 ∧ exec i s = enterMeaning i n s := by
  obtain ⟨-, hm, ho⟩ := h
  cases i <;> cases hm
  cases ho
  exact ⟨rfl, rfl⟩

theorem exec_leave (h : HasForm i s.ip .leave []) : i = .leave ∧ exec i s = leaveMeaning s := by
  obtain ⟨-, hm, ho⟩ := h
  cases i <;> cases hm
  exact ⟨rfl, rfl⟩

theorem exec_stosw (h : HasForm i s.ip .stosw []) : exec i s = stoswMeaning i s := by
  obtain ⟨-, hm, ho⟩ := h
  cases i <;> cases hm <;> rfl

/-- A conditional jump runs with the condition code of its mnemonic, and the target of its decoded form. -/
theorem exec_jcc {m : Mnemonic} {target : Word} {cond : Bool → Bool → Bool} (h : HasForm i s.ip m [.nearBranch target])
    (hc : jumpCondition m = some cond) : ∃ c rel, exec i s = jccMeaning i c rel s ∧
      relTarget s.ip i.length rel = target ∧ (∀ zf cf, condHolds c zf cf = cond zf cf) ∧
      ((c = .e ∨ c = .ne) ↔ (m = .je ∨ m = .jne)) := by
  obtain ⟨-, rfl, ho⟩ := h
  cases i <;> cases hc <;> cases ho <;>
    exact ⟨_, _, rfl, rfl, by decide, by simp [Instr.decoded]⟩

theorem exec_jmp {target : Word} (h : HasForm i s.ip .jmp [.nearBranch target]) :
    exec i s = .next (writeIp target s) := by
  obtain ⟨-, hm, ho⟩ := h
  cases i <;> cases hm <;> cases ho <;> rfl

theorem exec_call_near {target : Word} (h : HasForm i s.ip .call [.nearBranch target]) :
    ∃ rel, exec i s = callNearMeaning i rel s ∧ relTarget s.ip i.length rel = target := by
  obtain ⟨-, hm, ho⟩ := h
  cases i <;> cases hm <;> cases ho
  exact ⟨_, rfl, rfl⟩

theorem exec_call_far {sel off : Word} (h : HasForm i s.ip .call [.farBranch sel off]) :
    off = 0xFFFF#16 ∧ exec i s = callFarMeaning i s := by
  obtain ⟨-, hm, ho⟩ := h
  cases i <;> cases hm <;> cases ho
  exact ⟨rfl, rfl⟩

/-- The meaning an instruction runs, with its mnemonic and decoded operands: one case per shared meaning. -/
inductive Runs (i : Instr) (s : State) : Mnemonic → List Operand → Host.Outcome State Fault Refusal → Prop
  | add (g : Gpr) (src : Operand) : Runs i s .add [.reg (.gpr g), src] (addMeaning i g src s)
  | cmp (dst src : Operand) (h : ∀ m n, dst = .mem m → src ≠ .mem n) : Runs i s .cmp [dst, src] (cmpMeaning i dst src s)
  | inc (g : Gpr) : Runs i s .inc [.reg (.gpr g)] (incMeaning i g s)
  | xor (g : Gpr) (src : Operand) : Runs i s .xor [.reg (.gpr g), src] (xorMeaning i g src s)
  | or (g : Gpr) (src : Operand) : Runs i s .or [.reg (.gpr g), src] (orMeaning i g src s)
  | shl (g : Gpr) (count : Operand) : Runs i s .shl [.reg (.gpr g), count] (shlMeaning i g s)
  | push (src : Operand) : Runs i s .push [src] (pushMeaning i src s)
  | pop (r : Reg) (h : r ≠ .seg .cs) : Runs i s .pop [.reg r] (popMeaning i r s)
  | movRegImm (g : Gpr) (v : Word) : Runs i s .mov [.reg (.gpr g), .imm16 v] (movRegImm i g v s)
  | movRegReg (dst src : Reg) (h : i.wellFormed = true → dst ≠ .seg .cs) :
      Runs i s .mov [.reg dst, .reg src] (movRegReg i dst src s)
  | movRegMem (dst : Reg) (m : MemOperand) (h : i.wellFormed = true → dst ≠ .seg .cs) :
      Runs i s .mov [.reg dst, .mem m] (movRegMem i dst m s)
  | movMemImm (m : MemOperand) (v : Word) (h : m.size = .word) : Runs i s .mov [.mem m, .imm16 v] (movMemImm i m v s)
  | movMemImm8 (m : MemOperand) (v : Byte) (h : m.size = .byte) : Runs i s .mov [.mem m, .imm8 v] (movMemImm8 i m v s)
  | movMemReg (m : MemOperand) (src : Reg) (h : m.size = .word) : Runs i s .mov [.mem m, .reg src] (movMemReg i m src s)
  | lea (g : Gpr) (m : MemOperand) : Runs i s .lea [.reg (.gpr g), .mem m] (leaMeaning i g m s)
  | enter (n : Word) (level : Byte) : Runs i s .enter [.imm16 n, .imm8 level] (enterMeaning i n s)
  | leave : Runs i s .leave [] (leaveMeaning s)
  | stosw : Runs i s .stosw [] (stoswMeaning i s)
  | jcc (m : Mnemonic) (target : Word) (c : Cond) (rel : Word) (h : ∃ cond, jumpCondition m = some cond) :
      Runs i s m [.nearBranch target] (jccMeaning i c rel s)
  | jmp (target rel : Word) : Runs i s .jmp [.nearBranch target] (jmpMeaning i rel s)
  | callNear (target rel : Word) : Runs i s .call [.nearBranch target] (callNearMeaning i rel s)
  | callFar (sel off : Word) : Runs i s .call [.farBranch sel off] (callFarMeaning i s)

/-- Every instruction runs one of the shared meanings, the one of its decoded form. -/
theorem exec_runs (i : Instr) (s : State) : Runs i s (i.decoded s.ip).mnemonic (i.decoded s.ip).ops (exec i s) := by
  cases i <;> first
    | exact .add _ _
    | exact .cmp _ _ (by simp)
    | exact .inc _
    | exact .xor _ _
    | exact .or _ _
    | exact .shl _ _
    | exact .push _
    | exact .pop _ (by simp)
    | exact .movRegImm _ _
    | exact .movRegReg _ _ (by simp [Instr.wellFormed])
    | exact .movRegMem _ _ (by simp [Instr.wellFormed])
    | exact .movMemImm _ _ rfl
    | exact .movMemImm8 _ _ rfl
    | exact .movMemReg _ _ rfl
    | exact .lea _ _
    | exact .enter _ _
    | exact .leave
    | exact .stosw
    | exact .jcc _ _ _ _ ⟨_, rfl⟩
    | exact .jmp _ _
    | exact .callNear _ _
    | exact .callFar _ _

end Sys2Proof.Machine
end

