-- ==== Sys2Proof/Laws/Faults.lean ====
section
/-!
SUPPORT. How each shared operation fails, in the terms of Sys2Proof/Safety.lean: the fault of a sequence
is the first fault of its parts (R130 item 5).
-/

namespace Sys2Proof.Machine

open Sys2Proof.Safety

/-- The fault of a result. -/
def faultOf {α : Type} (r : Except Fault α) : Option Fault :=
  match r with
  | .ok _ => none
  | .error k => some k

@[simp] theorem faultOf_ok {α : Type} (a : α) : faultOf (.ok a) = none := rfl

@[simp] theorem faultOf_error {α : Type} (k : Fault) : faultOf (.error k : Except Fault α) = some k := rfl

/-- A sequence fails where its first part does, and otherwise where the rest does. -/
theorem faultOf_bind {α β : Type} {x : Except Fault α} {f : α → Except Fault β} {q : Option Fault}
    (h : ∀ a, x = .ok a → faultOf (f a) = q) : faultOf (x >>= f) = (faultOf x).or q := by
  cases x with
  | ok a => exact h a rfl
  | error k => rfl

/-- An outcome is a fault exactly when its result has one. -/
theorem finish_of_faultOf {r : Except Fault State} {q : Option Fault} (h : faultOf r = q) :
    (∀ k, q = some k → finish r = .fault k) ∧ (q = none → ∃ t, finish r = .next t) := by
  subst h
  cases r <;> simp [finish, eq_comm]

@[simp] theorem firstFault_nil : firstFault [] = none := rfl

@[simp] theorem firstFault_cons (a : Option Fault) (l : List (Option Fault)) : firstFault (a :: l) = a.or (firstFault l) := by
  cases a <;> rfl

theorem faultOf_readItem {α : Type} (item : Item) (v : α) (s : State) : faultOf (readItem item v s) = readFault item s := by
  unfold readItem readFault
  split <;> rfl

theorem faultOf_readReg (r : Reg) (s : State) : faultOf (readReg r s) = readFault (.reg r) s := faultOf_readItem ..

theorem faultOf_access {α : Type} (g o : Word) (n : Nat) (v : α) (s : State) :
    faultOf (access g o.toNat n v s) = boundFault g o n s := by
  unfold access boundFault
  split <;> rfl

/-- Reading depends on what may be read alone. -/
theorem readFault_reg {s t : State} {r : Reg} (h : regOk t r = regOk s r) : readFault (.reg r) t = readFault (.reg r) s := by
  unfold readFault
  rw [show canRead (.reg r) t = canRead (.reg r) s from h]

/-- A register that has been written is readable. -/
theorem readFault_none {s : State} {r : Reg} (h : regOk s r = true) : readFault (.reg r) s = none := if_pos h

theorem boundFault_of_store {s t : State} (h : t.store = s.store) (g o : Word) (n : Nat) :
    boundFault g o n t = boundFault g o n s := by
  unfold boundFault
  rw [inBounds_eq_of_store h]

theorem faultOf_effectiveAddress (m : MemOperand) (s : State) : faultOf (effectiveAddress m s) = addressFault m s := by
  obtain ⟨size, seg, base, disp⟩ := m
  unfold effectiveAddress addressFault
  rw [faultOf_bind (q := if base = .bp then readFault (.reg (.gpr .bp)) s else none), faultOf_readReg]
  · simp
  · intro a _
    cases base
    · rfl
    · exact (faultOf_bind (q := none) fun _ _ => rfl).trans (by simp [faultOf_readReg])

theorem faultOf_hostRead (g o : Word) (s : State) :
    faultOf (hostRead g o s) = if (hostWord g o s).isSome then none else some .diverges := by
  unfold hostRead
  cases hostWord g o s <;> rfl

theorem faultOf_memOperand (d : Decoded) (m : MemOperand) (s : State) : faultOf (memOperand d m s) = loadFault d m s := by
  unfold memOperand loadFault
  refine (faultOf_bind fun p hp => ?_).trans (by rw [firstFault_cons, faultOf_effectiveAddress])
  obtain ⟨-, rfl⟩ := effectiveAddress_ok.mp hp
  dsimp only
  rw [viaHost_eq, firstFault_cons, firstFault_nil, Option.or_none]
  split
  · cases m.size
    · rfl
    · exact faultOf_hostRead _ _ _
  · cases m.size
    · exact (faultOf_bind (q := none) fun _ _ => rfl).trans (by rw [Option.or_none]; exact faultOf_access ..)
    · exact (faultOf_bind (q := none) fun _ _ => rfl).trans (by rw [Option.or_none]; exact faultOf_access ..)

theorem faultOf_operand (d : Decoded) (op : Operand) (s : State) : faultOf (operand d op s) = operandFault d op s := by
  cases op with
  | reg r => exact (faultOf_bind (q := none) fun _ _ => rfl).trans (by rw [Option.or_none]; exact faultOf_readReg ..)
  | mem m => exact faultOf_memOperand d m s
  | _ => rfl

theorem faultOf_storeWord {m : MemOperand} (v : Word) (s : State) (hm : m.size = .word) :
    faultOf (storeWord m v s) = storeFault m s := by
  unfold storeWord storeFault
  refine (faultOf_bind fun p hp => ?_).trans (by rw [firstFault_cons, faultOf_effectiveAddress])
  obtain ⟨-, rfl⟩ := effectiveAddress_ok.mp hp
  rw [firstFault_cons, firstFault_nil, Option.or_none, hm]
  exact faultOf_access ..

theorem faultOf_storeByte {m : MemOperand} (b : Byte) (s : State) (hm : m.size = .byte) :
    faultOf (storeByte m b s) = storeFault m s := by
  unfold storeByte storeFault
  refine (faultOf_bind fun p hp => ?_).trans (by rw [firstFault_cons, faultOf_effectiveAddress])
  obtain ⟨-, rfl⟩ := effectiveAddress_ok.mp hp
  rw [firstFault_cons, firstFault_nil, Option.or_none, hm]
  exact faultOf_access ..

theorem faultOf_push16 (v : Word) (s : State) : faultOf (push16 v s) = pushFault s := by
  have hss : regOk (writeReg (.gpr .sp) (gpr s .sp - 2#16) s) (.seg .ss) = regOk s (.seg .ss) :=
    Bool.eq_iff_iff.mpr (regOk_writeReg.trans (by simp))
  unfold push16 pushFault
  refine (faultOf_bind fun sp hsp => ?_).trans (by rw [firstFault_cons, faultOf_readReg])
  obtain ⟨-, rfl⟩ := readReg_ok.mp hsp
  refine (faultOf_bind fun ss h => ?_).trans (by rw [firstFault_cons, faultOf_readReg]; exact congrArg (Option.or · _) (readFault_reg hss))
  obtain ⟨-, rfl⟩ := readReg_ok.mp h
  rw [firstFault_cons, firstFault_nil, Option.or_none, writeReg_regs, Bank.get_set, if_neg (by decide)]
  exact (faultOf_access ..).trans (boundFault_of_store rfl ..)

theorem faultOf_pop16 (s : State) : faultOf (pop16 s) = popFault s := by
  unfold pop16 popFault
  refine (faultOf_bind fun ss h => ?_).trans (by rw [firstFault_cons, faultOf_readReg])
  obtain ⟨-, rfl⟩ := readReg_ok.mp h
  refine (faultOf_bind fun sp hsp => ?_).trans (by rw [firstFault_cons, faultOf_readReg])
  obtain ⟨-, rfl⟩ := readReg_ok.mp hsp
  refine (faultOf_bind (q := none) fun _ _ => rfl).trans ?_
  rw [firstFault_cons, firstFault_nil, Option.or_none, Option.or_none]
  exact faultOf_access ..

theorem faultOf_callFrame (s : State) : faultOf (callFrame s) = callFault s := by
  have hcs : regOk (pushed s.ip s) (.seg .cs) = regOk s (.seg .cs) := Bool.eq_iff_iff.mpr (by
    simp [pushed, regOk_writeReg])
  unfold callFrame callFault
  refine (faultOf_bind fun t ht => ?_).trans (by rw [firstFault_cons, faultOf_push16])
  obtain ⟨-, rfl⟩ := push16_ok.mp ht
  refine (faultOf_bind fun cs h => ?_).trans (by rw [firstFault_cons, faultOf_readReg, readFault_reg hcs])
  refine (faultOf_bind (q := none) fun u hu => ?_).trans (by rw [firstFault_cons, firstFault_nil, faultOf_push16])
  obtain ⟨-, rfl⟩ := push16_ok.mp hu
  refine (faultOf_bind (q := none) fun _ _ => rfl).trans ?_
  rw [Option.or_none, faultOf_readReg, readFault_none]
  simp [pushed, regOk_writeReg]

theorem faultOf_hostInvoke (m f : Word) (s : State) : faultOf (hostInvoke m f s) = replyFault m f (hostReply m f s) := by
  unfold hostInvoke
  cases hostReply m f s <;> rfl

theorem faultOf_relocSubst (v : Word) (s : State) : faultOf (relocSubst v s) = relocFault v s := by
  unfold relocSubst relocFault
  by_cases hv : v = 0xFFFF#16
  · rw [if_pos (show v = Config.relocSentinel from hv), if_pos hv]
    refine (faultOf_bind fun cs h => ?_).trans (by rw [firstFault_cons, faultOf_readReg])
    obtain ⟨-, rfl⟩ := readReg_ok.mp h
    rw [firstFault_cons, firstFault_nil, Option.or_none, relocHere, show Config.relocProbeOffset = 1#16 from rfl, sreg]
    cases relocAt (s.regs.get (.seg .cs)) (s.ip + 1#16) s with
    | none => rfl
    | some r =>
      cases r with
      | importRef m f => exact faultOf_hostInvoke m f s
      | internalRef w => rfl
  · rw [if_neg (show ¬v = Config.relocSentinel from hv), if_neg hv]
    rfl

/-- The state RelocSubst leaves is `relocState`. -/
theorem relocSubst_state {v w : Word} {s t : State} (h : relocSubst v s = .ok (w, t)) : t = relocState v s := by
  obtain ⟨-, ⟨hr, rfl⟩ | ⟨rfl, m, f, ws, hr, hy, rfl⟩⟩ := relocSubst_ok.mp h
  · unfold relocState
    split
    · rename_i hv
      rw [relocatedTo, if_pos hv] at hr
      cases h : relocHere t with
      | none => rfl
      | some r => cases r <;> simp_all
    · rfl
  · simp [relocState, hr, hy]

theorem faultOf_evalCond (c : Cond) (s : State) : faultOf (evalCond c s) =
    firstFault [readFault .zf s, if c = .e ∨ c = .ne then none else readFault .cf s] := by
  cases c <;>
    exact (faultOf_bind fun z _ => (by first | rfl | exact faultOf_bind (q := none) fun _ _ => rfl)).trans
      (by simp [readZf, readCf, faultOf_readItem])

end Sys2Proof.Machine
end

