-- ==== Sys2Proof/Laws/Meanings.lean ====
section
/-!
SUPPORT. Each shared meaning said once: the conditions under which it answers a next state, and that
state. A proof about what an instruction does or leaves alone starts here.
-/

namespace Sys2Proof.Machine

open Sys2Proof.Safety

variable {i : Instr} {s t : State}

theorem addMeaning_next {g : Gpr} {src : Operand} : addMeaning i g src s = .next t ↔
    regOk s (.gpr g) = true ∧ operandOk src s = true ∧
    t = advance i.length (addFlags (gpr s g) (operandValue src s) (gpr s g + operandValue src s)
      (writeReg (.gpr g) (gpr s g + operandValue src s) (operandState src s))) := by
  simp only [addMeaning, finish_eq_next, bind_eq_ok, readReg_ok, operand_ok, Prod.exists, gpr, ok_eq_ok]
  grind

theorem cmpMeaning_next {dst src : Operand} : cmpMeaning i dst src s = .next t ↔
    operandOk dst s = true ∧ operandOk src (operandState dst s) = true ∧
    t = advance i.length (cmpFlags (operandValue dst s) (operandValue src (operandState dst s))
      (operandState src (operandState dst s))) := by
  simp only [cmpMeaning, finish_eq_next, bind_eq_ok, operand_ok, Prod.exists, ok_eq_ok]
  grind

theorem incMeaning_next {g : Gpr} : incMeaning i g s = .next t ↔ regOk s (.gpr g) = true ∧
    t = advance i.length (incFlags (gpr s g + 1#16) (writeReg (.gpr g) (gpr s g + 1#16) s)) := by
  simp only [incMeaning, finish_eq_next, bind_eq_ok, readReg_ok, gpr, ok_eq_ok]
  grind

theorem xorMeaning_next {g : Gpr} {src : Operand} : xorMeaning i g src s = .next t ↔
    regOk s (.gpr g) = true ∧ operandOk src s = true ∧
    t = advance i.length (logicFlags (gpr s g ^^^ operandValue src s == 0#16) false
      (writeReg (.gpr g) (gpr s g ^^^ operandValue src s) (operandState src s))) := by
  simp only [xorMeaning, finish_eq_next, bind_eq_ok, readReg_ok, operand_ok, Prod.exists, gpr, ok_eq_ok]
  grind

theorem orMeaning_next {g : Gpr} {src : Operand} : orMeaning i g src s = .next t ↔
    regOk s (.gpr g) = true ∧ operandOk src s = true ∧
    t = advance i.length (logicFlags (gpr s g ||| operandValue src s == 0#16) false
      (writeReg (.gpr g) (gpr s g ||| operandValue src s) (operandState src s))) := by
  simp only [orMeaning, finish_eq_next, bind_eq_ok, readReg_ok, operand_ok, Prod.exists, gpr, ok_eq_ok]
  grind

theorem shlMeaning_next {g : Gpr} : shlMeaning i g s = .next t ↔ regOk s (.gpr g) = true ∧
    t = advance i.length (logicFlags (gpr s g <<< 1 == 0#16) (gpr s g).msb (writeReg (.gpr g) (gpr s g <<< 1) s)) := by
  simp only [shlMeaning, finish_eq_next, bind_eq_ok, readReg_ok, gpr, ok_eq_ok]
  grind

theorem pushMeaning_next {src : Operand} : pushMeaning i src s = .next t ↔
    operandOk src s = true ∧ pushOk (operandState src s) = true ∧
    t = advance i.length (pushed (operandValue src s) (operandState src s)) := by
  simp only [pushMeaning, finish_eq_next, bind_eq_ok, operand_ok, push16_ok, Prod.exists, ok_eq_ok]
  grind

theorem popMeaning_next {r : Reg} : popMeaning i r s = .next t ↔
    popOk s = true ∧ t = advance i.length (writeReg r (popValue s) (popped s)) := by
  simp only [popMeaning, finish_eq_next, bind_eq_ok, pop16_ok, Prod.exists, ok_eq_ok]
  grind

theorem movRegImm_next {g : Gpr} {v : Word} : movRegImm i g v s = .next t ↔
    ∃ w u, relocSubst v s = .ok (w, u) ∧ t = writeIp (s.ip + BitVec.ofNat 16 i.length) (writeReg (.gpr g) w u) := by
  simp only [movRegImm, finish_eq_next, bind_eq_ok, Prod.exists, ok_eq_ok]

theorem movRegReg_next {dst src : Reg} : movRegReg i dst src s = .next t ↔
    regOk s src = true ∧ t = advance i.length (writeReg dst (s.regs.get src) s) := by
  simp only [movRegReg, finish_eq_next, bind_eq_ok, readReg_ok, ok_eq_ok]
  grind

theorem movRegMem_next {dst : Reg} {m : MemOperand} : movRegMem i dst m s = .next t ↔
    loadOk m s = true ∧ t = advance i.length (writeReg dst (loadValue m s) (loadState m s)) := by
  simp only [movRegMem, finish_eq_next, bind_eq_ok, operand_ok, Prod.exists, ok_eq_ok, operandOk, operandValue, operandState]
  grind

theorem movMemImm_next {m : MemOperand} {v : Word} (hm : m.size = .word) : movMemImm i m v s = .next t ↔
    ∃ w u, relocSubst v s = .ok (w, u) ∧ storeOk m u = true ∧
      t = writeIp (s.ip + BitVec.ofNat 16 i.length) (putWord (memSegment m u) (memOffset m u).toNat w u) := by
  simp only [movMemImm, finish_eq_next, bind_eq_ok, storeWord_ok hm, Prod.exists, ok_eq_ok]
  grind

theorem movMemImm8_next {m : MemOperand} {v : Byte} (hm : m.size = .byte) : movMemImm8 i m v s = .next t ↔
    storeOk m s = true ∧ t = advance i.length (putByte (memSegment m s) (memOffset m s).toNat v s) := by
  simp only [movMemImm8, finish_eq_next, bind_eq_ok, storeByte_ok hm, ok_eq_ok]
  grind

theorem movMemReg_next {m : MemOperand} {src : Reg} (hm : m.size = .word) : movMemReg i m src s = .next t ↔
    regOk s src = true ∧ storeOk m s = true ∧
    t = advance i.length (putWord (memSegment m s) (memOffset m s).toNat (s.regs.get src) s) := by
  simp only [movMemReg, finish_eq_next, bind_eq_ok, readReg_ok, storeWord_ok hm, ok_eq_ok]
  grind

theorem leaMeaning_next {g : Gpr} {m : MemOperand} : leaMeaning i g m s = .next t ↔
    regOk s (.gpr .bp) = true ∧ t = advance i.length (writeReg (.gpr g) (gpr s .bp + m.disp) s) := by
  simp only [leaMeaning, finish_eq_next, bind_eq_ok, readReg_ok, ok_eq_ok, bpOffset_eq, gpr]
  grind

/-- A push leaves SP readable, 2 lower. -/
theorem regOk_pushed {v : Word} {r : Reg} : regOk (pushed v s) r = true ↔ r = .gpr .sp ∨ regOk s r = true := by
  simp [pushed, regOk_writeReg]

theorem regs_pushed (v : Word) (s : State) (r : Reg) :
    (pushed v s).regs.get r = if r = .gpr .sp then gpr s .sp - 2#16 else s.regs.get r := by
  simp [pushed, Bank.get_set]

theorem enterMeaning_next {n : Word} : enterMeaning i n s = .next t ↔
    regOk s (.gpr .bp) = true ∧ pushOk s = true ∧
    t = advance i.length (writeReg (.gpr .sp) (gpr s .sp - 2#16 - n)
      (writeReg (.gpr .bp) (gpr s .sp - 2#16) (pushed (gpr s .bp) s))) := by
  simp only [enterMeaning, finish_eq_next, bind_eq_ok, readReg_ok, push16_ok, ok_eq_ok]
  constructor
  · rintro ⟨bp, ⟨hbp, rfl⟩, u, ⟨hp, rfl⟩, sp, ⟨-, rfl⟩, rfl⟩
    exact ⟨hbp, hp, by rw [regs_pushed, if_pos rfl]; rfl⟩
  · rintro ⟨hbp, hp, rfl⟩
    exact ⟨_, ⟨hbp, rfl⟩, _, ⟨hp, rfl⟩, _, ⟨regOk_pushed.mpr (.inl rfl), rfl⟩, by rw [regs_pushed, if_pos rfl]; rfl⟩

theorem leaveMeaning_next : leaveMeaning s = .next t ↔ regOk s (.gpr .bp) = true ∧
    ∃ a b c, a = writeReg (.gpr .sp) (gpr s .bp) s ∧ popOk a = true ∧
      b = writeReg (.gpr .bp) (popValue a) (popped a) ∧ popOk b = true ∧
      c = writeReg (.seg .cs) (popValue b) (popped b) ∧ popOk c = true ∧ t = writeIp (popValue c) (popped c) := by
  simp only [leaveMeaning, finish_eq_next, bind_eq_ok, readReg_ok, pop16_ok, Prod.exists, ok_eq_ok, gpr]
  grind

theorem jccMeaning_next {c : Cond} {rel : Word} : jccMeaning i c rel s = .next t ↔
    canRead .zf s = true ∧ (c = .e ∨ c = .ne ∨ canRead .cf s = true) ∧
    t = if condHolds c s.zf s.cf then writeIp (relTarget s.ip i.length rel) s else advance i.length s := by
  simp only [jccMeaning, finish_eq_next, bind_eq_ok, evalCond_ok]
  constructor
  · rintro ⟨b, ⟨h1, h2, rfl⟩, h⟩
    split at h <;> rw [ok_eq_ok] at h <;> exact ⟨h1, h2, by simp [*]⟩
  · rintro ⟨h1, h2, rfl⟩
    exact ⟨_, ⟨h1, h2, rfl⟩, by split <;> rfl⟩

theorem callNearMeaning_next {rel : Word} : callNearMeaning i rel s = .next t ↔
    callOk s = true ∧ t = writeIp (relTarget s.ip i.length rel) (called s) := by
  simp only [callNearMeaning, finish_eq_next, bind_eq_ok, callFrame_ok, ok_eq_ok]
  grind

/-- What a CALL has pushed leaves CS, the segments and what may be read as they were. -/
theorem called_cs : (called s).regs.get (.seg .cs) = sreg s .cs := by
  simp [called, regs_pushed, Bank.get_set, sreg]

theorem regOk_called_cs (h : callOk s = true) : regOk (called s) (.seg .cs) = true := by
  simp only [callOk, Bool.and_eq_true] at h
  simp [called, regOk_writeReg, regOk_pushed, h]

theorem callFarMeaning_next : callFarMeaning i s = .next t ↔ callOk s = true ∧
    ∃ m f w ws, relocHere s = some (.importRef m f) ∧ hostReply m f (called s) = .returned w ws ∧
      ∃ u v, u = applyHostWrites (recordInvoke m f (called s)) ws ∧ popOk u = true ∧
        v = writeReg (.seg .cs) (popValue u) (popped u) ∧ popOk v = true ∧
        t = writeIp (popValue v + BitVec.ofNat 16 i.length) (popped v) := by
  simp only [callFarMeaning, finish_eq_next, bind_eq_ok, callFrame_ok, readReg_ok]
  constructor
  · rintro ⟨u, ⟨hc, rfl⟩, cs, ⟨hcs, rfl⟩, h⟩
    rw [called_cs, relocAt_eq_of_store (show (called s).store = s.store from rfl)] at h
    split at h
    · rename_i m f hr
      simp only [bind_eq_ok, hostInvoke_ok, pop16_ok, Prod.exists, ok_eq_ok] at h
      obtain ⟨w, u, ⟨ws, hy, hu⟩, cs', p, ⟨hp, hcs', rfl⟩, ipr, q, ⟨hq, rfl, rfl⟩, rfl⟩ := h
      subst hu hcs'
      exact ⟨hc, m, f, w, ws, hr, hy, _, _, rfl, hp, rfl, hq, rfl⟩
    · cases h
    · cases h
  · rintro ⟨hc, m, f, w, ws, hr, hy, u, v, rfl, hp, rfl, hq, rfl⟩
    refine ⟨_, ⟨hc, rfl⟩, _, ⟨regOk_called_cs hc, rfl⟩, ?_⟩
    rw [called_cs, relocAt_eq_of_store (show (called s).store = s.store from rfl),
      show relocAt (sreg s .cs) (s.ip + Config.relocProbeOffset) s = _ from hr]
    simp only [bind_eq_ok, hostInvoke_ok, pop16_ok, Prod.exists, ok_eq_ok]
    exact ⟨w, _, ⟨ws, hy, rfl⟩, _, _, ⟨hp, rfl, rfl⟩, _, _, ⟨hq, rfl, rfl⟩, rfl⟩

end Sys2Proof.Machine
end

