-- ==== Sys2Proof/Laws/PerInstr.lean ====
section
/-!
SUPPORT. One lemma per constructor of Instr: a well-formed instruction's decoded record is a row of rule
R93 at every offset, its length is that of its encoding, and that is 1 to 7 bytes (R65, R93).
-/

namespace Sys2Proof.Laws.FormAdmitted

/-- The decoded record of a well-formed instruction is admitted, and its length is its encoding's. -/
def Statement (i : Instr) : Prop :=
  i.wellFormed = true → ∀ ip : Word, (i.decoded ip).admitted = true ∧ (i.decoded ip).length = (encode i).length ∧
    1 ≤ (encode i).length ∧ (encode i).length ≤ 7

theorem ovBytes_length (ov : Option Sreg) : (ovBytes ov).length ≤ 1 := by
  rcases ov with _ | s <;> simp [ovBytes]

theorem addRmR (g : Gpr) (m : Gpr) : Statement (.addRmR g m) := by
  intro _ ip
  refine ⟨rfl, rfl, ?_, ?_⟩ <;> exact Nat.le_of_ble_eq_true rfl

theorem addRRm (g : Gpr) (m : Gpr) : Statement (.addRRm g m) := by
  intro _ ip
  refine ⟨rfl, rfl, ?_, ?_⟩ <;> exact Nat.le_of_ble_eq_true rfl

theorem addAxI16 (i : Word) : Statement (.addAxI16 i) := by
  intro _ ip
  refine ⟨rfl, rfl, ?_, ?_⟩ <;> exact Nat.le_of_ble_eq_true rfl

theorem addRmI16 (m : Gpr) (i : Word) : Statement (.addRmI16 m i) := by
  intro _ ip
  refine ⟨rfl, rfl, ?_, ?_⟩ <;> exact Nat.le_of_ble_eq_true rfl

theorem addRmI8 (m : Gpr) (i : Byte) : Statement (.addRmI8 m i) := by
  intro _ ip
  refine ⟨rfl, rfl, ?_, ?_⟩ <;> exact Nat.le_of_ble_eq_true rfl

theorem cmpRmR (g : Gpr) (m : Gpr) : Statement (.cmpRmR g m) := by
  intro _ ip
  refine ⟨rfl, rfl, ?_, ?_⟩ <;> exact Nat.le_of_ble_eq_true rfl

theorem cmpD16R (ov : Option Sreg) (g : Gpr) (d : Word) : Statement (.cmpD16R ov g d) := by
  intro hw ip
  have := ovBytes_length ov
  refine ⟨?_, rfl, ?_, ?_⟩
  · rfl
  all_goals simp only [encode, le16, List.length_append, List.length_cons, List.length_nil]; omega

theorem cmpB8R (ov : Option Sreg) (g : Gpr) (d : Byte) : Statement (.cmpB8R ov g d) := by
  intro hw ip
  have := ovBytes_length ov
  refine ⟨?_, rfl, ?_, ?_⟩
  · rfl
  all_goals simp only [encode, List.length_append, List.length_cons, List.length_nil]; omega

theorem cmpB16R (ov : Option Sreg) (g : Gpr) (d : Word) : Statement (.cmpB16R ov g d) := by
  intro hw ip
  have := ovBytes_length ov
  refine ⟨?_, rfl, ?_, ?_⟩
  · rfl
  all_goals simp only [encode, le16, List.length_append, List.length_cons, List.length_nil]; omega

theorem cmpRRm (g : Gpr) (m : Gpr) : Statement (.cmpRRm g m) := by
  intro _ ip
  refine ⟨rfl, rfl, ?_, ?_⟩ <;> exact Nat.le_of_ble_eq_true rfl

theorem cmpRD16 (ov : Option Sreg) (g : Gpr) (d : Word) : Statement (.cmpRD16 ov g d) := by
  intro hw ip
  have := ovBytes_length ov
  refine ⟨?_, rfl, ?_, ?_⟩
  · rfl
  all_goals simp only [encode, le16, List.length_append, List.length_cons, List.length_nil]; omega

theorem cmpRB8 (ov : Option Sreg) (g : Gpr) (d : Byte) : Statement (.cmpRB8 ov g d) := by
  intro hw ip
  have := ovBytes_length ov
  refine ⟨?_, rfl, ?_, ?_⟩
  · rfl
  all_goals simp only [encode, List.length_append, List.length_cons, List.length_nil]; omega

theorem cmpRB16 (ov : Option Sreg) (g : Gpr) (d : Word) : Statement (.cmpRB16 ov g d) := by
  intro hw ip
  have := ovBytes_length ov
  refine ⟨?_, rfl, ?_, ?_⟩
  · rfl
  all_goals simp only [encode, le16, List.length_append, List.length_cons, List.length_nil]; omega

theorem cmpAxI16 (i : Word) : Statement (.cmpAxI16 i) := by
  intro _ ip
  refine ⟨rfl, rfl, ?_, ?_⟩ <;> exact Nat.le_of_ble_eq_true rfl

theorem cmpRmI16 (m : Gpr) (i : Word) : Statement (.cmpRmI16 m i) := by
  intro _ ip
  refine ⟨rfl, rfl, ?_, ?_⟩ <;> exact Nat.le_of_ble_eq_true rfl

theorem cmpD16I16 (ov : Option Sreg) (d : Word) (i : Word) : Statement (.cmpD16I16 ov d i) := by
  intro hw ip
  have := ovBytes_length ov
  refine ⟨?_, rfl, ?_, ?_⟩
  · rfl
  all_goals simp only [encode, le16, List.length_append, List.length_cons, List.length_nil]; omega

theorem cmpB8I16 (ov : Option Sreg) (d : Byte) (i : Word) : Statement (.cmpB8I16 ov d i) := by
  intro hw ip
  have := ovBytes_length ov
  refine ⟨?_, rfl, ?_, ?_⟩
  · rfl
  all_goals simp only [encode, le16, List.length_append, List.length_cons, List.length_nil]; omega

theorem cmpB16I16 (ov : Option Sreg) (d : Word) (i : Word) : Statement (.cmpB16I16 ov d i) := by
  intro hw ip
  have := ovBytes_length ov
  refine ⟨?_, rfl, ?_, ?_⟩
  · rfl
  all_goals simp only [encode, le16, List.length_append, List.length_cons, List.length_nil]; omega

theorem cmpRmI8 (m : Gpr) (i : Byte) : Statement (.cmpRmI8 m i) := by
  intro _ ip
  refine ⟨rfl, rfl, ?_, ?_⟩ <;> exact Nat.le_of_ble_eq_true rfl

theorem cmpD16I8 (ov : Option Sreg) (d : Word) (i : Byte) : Statement (.cmpD16I8 ov d i) := by
  intro hw ip
  have := ovBytes_length ov
  refine ⟨?_, rfl, ?_, ?_⟩
  · rfl
  all_goals simp only [encode, le16, List.length_append, List.length_cons, List.length_nil]; omega

theorem cmpB8I8 (ov : Option Sreg) (d : Byte) (i : Byte) : Statement (.cmpB8I8 ov d i) := by
  intro hw ip
  have := ovBytes_length ov
  refine ⟨?_, rfl, ?_, ?_⟩
  · rfl
  all_goals simp only [encode, List.length_append, List.length_cons, List.length_nil]; omega

theorem cmpB16I8 (ov : Option Sreg) (d : Word) (i : Byte) : Statement (.cmpB16I8 ov d i) := by
  intro hw ip
  have := ovBytes_length ov
  refine ⟨?_, rfl, ?_, ?_⟩
  · rfl
  all_goals simp only [encode, le16, List.length_append, List.length_cons, List.length_nil]; omega

theorem cmpByteD16I8 (ov : Option Sreg) (d : Word) (i : Byte) : Statement (.cmpByteD16I8 ov d i) := by
  intro hw ip
  have := ovBytes_length ov
  refine ⟨?_, rfl, ?_, ?_⟩
  · rfl
  all_goals simp only [encode, le16, List.length_append, List.length_cons, List.length_nil]; omega

theorem cmpByteB8I8 (ov : Option Sreg) (d : Byte) (i : Byte) : Statement (.cmpByteB8I8 ov d i) := by
  intro hw ip
  have := ovBytes_length ov
  refine ⟨?_, rfl, ?_, ?_⟩
  · rfl
  all_goals simp only [encode, List.length_append, List.length_cons, List.length_nil]; omega

theorem cmpByteB16I8 (ov : Option Sreg) (d : Word) (i : Byte) : Statement (.cmpByteB16I8 ov d i) := by
  intro hw ip
  have := ovBytes_length ov
  refine ⟨?_, rfl, ?_, ?_⟩
  · rfl
  all_goals simp only [encode, le16, List.length_append, List.length_cons, List.length_nil]; omega

theorem incR (r : Gpr) : Statement (.incR r) := by
  intro _ ip
  refine ⟨rfl, rfl, ?_, ?_⟩ <;> exact Nat.le_of_ble_eq_true rfl

theorem incRm (m : Gpr) : Statement (.incRm m) := by
  intro _ ip
  refine ⟨rfl, rfl, ?_, ?_⟩ <;> exact Nat.le_of_ble_eq_true rfl

theorem xorRmR (g : Gpr) (m : Gpr) : Statement (.xorRmR g m) := by
  intro _ ip
  refine ⟨rfl, rfl, ?_, ?_⟩ <;> exact Nat.le_of_ble_eq_true rfl

theorem xorRRm (g : Gpr) (m : Gpr) : Statement (.xorRRm g m) := by
  intro _ ip
  refine ⟨rfl, rfl, ?_, ?_⟩ <;> exact Nat.le_of_ble_eq_true rfl

theorem xorRD16 (ov : Option Sreg) (g : Gpr) (d : Word) : Statement (.xorRD16 ov g d) := by
  intro hw ip
  have := ovBytes_length ov
  refine ⟨?_, rfl, ?_, ?_⟩
  · rfl
  all_goals simp only [encode, le16, List.length_append, List.length_cons, List.length_nil]; omega

theorem xorRB8 (ov : Option Sreg) (g : Gpr) (d : Byte) : Statement (.xorRB8 ov g d) := by
  intro hw ip
  have := ovBytes_length ov
  refine ⟨?_, rfl, ?_, ?_⟩
  · rfl
  all_goals simp only [encode, List.length_append, List.length_cons, List.length_nil]; omega

theorem xorRB16 (ov : Option Sreg) (g : Gpr) (d : Word) : Statement (.xorRB16 ov g d) := by
  intro hw ip
  have := ovBytes_length ov
  refine ⟨?_, rfl, ?_, ?_⟩
  · rfl
  all_goals simp only [encode, le16, List.length_append, List.length_cons, List.length_nil]; omega

theorem xorAxI16 (i : Word) : Statement (.xorAxI16 i) := by
  intro _ ip
  refine ⟨rfl, rfl, ?_, ?_⟩ <;> exact Nat.le_of_ble_eq_true rfl

theorem xorRmI16 (m : Gpr) (i : Word) : Statement (.xorRmI16 m i) := by
  intro _ ip
  refine ⟨rfl, rfl, ?_, ?_⟩ <;> exact Nat.le_of_ble_eq_true rfl

theorem xorRmI8 (m : Gpr) (i : Byte) : Statement (.xorRmI8 m i) := by
  intro _ ip
  refine ⟨rfl, rfl, ?_, ?_⟩ <;> exact Nat.le_of_ble_eq_true rfl

theorem orRmR (g : Gpr) (m : Gpr) : Statement (.orRmR g m) := by
  intro _ ip
  refine ⟨rfl, rfl, ?_, ?_⟩ <;> exact Nat.le_of_ble_eq_true rfl

theorem orRRm (g : Gpr) (m : Gpr) : Statement (.orRRm g m) := by
  intro _ ip
  refine ⟨rfl, rfl, ?_, ?_⟩ <;> exact Nat.le_of_ble_eq_true rfl

theorem orRD16 (ov : Option Sreg) (g : Gpr) (d : Word) : Statement (.orRD16 ov g d) := by
  intro hw ip
  have := ovBytes_length ov
  refine ⟨?_, rfl, ?_, ?_⟩
  · rfl
  all_goals simp only [encode, le16, List.length_append, List.length_cons, List.length_nil]; omega

theorem orRB8 (ov : Option Sreg) (g : Gpr) (d : Byte) : Statement (.orRB8 ov g d) := by
  intro hw ip
  have := ovBytes_length ov
  refine ⟨?_, rfl, ?_, ?_⟩
  · rfl
  all_goals simp only [encode, List.length_append, List.length_cons, List.length_nil]; omega

theorem orRB16 (ov : Option Sreg) (g : Gpr) (d : Word) : Statement (.orRB16 ov g d) := by
  intro hw ip
  have := ovBytes_length ov
  refine ⟨?_, rfl, ?_, ?_⟩
  · rfl
  all_goals simp only [encode, le16, List.length_append, List.length_cons, List.length_nil]; omega

theorem orAxI16 (i : Word) : Statement (.orAxI16 i) := by
  intro _ ip
  refine ⟨rfl, rfl, ?_, ?_⟩ <;> exact Nat.le_of_ble_eq_true rfl

theorem orRmI16 (m : Gpr) (i : Word) : Statement (.orRmI16 m i) := by
  intro _ ip
  refine ⟨rfl, rfl, ?_, ?_⟩ <;> exact Nat.le_of_ble_eq_true rfl

theorem orRmI8 (m : Gpr) (i : Byte) : Statement (.orRmI8 m i) := by
  intro _ ip
  refine ⟨rfl, rfl, ?_, ?_⟩ <;> exact Nat.le_of_ble_eq_true rfl

theorem shlRm1 (m : Gpr) : Statement (.shlRm1 m) := by
  intro _ ip
  refine ⟨rfl, rfl, ?_, ?_⟩ <;> exact Nat.le_of_ble_eq_true rfl

theorem shlRmI8 (m : Gpr) (i : Byte) : Statement (.shlRmI8 m i) := by
  intro _ ip
  refine ⟨rfl, rfl, ?_, ?_⟩ <;> exact Nat.le_of_ble_eq_true rfl

theorem pushR (r : Gpr) : Statement (.pushR r) := by
  intro _ ip
  refine ⟨rfl, rfl, ?_, ?_⟩ <;> exact Nat.le_of_ble_eq_true rfl

theorem pushRm (m : Gpr) : Statement (.pushRm m) := by
  intro _ ip
  refine ⟨rfl, rfl, ?_, ?_⟩ <;> exact Nat.le_of_ble_eq_true rfl

theorem pushD16 (ov : Option Sreg) (d : Word) : Statement (.pushD16 ov d) := by
  intro hw ip
  have := ovBytes_length ov
  refine ⟨?_, rfl, ?_, ?_⟩
  · rfl
  all_goals simp only [encode, le16, List.length_append, List.length_cons, List.length_nil]; omega

theorem pushB8 (ov : Option Sreg) (d : Byte) : Statement (.pushB8 ov d) := by
  intro hw ip
  have := ovBytes_length ov
  refine ⟨?_, rfl, ?_, ?_⟩
  · rfl
  all_goals simp only [encode, List.length_append, List.length_cons, List.length_nil]; omega

theorem pushB16 (ov : Option Sreg) (d : Word) : Statement (.pushB16 ov d) := by
  intro hw ip
  have := ovBytes_length ov
  refine ⟨?_, rfl, ?_, ?_⟩
  · rfl
  all_goals simp only [encode, le16, List.length_append, List.length_cons, List.length_nil]; omega

theorem pushEs : Statement .pushEs := by
  intro _ ip
  refine ⟨rfl, rfl, ?_, ?_⟩ <;> exact Nat.le_of_ble_eq_true rfl

theorem pushCs : Statement .pushCs := by
  intro _ ip
  refine ⟨rfl, rfl, ?_, ?_⟩ <;> exact Nat.le_of_ble_eq_true rfl

theorem pushSs : Statement .pushSs := by
  intro _ ip
  refine ⟨rfl, rfl, ?_, ?_⟩ <;> exact Nat.le_of_ble_eq_true rfl

theorem pushDs : Statement .pushDs := by
  intro _ ip
  refine ⟨rfl, rfl, ?_, ?_⟩ <;> exact Nat.le_of_ble_eq_true rfl

theorem pushI16 (i : Word) : Statement (.pushI16 i) := by
  intro _ ip
  refine ⟨rfl, rfl, ?_, ?_⟩ <;> exact Nat.le_of_ble_eq_true rfl

theorem pushI8 (i : Byte) : Statement (.pushI8 i) := by
  intro _ ip
  refine ⟨rfl, rfl, ?_, ?_⟩ <;> exact Nat.le_of_ble_eq_true rfl

theorem popR (r : Gpr) : Statement (.popR r) := by
  intro _ ip
  refine ⟨rfl, rfl, ?_, ?_⟩ <;> exact Nat.le_of_ble_eq_true rfl

theorem popRm (m : Gpr) : Statement (.popRm m) := by
  intro _ ip
  refine ⟨rfl, rfl, ?_, ?_⟩ <;> exact Nat.le_of_ble_eq_true rfl

theorem popEs : Statement .popEs := by
  intro _ ip
  refine ⟨rfl, rfl, ?_, ?_⟩ <;> exact Nat.le_of_ble_eq_true rfl

theorem popSs : Statement .popSs := by
  intro _ ip
  refine ⟨rfl, rfl, ?_, ?_⟩ <;> exact Nat.le_of_ble_eq_true rfl

theorem popDs : Statement .popDs := by
  intro _ ip
  refine ⟨rfl, rfl, ?_, ?_⟩ <;> exact Nat.le_of_ble_eq_true rfl

theorem movRI16 (r : Gpr) (i : Word) : Statement (.movRI16 r i) := by
  intro _ ip
  refine ⟨rfl, rfl, ?_, ?_⟩ <;> exact Nat.le_of_ble_eq_true rfl

theorem movRmI16 (m : Gpr) (i : Word) : Statement (.movRmI16 m i) := by
  intro _ ip
  refine ⟨rfl, rfl, ?_, ?_⟩ <;> exact Nat.le_of_ble_eq_true rfl

theorem movD16I16 (ov : Option Sreg) (d : Word) (i : Word) : Statement (.movD16I16 ov d i) := by
  intro hw ip
  have := ovBytes_length ov
  refine ⟨?_, rfl, ?_, ?_⟩
  · rfl
  all_goals simp only [encode, le16, List.length_append, List.length_cons, List.length_nil]; omega

theorem movB8I16 (ov : Option Sreg) (d : Byte) (i : Word) : Statement (.movB8I16 ov d i) := by
  intro hw ip
  have := ovBytes_length ov
  refine ⟨?_, rfl, ?_, ?_⟩
  · rfl
  all_goals simp only [encode, le16, List.length_append, List.length_cons, List.length_nil]; omega

theorem movB16I16 (ov : Option Sreg) (d : Word) (i : Word) : Statement (.movB16I16 ov d i) := by
  intro hw ip
  have := ovBytes_length ov
  refine ⟨?_, rfl, ?_, ?_⟩
  · rfl
  all_goals simp only [encode, le16, List.length_append, List.length_cons, List.length_nil]; omega

theorem movByteD16I8 (ov : Option Sreg) (d : Word) (i : Byte) : Statement (.movByteD16I8 ov d i) := by
  intro hw ip
  have := ovBytes_length ov
  refine ⟨?_, rfl, ?_, ?_⟩
  · rfl
  all_goals simp only [encode, le16, List.length_append, List.length_cons, List.length_nil]; omega

theorem movByteB8I8 (ov : Option Sreg) (d : Byte) (i : Byte) : Statement (.movByteB8I8 ov d i) := by
  intro hw ip
  have := ovBytes_length ov
  refine ⟨?_, rfl, ?_, ?_⟩
  · rfl
  all_goals simp only [encode, List.length_append, List.length_cons, List.length_nil]; omega

theorem movByteB16I8 (ov : Option Sreg) (d : Word) (i : Byte) : Statement (.movByteB16I8 ov d i) := by
  intro hw ip
  have := ovBytes_length ov
  refine ⟨?_, rfl, ?_, ?_⟩
  · rfl
  all_goals simp only [encode, le16, List.length_append, List.length_cons, List.length_nil]; omega

theorem movRmR (g : Gpr) (m : Gpr) : Statement (.movRmR g m) := by
  intro _ ip
  refine ⟨rfl, rfl, ?_, ?_⟩ <;> exact Nat.le_of_ble_eq_true rfl

theorem movD16R (ov : Option Sreg) (g : Gpr) (d : Word) : Statement (.movD16R ov g d) := by
  intro hw ip
  have := ovBytes_length ov
  refine ⟨?_, rfl, ?_, ?_⟩
  · rfl
  all_goals simp only [encode, le16, List.length_append, List.length_cons, List.length_nil]; omega

theorem movB8R (ov : Option Sreg) (g : Gpr) (d : Byte) : Statement (.movB8R ov g d) := by
  intro hw ip
  have := ovBytes_length ov
  refine ⟨?_, rfl, ?_, ?_⟩
  · rfl
  all_goals simp only [encode, List.length_append, List.length_cons, List.length_nil]; omega

theorem movB16R (ov : Option Sreg) (g : Gpr) (d : Word) : Statement (.movB16R ov g d) := by
  intro hw ip
  have := ovBytes_length ov
  refine ⟨?_, rfl, ?_, ?_⟩
  · rfl
  all_goals simp only [encode, le16, List.length_append, List.length_cons, List.length_nil]; omega

theorem movRRm (g : Gpr) (m : Gpr) : Statement (.movRRm g m) := by
  intro _ ip
  refine ⟨rfl, rfl, ?_, ?_⟩ <;> exact Nat.le_of_ble_eq_true rfl

theorem movRD16 (ov : Option Sreg) (g : Gpr) (d : Word) : Statement (.movRD16 ov g d) := by
  intro hw ip
  have := ovBytes_length ov
  refine ⟨?_, rfl, ?_, ?_⟩
  · rfl
  all_goals simp only [encode, le16, List.length_append, List.length_cons, List.length_nil]; omega

theorem movRB8 (ov : Option Sreg) (g : Gpr) (d : Byte) : Statement (.movRB8 ov g d) := by
  intro hw ip
  have := ovBytes_length ov
  refine ⟨?_, rfl, ?_, ?_⟩
  · rfl
  all_goals simp only [encode, List.length_append, List.length_cons, List.length_nil]; omega

theorem movRB16 (ov : Option Sreg) (g : Gpr) (d : Word) : Statement (.movRB16 ov g d) := by
  intro hw ip
  have := ovBytes_length ov
  refine ⟨?_, rfl, ?_, ?_⟩
  · rfl
  all_goals simp only [encode, le16, List.length_append, List.length_cons, List.length_nil]; omega

theorem movRmS (s : Sreg) (m : Gpr) : Statement (.movRmS s m) := by
  intro _ ip
  refine ⟨rfl, rfl, ?_, ?_⟩ <;> exact Nat.le_of_ble_eq_true rfl

theorem movD16S (ov : Option Sreg) (s : Sreg) (d : Word) : Statement (.movD16S ov s d) := by
  intro hw ip
  have := ovBytes_length ov
  refine ⟨?_, rfl, ?_, ?_⟩
  · rfl
  all_goals simp only [encode, le16, List.length_append, List.length_cons, List.length_nil]; omega

theorem movB8S (ov : Option Sreg) (s : Sreg) (d : Byte) : Statement (.movB8S ov s d) := by
  intro hw ip
  have := ovBytes_length ov
  refine ⟨?_, rfl, ?_, ?_⟩
  · rfl
  all_goals simp only [encode, List.length_append, List.length_cons, List.length_nil]; omega

theorem movB16S (ov : Option Sreg) (s : Sreg) (d : Word) : Statement (.movB16S ov s d) := by
  intro hw ip
  have := ovBytes_length ov
  refine ⟨?_, rfl, ?_, ?_⟩
  · rfl
  all_goals simp only [encode, le16, List.length_append, List.length_cons, List.length_nil]; omega

theorem movSRm (s : Sreg) (m : Gpr) : Statement (.movSRm s m) := by
  intro hw ip
  refine ⟨hw, rfl, ?_, ?_⟩ <;> exact Nat.le_of_ble_eq_true rfl

theorem movSD16 (ov : Option Sreg) (s : Sreg) (d : Word) : Statement (.movSD16 ov s d) := by
  intro hw ip
  have := ovBytes_length ov
  refine ⟨?_, rfl, ?_, ?_⟩
  · cases s <;> first | rfl | cases hw
  all_goals simp only [encode, le16, List.length_append, List.length_cons, List.length_nil]; omega

theorem movSB8 (ov : Option Sreg) (s : Sreg) (d : Byte) : Statement (.movSB8 ov s d) := by
  intro hw ip
  have := ovBytes_length ov
  refine ⟨?_, rfl, ?_, ?_⟩
  · cases s <;> first | rfl | cases hw
  all_goals simp only [encode, List.length_append, List.length_cons, List.length_nil]; omega

theorem movSB16 (ov : Option Sreg) (s : Sreg) (d : Word) : Statement (.movSB16 ov s d) := by
  intro hw ip
  have := ovBytes_length ov
  refine ⟨?_, rfl, ?_, ?_⟩
  · cases s <;> first | rfl | cases hw
  all_goals simp only [encode, le16, List.length_append, List.length_cons, List.length_nil]; omega

theorem movAxMoffs (ov : Option Sreg) (d : Word) : Statement (.movAxMoffs ov d) := by
  intro hw ip
  have := ovBytes_length ov
  refine ⟨?_, rfl, ?_, ?_⟩
  · rfl
  all_goals simp only [encode, le16, List.length_append, List.length_cons, List.length_nil]; omega

theorem movMoffsAx (ov : Option Sreg) (d : Word) : Statement (.movMoffsAx ov d) := by
  intro hw ip
  have := ovBytes_length ov
  refine ⟨?_, rfl, ?_, ?_⟩
  · rfl
  all_goals simp only [encode, le16, List.length_append, List.length_cons, List.length_nil]; omega

theorem leaRB8 (ov : Option Sreg) (g : Gpr) (d : Byte) : Statement (.leaRB8 ov g d) := by
  intro hw ip
  have := ovBytes_length ov
  refine ⟨?_, rfl, ?_, ?_⟩
  · rfl
  all_goals simp only [encode, List.length_append, List.length_cons, List.length_nil]; omega

theorem leaRB16 (ov : Option Sreg) (g : Gpr) (d : Word) : Statement (.leaRB16 ov g d) := by
  intro hw ip
  have := ovBytes_length ov
  refine ⟨?_, rfl, ?_, ?_⟩
  · rfl
  all_goals simp only [encode, le16, List.length_append, List.length_cons, List.length_nil]; omega

theorem enterI16 (i : Word) : Statement (.enterI16 i) := by
  intro _ ip
  refine ⟨rfl, rfl, ?_, ?_⟩ <;> exact Nat.le_of_ble_eq_true rfl

theorem leave : Statement .leave := by
  intro _ ip
  refine ⟨rfl, rfl, ?_, ?_⟩ <;> exact Nat.le_of_ble_eq_true rfl

theorem stosw : Statement .stosw := by
  intro _ ip
  refine ⟨rfl, rfl, ?_, ?_⟩ <;> exact Nat.le_of_ble_eq_true rfl

theorem repStosw : Statement .repStosw := by
  intro _ ip
  refine ⟨rfl, rfl, ?_, ?_⟩ <;> exact Nat.le_of_ble_eq_true rfl

theorem repneStosw : Statement .repneStosw := by
  intro _ ip
  refine ⟨rfl, rfl, ?_, ?_⟩ <;> exact Nat.le_of_ble_eq_true rfl

theorem jeRel8 (rel : Byte) : Statement (.jeRel8 rel) := by
  intro _ ip
  refine ⟨rfl, rfl, ?_, ?_⟩ <;> exact Nat.le_of_ble_eq_true rfl

theorem jeRel16 (rel : Word) : Statement (.jeRel16 rel) := by
  intro _ ip
  refine ⟨rfl, rfl, ?_, ?_⟩ <;> exact Nat.le_of_ble_eq_true rfl

theorem jneRel8 (rel : Byte) : Statement (.jneRel8 rel) := by
  intro _ ip
  refine ⟨rfl, rfl, ?_, ?_⟩ <;> exact Nat.le_of_ble_eq_true rfl

theorem jneRel16 (rel : Word) : Statement (.jneRel16 rel) := by
  intro _ ip
  refine ⟨rfl, rfl, ?_, ?_⟩ <;> exact Nat.le_of_ble_eq_true rfl

theorem jlRel8 (rel : Byte) : Statement (.jlRel8 rel) := by
  intro _ ip
  refine ⟨rfl, rfl, ?_, ?_⟩ <;> exact Nat.le_of_ble_eq_true rfl

theorem jlRel16 (rel : Word) : Statement (.jlRel16 rel) := by
  intro _ ip
  refine ⟨rfl, rfl, ?_, ?_⟩ <;> exact Nat.le_of_ble_eq_true rfl

theorem jgeRel8 (rel : Byte) : Statement (.jgeRel8 rel) := by
  intro _ ip
  refine ⟨rfl, rfl, ?_, ?_⟩ <;> exact Nat.le_of_ble_eq_true rfl

theorem jgeRel16 (rel : Word) : Statement (.jgeRel16 rel) := by
  intro _ ip
  refine ⟨rfl, rfl, ?_, ?_⟩ <;> exact Nat.le_of_ble_eq_true rfl

theorem jleRel8 (rel : Byte) : Statement (.jleRel8 rel) := by
  intro _ ip
  refine ⟨rfl, rfl, ?_, ?_⟩ <;> exact Nat.le_of_ble_eq_true rfl

theorem jleRel16 (rel : Word) : Statement (.jleRel16 rel) := by
  intro _ ip
  refine ⟨rfl, rfl, ?_, ?_⟩ <;> exact Nat.le_of_ble_eq_true rfl

theorem jbeRel8 (rel : Byte) : Statement (.jbeRel8 rel) := by
  intro _ ip
  refine ⟨rfl, rfl, ?_, ?_⟩ <;> exact Nat.le_of_ble_eq_true rfl

theorem jbeRel16 (rel : Word) : Statement (.jbeRel16 rel) := by
  intro _ ip
  refine ⟨rfl, rfl, ?_, ?_⟩ <;> exact Nat.le_of_ble_eq_true rfl

theorem jmpRel8 (rel : Byte) : Statement (.jmpRel8 rel) := by
  intro _ ip
  refine ⟨rfl, rfl, ?_, ?_⟩ <;> exact Nat.le_of_ble_eq_true rfl

theorem jmpRel16 (rel : Word) : Statement (.jmpRel16 rel) := by
  intro _ ip
  refine ⟨rfl, rfl, ?_, ?_⟩ <;> exact Nat.le_of_ble_eq_true rfl

theorem callRel16 (rel : Word) : Statement (.callRel16 rel) := by
  intro _ ip
  refine ⟨rfl, rfl, ?_, ?_⟩ <;> exact Nat.le_of_ble_eq_true rfl

theorem callFar (sel : Word) : Statement (.callFar sel) := by
  intro _ ip
  refine ⟨rfl, rfl, ?_, ?_⟩ <;> exact Nat.le_of_ble_eq_true rfl

end Sys2Proof.Laws.FormAdmitted
end

