-- ==== Sys2Proof/Laws/Store.lean ====
section
/-!
SUPPORT. The Segment Store: finding a segment after one is inserted, and that insertion keeps the
segments sorted (R31, R41).
-/

namespace Sys2Proof.Machine

open Sys2Proof.Safety

theorem mem_insertSegment {g x : Segment} {l : List Segment} : x ∈ insertSegment g l ↔ x = g ∨ x ∈ l := by
  induction l with
  | nil => simp [insertSegment]
  | cons a l ih =>
    rw [insertSegment]
    split
    · simp
    · simp [ih]; grind

theorem findSegment_insert_same {g : Segment} {l : List Segment} (hn : findSegment l g.ordinal = none) :
    findSegment (insertSegment g l) g.ordinal = some g := by
  induction l with
  | nil => simp [insertSegment, findSegment]
  | cons a l ih =>
    simp only [findSegment, List.find?_cons] at hn ih
    rw [insertSegment]
    split
    · simp [findSegment]
    · split at hn
      · cases hn
      · rename_i h
        simp only [findSegment, List.find?_cons, h]
        exact ih hn

theorem findSegment_insert_other {g : Segment} {l : List Segment} {h : Word} (hne : h ≠ g.ordinal) :
    findSegment (insertSegment g l) h = findSegment l h := by
  have hg : (g.ordinal == h) = false := by simp [Ne.symm hne]
  induction l with
  | nil => simp [insertSegment, findSegment, Ne.symm hne]
  | cons a l ih =>
    rw [insertSegment]
    split
    · simp [findSegment, List.find?_cons, hg]
    · simp only [findSegment, List.find?_cons] at ih ⊢
      rw [ih]

theorem storeSorted_insert {g : Segment} {l : List Segment} (hs : storeSorted l = true)
    (hn : findSegment l g.ordinal = none) : storeSorted (insertSegment g l) = true := by
  induction l with
  | nil => rfl
  | cons a l ih =>
    simp only [storeSorted, List.all_eq_true, decide_eq_true_eq, Bool.and_eq_true] at hs
    simp only [findSegment, List.find?_eq_none, List.mem_cons, beq_iff_eq] at hn
    rw [insertSegment]
    split
    · simp only [storeSorted, List.all_eq_true, decide_eq_true_eq, Bool.and_eq_true, List.mem_cons]
      refine ⟨?_, fun x hx => hs.1 x hx, hs.2⟩
      rintro x (rfl | hx)
      · assumption
      · have := hs.1 x hx
        bv_omega
    · simp only [storeSorted, List.all_eq_true, decide_eq_true_eq, Bool.and_eq_true]
      refine ⟨fun x hx => ?_, ih hs.2 (List.find?_eq_none.mpr fun x hx => by simpa using hn x (.inr hx))⟩
      rcases mem_insertSegment.mp hx with rfl | hx
      · have := hn a (.inl rfl)
        bv_omega
      · exact hs.1 x hx

end Sys2Proof.Machine
end

