-- ==== Sys2Proof/Laws/Stosw.lean ====
section
/-!
SUPPORT. The loop of STOSW (R117) as iterations: what each one does, when the loop goes on, ends or
fails, and what any number of iterations leaves.
-/

namespace Sys2Proof.Machine

open Sys2Proof.Safety

/-- The state after one iteration. -/
def stoswIter (s : State) : State :=
  writeReg (.gpr .cx) (gpr s .cx - 2#16) (writeReg (.gpr .di) (gpr s .di + 2#16)
    (putWord (sreg s .es) (gpr s .di).toNat (gpr s .ax) s))

/-- The state after `k` iterations. -/
def stoswIters : Nat → State → State
  | 0, s => s
  | k + 1, s => stoswIter (stoswIters k s)

/-- An iteration's registers may be read and its word is in bounds. -/
def stoswGuard (s : State) : Prop :=
  regOk s (.gpr .cx) = true ∧ gpr s .cx ≠ 0#16 ∧ stoswRegsOk s = true ∧ inBounds s (sreg s .es) (gpr s .di).toNat 2 = true

theorem stoswIters_succ (k : Nat) (s : State) : stoswIters (k + 1) s = stoswIters k (stoswIter s) := by
  induction k with
  | zero => rfl
  | succ k ih => rw [stoswIters, ih]; rfl

/-- With CX = 0 the loop is over. -/
theorem stoswLoop_done {n : Nat} {s : State} (h1 : regOk s (.gpr .cx) = true) (h2 : gpr s .cx = 0#16) :
    stoswLoop (n + 1) s = .ok s := by
  rw [stoswLoop, bind_of_ok (readReg_ok.mpr ⟨h1, rfl⟩)]
  exact if_pos h2

/-- With CX nonzero the loop reads ES, DI and AX and goes on after an iteration. -/
theorem stoswLoop_iter {n : Nat} {s : State} (h : stoswGuard s) : stoswLoop (n + 1) s = stoswLoop n (stoswIter s) := by
  obtain ⟨h1, h2, h3, h4⟩ := h
  simp only [stoswRegsOk, Bool.and_eq_true] at h3
  rw [stoswLoop, bind_of_ok (readReg_ok.mpr ⟨h1, rfl⟩), if_neg (show ¬s.regs.get (.gpr .cx) = 0#16 from h2),
    bind_of_ok (readReg_ok.mpr ⟨h3.1.1, rfl⟩), bind_of_ok (readReg_ok.mpr ⟨h3.1.2, rfl⟩),
    bind_of_ok (readReg_ok.mpr ⟨h3.2, rfl⟩)]
  exact bind_of_ok (memWrite16_ok.mpr ⟨h4, rfl⟩)

/-- The word of an iteration is out of bounds. -/
theorem stoswLoop_out {n : Nat} {s : State} (h1 : regOk s (.gpr .cx) = true) (h2 : gpr s .cx ≠ 0#16)
    (h3 : stoswRegsOk s = true) (h4 : inBounds s (sreg s .es) (gpr s .di).toNat 2 = false) :
    stoswLoop (n + 1) s = .error (.segmentFault (sreg s .es) (gpr s .di).toNat) := by
  simp only [stoswRegsOk, Bool.and_eq_true] at h3
  rw [stoswLoop, bind_of_ok (readReg_ok.mpr ⟨h1, rfl⟩), if_neg (show ¬s.regs.get (.gpr .cx) = 0#16 from h2),
    bind_of_ok (readReg_ok.mpr ⟨h3.1.1, rfl⟩), bind_of_ok (readReg_ok.mpr ⟨h3.1.2, rfl⟩),
    bind_of_ok (readReg_ok.mpr ⟨h3.2, rfl⟩)]
  exact bind_of_error (access_error.mpr ⟨h4, rfl⟩)

/-- `k` iterations in order, one after the other. -/
theorem stoswLoop_iters {k n : Nat} {s : State} (h : ∀ j, j < k → stoswGuard (stoswIters j s)) :
    stoswLoop (n + k) s = stoswLoop n (stoswIters k s) := by
  induction k generalizing n with
  | zero => rfl
  | succ k ih =>
    rw [show n + (k + 1) = (n + 1) + k by omega, ih fun j hj => h j (by omega), stoswLoop_iter (h k (by omega))]
    rfl

/-- A loop that ends has made some number of iterations, each in order, and CX is then 0. -/
theorem stoswLoop_ok {n : Nat} {s t : State} (h : stoswLoop n s = .ok t) :
    ∃ k, k < n ∧ (∀ j, j < k → stoswGuard (stoswIters j s)) ∧ t = stoswIters k s ∧ gpr t .cx = 0#16 := by
  induction n generalizing s with
  | zero => cases h
  | succ n ih =>
    rw [stoswLoop, bind_eq_ok] at h
    obtain ⟨cx, hcx, h⟩ := h
    obtain ⟨h1, rfl⟩ := readReg_ok.mp hcx
    split at h
    · cases h
      exact ⟨0, by omega, by simp, rfl, ‹_›⟩
    · rename_i h2
      simp only [bind_eq_ok, readReg_ok, memWrite16_ok] at h
      obtain ⟨es, ⟨h3, rfl⟩, di, ⟨h4, rfl⟩, ax, ⟨h5, rfl⟩, u, ⟨h6, rfl⟩, h⟩ := h
      obtain ⟨k, hk, hg, rfl, hz⟩ := ih h
      refine ⟨k + 1, by omega, fun j hj => ?_, (stoswIters_succ k s).symm, hz⟩
      cases j with
      | zero => exact ⟨h1, h2, by simp [stoswRegsOk, stoswIters, h3, h4, h5], h6⟩
      | succ j => rw [stoswIters_succ]; exact hg j (by omega)

/-- Only memory, CX and DI change. -/
theorem stoswIters_fields (k : Nat) (s : State) :
    (stoswIters k s).flags = s.flags ∧ (stoswIters k s).ip = s.ip ∧ (stoswIters k s).store = s.store ∧
    (stoswIters k s).arena = s.arena ∧ (stoswIters k s).cfg = s.cfg ∧ (stoswIters k s).status = s.status := by
  induction k with
  | zero => exact ⟨rfl, rfl, rfl, rfl, rfl, rfl⟩
  | succ k ih => exact ih

theorem stoswIters_regs (k : Nat) (s : State) (r : Reg) : (stoswIters k s).regs.get r =
    if r = .gpr .cx then gpr s .cx - BitVec.ofNat 16 (2 * k)
    else if r = .gpr .di then gpr s .di + BitVec.ofNat 16 (2 * k) else s.regs.get r := by
  induction k generalizing r with
  | zero => split <;> [skip; split] <;> simp_all [stoswIters, gpr]
  | succ k ih =>
    simp only [stoswIters, stoswIter, writeReg_regs, putWord_regs, Bank.get_set, gpr, ih]
    split
    · simp; bv_omega
    · split
      · simp; bv_omega
      · rfl

theorem stoswIters_regOk (k : Nat) (s : State) (r : Reg) (h : regOk s r = true) : regOk (stoswIters k s) r = true := by
  induction k with
  | zero => exact h
  | succ k ih => simp [stoswIters, stoswIter, regOk_writeReg, ih]

theorem stoswIters_wf {s : State} (h : Memory.wf s.mem = true) (k : Nat) : Memory.wf (stoswIters k s).mem = true := by
  induction k with
  | zero => exact h
  | succ k ih => exact wf_putWord ih _ _ _

/-- No byte outside the words stored changes. -/
theorem stoswIters_bytes {k : Nat} {s : State} (hg : ∀ j, j < k → stoswOffset s j ≠ 0xFFFF#16) {g : Word} {p : Nat}
    (hp : p < 65536)
    (h : ¬(g = sreg s .es ∧ ∃ j, j < k ∧ (p = (stoswOffset s j).toNat ∨ p = (stoswOffset s j).toNat + 1))) :
    byteAt (stoswIters k s) g p = byteAt s g p := by
  induction k with
  | zero => rfl
  | succ k ih =>
    have hk := hg k (by omega)
    have he : sreg (stoswIters k s) .es = sreg s .es := by simp [sreg, stoswIters_regs]
    have hd : gpr (stoswIters k s) .di = stoswOffset s k := by
      simp [show gpr (stoswIters k s) .di = _ from stoswIters_regs k s (.gpr .di), stoswOffset]
    rw [← ih (fun j hj => hg j (by omega)) fun ⟨h1, j, hj, h2⟩ => h ⟨h1, j, by omega, h2⟩]
    refine byteAt_putWord_other _ _ ?_ hp fun ⟨h1, h2, h3⟩ => h ⟨h1.trans he, k, by omega, ?_⟩
    · rw [hd]; bv_omega
    · rw [hd] at h2 h3; omega

/-- The words stored hold AX, when no word is at 0xFFFF and there are at most 32768 of them. -/
theorem stoswIters_words {k : Nat} {s : State} (hm : Memory.wf s.mem = true) (hk : k ≤ 32768)
    (hg : ∀ j, j < k → stoswOffset s j ≠ 0xFFFF#16) {j : Nat} (hj : j < k) :
    wordAt (stoswIters k s) (sreg s .es) (stoswOffset s j).toNat = gpr s .ax := by
  induction k with
  | zero => omega
  | succ k ih =>
    have hkk := hg k (by omega)
    have hjj := hg j hj
    have he : sreg (stoswIters k s) .es = sreg s .es := by simp [sreg, stoswIters_regs]
    have ha : gpr (stoswIters k s) .ax = gpr s .ax := by simp [gpr, stoswIters_regs]
    have hd : gpr (stoswIters k s) .di = stoswOffset s k := by
      simp [show gpr (stoswIters k s) .di = _ from stoswIters_regs k s (.gpr .di), stoswOffset]
    have hw : ∀ g o, wordAt (stoswIters (k + 1) s) g o =
        wordAt (putWord (sreg s .es) (stoswOffset s k).toNat (gpr s .ax) (stoswIters k s)) g o := by
      intro g o; rw [← he, ← ha, ← hd]; rfl
    rw [hw]
    by_cases hjk : j = k
    · subst hjk
      exact wordAt_putWord_same (stoswIters_wf hm _) _ _ (by bv_omega)
    · have hoff : (stoswOffset s j).toNat ≠ (stoswOffset s k).toNat ∧ (stoswOffset s j).toNat + 1 ≠ (stoswOffset s k).toNat ∧
          (stoswOffset s j).toNat ≠ (stoswOffset s k).toNat + 1 := by
        simp only [stoswOffset, BitVec.toNat_add, BitVec.toNat_ofNat] at hkk hjj ⊢
        omega
      rw [← ih (by omega) (fun l hl => hg l (by omega)) (by omega), wordAt, wordAt,
        byteAt_putWord_other _ _ (by bv_omega) (by omega) (by omega),
        byteAt_putWord_other _ _ (by bv_omega) (by bv_omega) (by omega)]

end Sys2Proof.Machine
end

