-- ==== Sys2Proof/Laws/X86.lean ====
section
/-!
SUPPORT. What `Decode` does outside the admitted forms (R66): the x86 length of an admitted form, with any
prefixes before it, and of a form that the end of the buffer cuts off.
-/

open Sys2Proof

/-! ### The admitted forms have a known length -/

theorem modField_modRM (m : BitVec 2) (r q : BitVec 3) : modField (modRM m r q) = m.toNat := by simp [modField, modRM_mod]
theorem digitField_modRM (m : BitVec 2) (r q : BitVec 3) : digitField (modRM m r q) = r.toNat := by simp [digitField, modRM_reg]
theorem rmField_modRM (m : BitVec 2) (r q : BitVec 3) : rmField (modRM m r q) = q.toNat := by simp [rmField, modRM_rm]

/-- `x86Length` knows the instruction `form`: its length without 66 and 67, at most 4 bytes more with them. -/
def KnownForm (p : Prefixes) (before : Nat) (form : List Byte) : Prop :=
  ∀ rest, ∃ n, x86Length p before (form ++ rest) = .known n ∧ before < n ∧ n ≤ before + form.length + 4 ∧
    (p.operand32 = false → p.address32 = false → n = before + form.length)

/-- A prefix other than 66 and 67 before a known form. -/
theorem KnownForm.prefixed {p q : Prefixes} {before : Nat} {b : Byte} {form : List Byte} (hb : p.add b = some q)
    (ho : q.operand32 = p.operand32) (ha : q.address32 = p.address32) (h : KnownForm q (before + 1) form) :
    KnownForm p before (b :: form) := by
  intro rest
  obtain ⟨n, h1, h2, h3, h4⟩ := h rest
  refine ⟨n, ?_, by omega, by simp only [List.length_cons]; omega, fun h5 h6 => ?_⟩
  · rw [List.cons_append]
    unfold x86Length
    rw [hb]; exact h1
  · rw [h4 (ho.trans h5) (ha.trans h6), List.length_cons]; omega

/-- A segment override before a known form. -/
theorem KnownForm.override {p : Prefixes} {ov : Option Sreg} {form : List Byte} (h : ∀ before, KnownForm p before form) (before : Nat) :
    KnownForm p before (ovBytes ov ++ form) := by
  cases ov with
  | none => exact h before
  | some s => cases s <;> exact KnownForm.prefixed rfl rfl rfl (h _)

/-- The length of a form with a one-byte opcode. -/
theorem x86Length_oneByte {p : Prefixes} {before : Nat} {op : Byte} {bs : List Byte} (hp : p.add op = none) (h0 : op ≠ 0x0F#8)
    (hv : vexPayload op bs = none) (hr : reservedOneByte op (bs.headD 0xC0#8) = false) :
    x86Length p before (op :: bs) = .known (layoutLength (before + 1) p (oneByteLayout op (bs.headD 0xD0#8)) bs) := by
  unfold x86Length
  rw [hp]
  dsimp only
  rw [if_neg h0]
  simp only [oneByteLength, hv, hr, Bool.false_eq_true, if_false]

/-- An opcode that is no prefix, is not 0F, and begins no VEX, EVEX or XOP encoding. -/
def ordinary (op : Byte) : Bool :=
  !([0x26, 0x2E, 0x36, 0x3E, 0x64, 0x65, 0x66, 0x67, 0xF0, 0xF2, 0xF3, 0x0F, 0x62, 0x8F, 0xC4, 0xC5].contains op.toNat)

theorem ordinary_add {op : Byte} (h : ordinary op = true) (p : Prefixes) : p.add op = none := by
  unfold Prefixes.add
  split <;> first | rfl | (rename_i e; rw [ordinary, e] at h; cases h)

theorem ordinary_ne_0F {op : Byte} (h : ordinary op = true) : op ≠ 0x0F#8 := by rintro rfl; cases h

theorem ordinary_vexPayload {op : Byte} (h : ordinary op = true) (bs : List Byte) : vexPayload op bs = none := by
  unfold vexPayload
  split
  · rfl
  · split <;> first | rfl | (rename_i e; rw [ordinary, e] at h; cases h)

/-- What every layout keeps: at most one field of a variable size, and no address beside a ModRM operand. -/
def PlainLayout (l : Layout) : Prop := l.sized + l.address ≤ 1 ∧ (l.modRM = true → l.address = 0)
theorem plain_ite {c : Prop} [Decidable c] {a b : Layout} (ha : PlainLayout a) (hb : PlainLayout b) : PlainLayout (if c then a else b) := by
  split <;> assumption
/-- The layout of every one-byte opcode. -/
theorem oneByteLayout_plain (op m : Byte) : PlainLayout (oneByteLayout op m) := by
  unfold oneByteLayout
  dsimp only
  generalize op.toNat = n
  repeat' apply plain_ite
  all_goals first
    | exact ⟨by decide, by decide⟩
    | (split <;> first
        | exact ⟨by decide, by decide⟩
        | exact ⟨Nat.zero_le _, fun _ => rfl⟩
        | exact ⟨by dsimp only; split <;> decide, fun _ => rfl⟩)

/-- An opcode with no ModRM byte, and its immediate. -/
theorem knownForm_plain {op : Byte} {imm : List Byte} (p : Prefixes) (before : Nat) (ho : ordinary op = true)
    (hr : ∀ m, reservedOneByte op m = false) (hl : ∀ m, oneByteLayout op m = oneByteLayout op 0#8)
    (hm : (oneByteLayout op 0#8).modRM = false)
    (hi : imm.length = (oneByteLayout op 0#8).fixed + 2 * (oneByteLayout op 0#8).sized + 2 * (oneByteLayout op 0#8).address) :
    KnownForm p before (op :: imm) := by
  intro rest
  refine ⟨_, x86Length_oneByte (ordinary_add ho p) (ordinary_ne_0F ho) (ordinary_vexPayload ho _) (hr _), ?_⟩
  have hs := (oneByteLayout_plain op 0#8).1
  rw [hl]
  generalize oneByteLayout op 0#8 = l at *
  simp only [layoutLength, Layout.immBytes, hm, List.length_cons, hi, Bool.false_eq_true, if_false]
  have : (l.sized = 0 ∧ l.address = 0) ∨ (l.sized = 1 ∧ l.address = 0) ∨ (l.sized = 0 ∧ l.address = 1) := by omega
  rcases this with ⟨h, h'⟩ | ⟨h, h'⟩ | ⟨h, h'⟩ <;> rw [h, h'] <;> rcases p with ⟨_ | _, _ | _, _⟩ <;> simp <;> omega

/-- An opcode with a ModRM operand (R72, R73, R76), and its immediate. -/
theorem knownForm_modRM {op : Byte} {m : BitVec 2} {r q : BitVec 3} {disp imm : List Byte} (p : Prefixes) (before : Nat)
    (hv : ∀ bs, vexPayload op (modRM m r q :: bs) = none) (hp : p.add op = none) (h0 : op ≠ 0x0F#8)
    (hr : reservedOneByte op (modRM m r q) = false) (hm : (oneByteLayout op (modRM m r q)).modRM = true)
    (hi : imm.length = (oneByteLayout op (modRM m r q)).fixed + 2 * (oneByteLayout op (modRM m r q)).sized)
    (hd : (m = 3#2 ∧ disp.length = 0) ∨
      (q = 6#3 ∧ ((m = 0#2 ∧ disp.length = 2) ∨ (m = 1#2 ∧ disp.length = 1) ∨ (m = 2#2 ∧ disp.length = 2)))) :
    KnownForm p before (op :: modRM m r q :: (disp ++ imm)) := by
  intro rest
  have hx := x86Length_oneByte (p := p) (before := before) (bs := modRM m r q :: ((disp ++ imm) ++ rest)) hp h0 (hv _) hr
  rw [List.headD_cons] at hx
  refine ⟨_, hx, ?_⟩
  have e : ∀ a, modRMBytes a (modRM m r q :: ((disp ++ imm) ++ rest)) = 1 + disp.length ∨
      (a = true ∧ modRMBytes a (modRM m r q :: ((disp ++ imm) ++ rest)) ≤ 1 + disp.length + 2 ∧
        1 ≤ modRMBytes a (modRM m r q :: ((disp ++ imm) ++ rest))) := by
    intro a
    simp only [modRMBytes, modField_modRM, rmField_modRM, disp16Bytes, disp32Bytes]
    rcases hd with ⟨rfl, h⟩ | ⟨rfl, ⟨rfl, h⟩ | ⟨rfl, h⟩ | ⟨rfl, h⟩⟩ <;> rw [h] <;> cases a <;> simp
  have e := e p.address32
  obtain ⟨hs, ha⟩ := oneByteLayout_plain op (modRM m r q)
  have ha := ha hm
  generalize oneByteLayout op (modRM m r q) = l at *
  simp only [layoutLength, Layout.immBytes, hm, ha, List.length_cons, List.length_append, hi, if_true]
  have : l.sized = 0 ∨ l.sized = 1 := by omega
  rcases p with ⟨_ | _, _ | _, _⟩ <;> rcases this with h | h <;> rw [h] <;> simp at e ⊢ <;> omega

/-- A near conditional jump (0F 8x). -/
theorem knownForm_0F {op : Byte} {lo hi : Byte} (hu : unassignedTwoByte op = false) (h38 : op ≠ 0x38#8) (h3a : op ≠ 0x3A#8)
    (hl : ∀ p, twoByteLayout p op = { sized := 1 }) (p : Prefixes) (before : Nat) : KnownForm p before [0x0F#8, op, lo, hi] := by
  intro rest
  have hx : x86Length p before (0x0F#8 :: op :: lo :: hi :: rest) = .known (layoutLength (before + 2) p (twoByteLayout p op) (lo :: hi :: rest)) := by
    have : p.add 0x0F#8 = none := rfl
    unfold x86Length
    rw [this]
    dsimp only
    rw [if_pos rfl, twoByteLength, hu, if_neg (by simp), if_neg h38, if_neg h3a]
  refine ⟨_, hx, ?_⟩
  rw [hl]
  rcases p with ⟨_ | _, _, _⟩ <;> simp [layoutLength, Layout.immBytes] <;> omega

theorem vexPayload_popRm : ∀ q : BitVec 3, vexPayload 0x8F#8 [modRM 3#2 0#3 q] = none := by decide

section
variable {op : Byte} {r q : BitVec 3} {imm : List Byte} {lo hi : Byte} (p : Prefixes) (before : Nat)

/-- A register operand. -/
theorem knownForm_reg (ho : ordinary op = true) (hr : reservedOneByte op (modRM 3#2 r q) = false)
    (hm : (oneByteLayout op (modRM 3#2 r q)).modRM = true)
    (hi : imm.length = (oneByteLayout op (modRM 3#2 r q)).fixed + 2 * (oneByteLayout op (modRM 3#2 r q)).sized) :
    KnownForm p before (op :: modRM 3#2 r q :: imm) :=
  knownForm_modRM (disp := []) p before (fun _ => ordinary_vexPayload ho _) (ordinary_add ho p) (ordinary_ne_0F ho) hr hm hi
    (.inl ⟨rfl, rfl⟩)

/-- `[disp16]`. -/
theorem knownForm_disp16 (ho : ordinary op = true) (hr : reservedOneByte op (modRM 0#2 r 6#3) = false)
    (hm : (oneByteLayout op (modRM 0#2 r 6#3)).modRM = true)
    (hi' : imm.length = (oneByteLayout op (modRM 0#2 r 6#3)).fixed + 2 * (oneByteLayout op (modRM 0#2 r 6#3)).sized) :
    KnownForm p before (op :: modRM 0#2 r 6#3 :: lo :: hi :: imm) :=
  knownForm_modRM (disp := [lo, hi]) p before (fun _ => ordinary_vexPayload ho _) (ordinary_add ho p) (ordinary_ne_0F ho) hr hm hi'
    (.inr ⟨rfl, .inl ⟨rfl, rfl⟩⟩)

/-- `[BP+disp8]`. -/
theorem knownForm_bp8 (ho : ordinary op = true) (hr : reservedOneByte op (modRM 1#2 r 6#3) = false)
    (hm : (oneByteLayout op (modRM 1#2 r 6#3)).modRM = true)
    (hi' : imm.length = (oneByteLayout op (modRM 1#2 r 6#3)).fixed + 2 * (oneByteLayout op (modRM 1#2 r 6#3)).sized) :
    KnownForm p before (op :: modRM 1#2 r 6#3 :: lo :: imm) :=
  knownForm_modRM (disp := [lo]) p before (fun _ => ordinary_vexPayload ho _) (ordinary_add ho p) (ordinary_ne_0F ho) hr hm hi'
    (.inr ⟨rfl, .inr (.inl ⟨rfl, rfl⟩)⟩)

/-- `[BP+disp16]`. -/
theorem knownForm_bp16 (ho : ordinary op = true) (hr : reservedOneByte op (modRM 2#2 r 6#3) = false)
    (hm : (oneByteLayout op (modRM 2#2 r 6#3)).modRM = true)
    (hi' : imm.length = (oneByteLayout op (modRM 2#2 r 6#3)).fixed + 2 * (oneByteLayout op (modRM 2#2 r 6#3)).sized) :
    KnownForm p before (op :: modRM 2#2 r 6#3 :: lo :: hi :: imm) :=
  knownForm_modRM (disp := [lo, hi]) p before (fun _ => ordinary_vexPayload ho _) (ordinary_add ho p) (ordinary_ne_0F ho) hr hm hi'
    (.inr ⟨rfl, .inr (.inr ⟨rfl, rfl⟩)⟩)

end

/-- Every admitted form is known, to any prefixes before it. -/
theorem knownForm_encode (i : Instr) : ∀ (p : Prefixes) (before : Nat), KnownForm p before (encode i) := by
  cases i
  case repStosw => exact fun p _ => .prefixed rfl rfl rfl (knownForm_plain (imm := []) _ _ rfl (fun _ => rfl) (fun _ => rfl) rfl rfl)
  case repneStosw => exact fun p _ => .prefixed rfl rfl rfl (knownForm_plain (imm := []) _ _ rfl (fun _ => rfl) (fun _ => rfl) rfl rfl)
  all_goals simp only [encode, le16, List.append_assoc, List.cons_append, List.nil_append]
  case popRm m =>
    exact fun p before => knownForm_modRM (disp := []) p before (fun _ => vexPayload_popRm m.bits) rfl (by decide)
      (by simp [reservedOneByte, digitField_modRM]) rfl rfl (.inl ⟨rfl, rfl⟩)
  case incR r => cases r <;> exact fun p _ => knownForm_plain p _ rfl (fun _ => rfl) (fun _ => rfl) rfl rfl
  case pushR r => cases r <;> exact fun p _ => knownForm_plain p _ rfl (fun _ => rfl) (fun _ => rfl) rfl rfl
  case popR r => cases r <;> exact fun p _ => knownForm_plain p _ rfl (fun _ => rfl) (fun _ => rfl) rfl rfl
  case movRI16 r i => cases r <;> exact fun p _ => knownForm_plain p _ rfl (fun _ => rfl) (fun _ => rfl) rfl rfl
  all_goals intro p before
  all_goals try with_reducible refine KnownForm.override (fun before => ?_) before
  all_goals first
    | with_reducible refine knownForm_disp16 p _ ?_ ?_ ?_ ?_
    | with_reducible refine knownForm_bp8 p _ ?_ ?_ ?_ ?_
    | with_reducible refine knownForm_bp16 p _ ?_ ?_ ?_ ?_
    | with_reducible refine knownForm_reg p _ ?_ ?_ ?_ ?_
    | with_reducible refine knownForm_0F ?_ ?_ ?_ ?_ p _
    | with_reducible refine knownForm_plain p _ ?_ ?_ ?_ ?_ ?_
  all_goals first
    | rfl
    | exact fun _ => rfl
    | decide
    | simp [reservedOneByte, digitField_modRM, modField_modRM]

/-! ### Lengths are never less than what is passed, and a cut form needs more than what is left -/

theorem modRMBytes_pos (a : Bool) (bs : List Byte) : 1 ≤ modRMBytes a bs := by
  unfold modRMBytes
  split
  · exact Nat.le_refl _
  · split
    · split <;> omega
    · omega

theorem disp32Bytes_zero_le (mod base : Nat) : disp32Bytes mod 0 ≤ disp32Bytes mod base := by
  unfold disp32Bytes
  split <;> simp

theorem le_layoutLength (before : Nat) (p : Prefixes) (l : Layout) (bs : List Byte) : before ≤ layoutLength before p l bs := by
  unfold layoutLength; omega

/-- Cutting the bytes after an opcode short leaves the length, or the least it can be, more than what is left. -/
theorem layoutLength_take (before : Nat) (p : Prefixes) (l : Layout) (bs : List Byte) (k : Nat) :
    layoutLength before p l (bs.take k) ≤ layoutLength before p l bs ∧
    (before + k < layoutLength before p l bs → before + k < layoutLength before p l (bs.take k)) := by
  unfold layoutLength
  cases l.modRM
  · simp
  · simp only [if_true]
    match bs, k with
    | [], _ => simp
    | m :: rest, 0 => 
      have := modRMBytes_pos p.address32 (m :: rest)
      simp only [List.take_zero]
      have e : modRMBytes p.address32 [] = 1 := rfl
      rw [e]
      constructor <;> omega
    | m :: [], k + 1 => simp
    | m :: s :: rest, 1 =>
      have := disp32Bytes_zero_le (modField m) (rmField s)
      simp only [List.take, modRMBytes]
      split
      · split <;> constructor <;> omega
      · simp
    | m :: s :: rest, k + 2 => simp [modRMBytes]

/-- A known length counts the bytes passed and an opcode. -/
theorem lt_of_x86Length_known {p : Prefixes} {before n : Nat} {bs : List Byte} (h : x86Length p before bs = .known n) : before + 1 ≤ n := by
  induction bs generalizing p before with
  | nil => cases h; exact Nat.le_refl _
  | cons op bs ih =>
    unfold x86Length at h
    split at h
    · have := ih h; omega
    · split at h
      · split at h
        · cases h; omega
        · unfold twoByteLength at h
          split at h
          · cases h
          · split at h
            · cases h
              exact Nat.le_trans (by omega) (le_layoutLength ..)
            · split at h <;> cases h <;> exact Nat.le_trans (by omega) (le_layoutLength ..)
      · unfold oneByteLength at h
        dsimp only at h
        split at h
        · split at h <;> cases h
        · split at h <;> cases h
          exact le_layoutLength ..

theorem reservedOneByte_digit_zero (op : Byte) (h : op ≠ 0xD6#8) : reservedOneByte op 0xC0#8 = false := by
  revert op; decide

theorem oneByteLayout_indep (op b c : Byte) (h1 : op ≠ 0xF6#8) (h2 : op ≠ 0xF7#8) : oneByteLayout op b = oneByteLayout op c := by
  have n1 : op.toNat ≠ 0xF6 := fun e => h1 (BitVec.eq_of_toNat_eq e)
  have n2 : op.toNat ≠ 0xF7 := fun e => h2 (BitVec.eq_of_toNat_eq e)
  unfold oneByteLayout
  dsimp only
  have hn : op.toNat < 256 := op.isLt
  clear h1 h2
  generalize op.toNat = n at *
  interval_cases n <;> first | rfl | omega

/-- The layout taken for a missing ModRM byte is the shortest. -/
theorem oneByteLayout_least (before : Nat) (p : Prefixes) (op b : Byte) (bs : List Byte) (hk : before < layoutLength before p (oneByteLayout op b) bs) :
    layoutLength before p (oneByteLayout op 0xD0#8) [] ≤ layoutLength before p (oneByteLayout op b) bs ∧
    before < layoutLength before p (oneByteLayout op 0xD0#8) [] := by
  by_cases h1 : op = 0xF6#8
  · subst h1
    have := modRMBytes_pos p.address32 bs
    have e : oneByteLayout 0xF6#8 b = { modRM := true, fixed := if digitField b < 2 then 1 else 0 } := rfl
    have e2 : oneByteLayout 0xF6#8 0xD0#8 = { modRM := true } := by decide
    simp only [layoutLength, e, e2, Layout.immBytes, (show modRMBytes p.address32 [] = 1 from rfl), if_true] at hk ⊢
    constructor <;> omega
  · by_cases h2 : op = 0xF7#8
    · subst h2
      have := modRMBytes_pos p.address32 bs
      have e : oneByteLayout 0xF7#8 b = { modRM := true, sized := if digitField b < 2 then 1 else 0 } := rfl
      have e2 : oneByteLayout 0xF7#8 0xD0#8 = { modRM := true } := by decide
      simp only [layoutLength, e, e2, Layout.immBytes, (show modRMBytes p.address32 [] = 1 from rfl), if_true] at hk ⊢
      constructor <;> omega
    · rw [oneByteLayout_indep op 0xD0#8 b h1 h2]
      have := layoutLength_take before p (oneByteLayout op b) bs 0
      simp only [List.take_zero, Nat.add_zero] at this
      exact ⟨this.1, this.2 hk⟩

/-- What a known one-byte form is. -/
theorem oneByteLength_known {before : Nat} {p : Prefixes} {op b : Byte} {bs : List Byte} {n : Nat} (h : oneByteLength before p op (b :: bs) = .known n) :
    vexPayload op [b] = none ∧ reservedOneByte op b = false ∧ n = layoutLength before p (oneByteLayout op b) (b :: bs) := by
  unfold oneByteLength at h
  dsimp only at h
  split at h
  · split at h <;> cases h
  · rename_i hv
    change (if reservedOneByte op b = true then X86Length.reserved (layoutLength before p (oneByteLayout op b) (b :: bs))
      else .known (layoutLength before p (oneByteLayout op b) (b :: bs))) = _ at h
    by_cases hr : reservedOneByte op b = true
    · rw [if_pos hr] at h; cases h
    · rw [if_neg hr] at h; cases h; exact ⟨hv, by simpa using hr, rfl⟩

/-- A one-byte form that is neither reserved nor VEX has the length of its layout. -/
theorem oneByteLength_of_layout {before : Nat} {p : Prefixes} {op b : Byte} {bs : List Byte} (h1 : vexPayload op [b] = none) (h2 : reservedOneByte op b = false) :
    oneByteLength before p op (b :: bs) = .known (layoutLength before p (oneByteLayout op b) (b :: bs)) := by
  unfold oneByteLength
  simp only [show vexPayload op (b :: bs) = none from h1, List.headD_cons, h2]
  rfl

/-- A one-byte form cut off needs more than what is left. -/
theorem oneByteLength_take {before : Nat} {p : Prefixes} {op : Byte} {bs : List Byte} {n k : Nat} (h : oneByteLength before p op bs = .known n) (hk : before + k < n) :
   ∃ m, oneByteLength before p op (bs.take k) = .known m ∧ before + k < m ∧ m ≤ n := by
  cases bs with
  | nil => exact ⟨n, by simpa using h, hk, Nat.le_refl _⟩
  | cons b bs =>
    obtain ⟨h1, h2, rfl⟩ := oneByteLength_known h
    cases k with
    | zero =>
      have hd : op ≠ 0xD6#8 := by rintro rfl; cases h2
      have := oneByteLayout_least before p op b (b :: bs) hk
      refine ⟨_, ?_, this.2, this.1⟩
      unfold oneByteLength
      simp only [List.take_zero, List.headD_nil, vexPayload, reservedOneByte_digit_zero op hd]
      rfl
    | succ k =>
      have := layoutLength_take before p (oneByteLayout op b) (b :: bs) (k + 1)
      exact ⟨_, oneByteLength_of_layout h1 h2, this.2 hk, this.1⟩

/-- A 0F form cut off needs more than what is left. -/
theorem twoByteLength_take {before : Nat} {p : Prefixes} {op : Byte} {bs : List Byte} {n k : Nat} (h : twoByteLength before p op bs = .known n) (hk : before + k < n) :
   ∃ m, twoByteLength before p op (bs.take k) = .known m ∧ before + k < m ∧ m ≤ n := by
  have tl : ∀ l : Layout, l.modRM = true → layoutLength (before + 1) p l (bs.take k).tail ≤ layoutLength (before + 1) p l bs.tail ∧
      (before + k < layoutLength (before + 1) p l bs.tail → before + k < layoutLength (before + 1) p l (bs.take k).tail) := by
    intro l hl
    cases bs with
    | nil => simp
    | cons b bs =>
      cases k with
      | zero =>
        have := layoutLength_take (before + 1) p l bs 0
        simp only [List.take_zero, List.tail_nil, List.tail_cons] at this ⊢
        refine ⟨this.1, fun _ => ?_⟩
        exact Nat.lt_of_lt_of_le (by omega) (le_layoutLength (before + 1) p l [])
      | succ k =>
        have := layoutLength_take (before + 1) p l bs k
        simp only [List.take_succ_cons, List.tail_cons]
        exact ⟨this.1, fun h => by have := this.2 (by omega); omega⟩
  unfold twoByteLength at h ⊢
  split at h
  · cases h
  · rw [if_neg ‹_›]
    split at h
    · rw [if_pos ‹_›]; cases h; exact ⟨_, rfl, (tl _ rfl).2 hk, (tl _ rfl).1⟩
    · rw [if_neg ‹_›]
      split at h
      · rw [if_pos ‹_›]; cases h; exact ⟨_, rfl, (tl _ rfl).2 hk, (tl _ rfl).1⟩
      · rw [if_neg ‹_›]; cases h
        have := layoutLength_take before p (twoByteLayout p op) bs k
        exact ⟨_, rfl, this.2 hk, this.1⟩

/-- Where a known instruction is cut off, the least length known is more than what is left of it. -/
theorem x86Length_take {p : Prefixes} {before n k : Nat} {bs : List Byte} (h : x86Length p before bs = .known n) (hk : before + k < n) :
    ∃ m, x86Length p before (bs.take k) = .known m ∧ before + k < m ∧ m ≤ n := by
  induction bs generalizing p before k with
  | nil => exact ⟨n, by simpa using h, hk, Nat.le_refl _⟩
  | cons op bs ih =>
    cases k with
    | zero => exact ⟨before + 1, rfl, Nat.lt_succ_self _, lt_of_x86Length_known h⟩
    | succ k =>
      rw [List.take_succ_cons]
      unfold x86Length at h ⊢
      split at h
      · rename_i p' hp
        obtain ⟨m, h1, h2, h3⟩ := ih h (by omega : before + 1 + k < n)
        exact ⟨m, h1, by omega, h3⟩
      · split at h
        · rw [if_pos ‹_›]
          split at h
          · exact ⟨n, by simpa using h, hk, Nat.le_refl _⟩
          · rename_i op2 bs
            cases k with
            | zero => refine ⟨before + 2, rfl, by omega, by omega⟩
            | succ k =>
              obtain ⟨m, h1, h2, h3⟩ := twoByteLength_take h (by omega : before + 2 + k < n)
              exact ⟨m, h1, by omega, h3⟩
        · rw [if_neg ‹_›]
          obtain ⟨m, h1, h2, h3⟩ := oneByteLength_take h (by omega : before + 1 + k < n)
          exact ⟨m, h1, by omega, h3⟩

/-- The same where x86 reserves or does not assign the encoding. -/
theorem lt_of_x86Length_unsettled {p : Prefixes} {before n : Nat} {bs : List Byte} (h : x86Length p before bs = .reserved n ∨ x86Length p before bs = .unassigned n) : before + 1 ≤ n := by
  induction bs generalizing p before with
  | nil => rcases h with h | h <;> cases h
  | cons op bs ih =>
    unfold x86Length at h
    split at h
    · have := ih h; omega
    · split at h
      · split at h
        · rcases h with h | h <;> cases h
        · unfold twoByteLength at h
          split at h
          · rcases h with h | h <;> cases h; omega
          · split at h
            · rcases h with h | h <;> cases h
            · split at h <;> rcases h with h | h <;> cases h
      · unfold oneByteLength at h
        dsimp only at h
        split at h
        · split at h <;> rcases h with h | h <;> cases h
          · omega
          · exact Nat.le_trans (by omega) (le_layoutLength ..)
        · split at h <;> rcases h with h | h <;> cases h
          exact le_layoutLength ..

/-! ### Prefixes, 0F opcodes and the answer -/

/-- Prefixes only pass; 66 and 67 alone change the sizes. -/
theorem x86Length_prefixes (ps : List Byte) (h : ∀ b ∈ ps, b ∈ [0x26#8, 0x2E#8, 0x36#8, 0x3E#8, 0x64#8, 0x65#8, 0xF0#8, 0xF2#8, 0xF3#8, 0x66#8, 0x67#8])
   (p : Prefixes) (before : Nat) (bs : List Byte) : ∃ q : Prefixes, x86Length p before (ps ++ bs) = x86Length q (before + ps.length) bs ∧
     ((∀ b ∈ ps, b ∈ [0x26#8, 0x2E#8, 0x36#8, 0x3E#8, 0x64#8, 0x65#8, 0xF0#8, 0xF2#8, 0xF3#8]) → q.operand32 = p.operand32 ∧ q.address32 = p.address32) := by
  induction ps generalizing p before with
  | nil => exact ⟨p, rfl, fun _ => ⟨rfl, rfl⟩⟩
  | cons b ps ih =>
    have hb := h b (by simp)
    have : ∃ q, p.add b = some q ∧ (b ∈ [0x26#8, 0x2E#8, 0x36#8, 0x3E#8, 0x64#8, 0x65#8, 0xF0#8, 0xF2#8, 0xF3#8] → q.operand32 = p.operand32 ∧ q.address32 = p.address32) := by
      simp only [List.mem_cons, List.not_mem_nil, or_false] at hb
      rcases hb with rfl | rfl | rfl | rfl | rfl | rfl | rfl | rfl | rfl | rfl | rfl <;> refine ⟨_, rfl, ?_⟩ <;> first | exact fun _ => ⟨rfl, rfl⟩ | exact fun h => absurd h (by decide)
    obtain ⟨q, hq, hs⟩ := this
    obtain ⟨r, hr, hs2⟩ := ih (fun b hb => h b (by simp [hb])) q (before + 1)
    refine ⟨r, ?_, fun hh => ?_⟩
    · rw [List.cons_append]
      conv => lhs; unfold x86Length
      rw [hq]
      dsimp only
      rw [hr, List.length_cons]
      congr 1; omega
    · have a := hs2 fun b hb => hh b (by simp [hb])
      have b := hs (hh b (by simp))
      exact ⟨a.1.trans b.1, a.2.trans b.2⟩

/-- A 0F opcode has a known length, at most 8 bytes after it, or is not assigned; none is reserved. -/
theorem twoByteLength_bound (before : Nat) (p : Prefixes) (op : Byte) (bs : List Byte) :
    (∃ n, twoByteLength before p op bs = .known n ∧ before ≤ n ∧ n ≤ before + 8) ∨ twoByteLength before p op bs = .unassigned before := by
  have mb : ∀ bs, modRMBytes p.address32 bs ≤ 6 := by
    intro bs
    unfold modRMBytes disp16Bytes disp32Bytes
    (repeat' split) <;> omega
  have lb : ∀ (before : Nat) (l : Layout) bs, l.modRM = true → l.fixed ≤ 2 → l.sized = 0 → l.address = 0 → layoutLength before p l bs ≤ before + 6 + l.fixed := by
    intro before l bs h1 h2 h3 h4
    have := mb bs
    simp only [layoutLength, Layout.immBytes, h1, h3, h4, if_true]
    omega
  have lb2 : ∀ (before : Nat) (l : Layout) bs, l.modRM = false → l.fixed ≤ 1 → l.sized ≤ 1 → l.address = 0 → layoutLength before p l bs ≤ before + 5 := by
    intro before l bs h1 h2 h3 h4
    simp only [layoutLength, Layout.immBytes, h1, h4, Bool.false_eq_true, if_false]
    have : l.sized = 0 ∨ l.sized = 1 := by omega
    rcases this with h | h <;> rw [h] <;> split <;> omega
  unfold twoByteLength
  split
  · exact .inr rfl
  · left
    split
    · exact ⟨_, rfl, Nat.le_trans (by omega) (le_layoutLength ..), Nat.le_trans (lb _ _ _ rfl (by decide) rfl rfl) (by simp)⟩
    · split
      · exact ⟨_, rfl, Nat.le_trans (by omega) (le_layoutLength ..), Nat.le_trans (lb _ _ _ rfl (by decide) rfl rfl) (by simp)⟩
      · refine ⟨_, rfl, le_layoutLength .., ?_⟩
        unfold twoByteLayout
        dsimp only
        (repeat' split) <;> first | exact Nat.le_trans (lb _ _ _ rfl (by simp) rfl rfl) (by simp; try omega) | exact Nat.le_trans (lb2 _ _ _ rfl (by simp) (by simp) rfl) (by omega)

/-- An Other entry has 1 to 15 bytes, all of them in the buffer. -/
theorem decodeOther_fits {tail n bs d} (h : decodeOther tail n bs = some d) (h1 : 1 ≤ n) (h3 : 1 ≤ bs) : 1 ≤ d.length ∧ d.length ≤ 15 ∧ d.length ≤ bs := by
  unfold decodeOther maxLength at h; split at h
  · cases h
  · split at h
    · cases h; simp only [Decoded.length]; omega
    · cases tail <;> cases h
      simp only [Decoded.length]; omega

/-- A form that is not admitted and whose length is known is Other of that length, or the end of the buffer decides. -/
theorem decodeAt_of_known {tail bs n} (hx : x86Length {} 0 bs = .known n) (hd : ∀ j more, decode bs ≠ .ok (j, more)) : decodeAt tail bs = decodeOther tail n bs.length := by
  unfold decodeAt
  split
  · exact absurd ‹_› (hd _ _)
  · unfold decodeForeign; rw [hx]
end

