-- ==== Sys2Proof/Tests/Slice0.lean ====
section
/-!
SUPPORT. Tests. Every expected value is from spec/95_test_vectors.md (the vector is named) or is worked
out by hand from the rule named. Instruction words are written out from the encodings of the spec.
-/

namespace Sys2Proof.Tests

open Sys2Proof.Machine

/-! ### Helpers: the default start state of 95_test_vectors.md section 0 -/

/-- Segment 1 holds `code` at offset `ip`, decoded there, segment 2 is data; CS = 1, SS = DS = ES = 2, SP = 0x0100,
every register and flag written, RESET_REGS = unwritten. -/
def start (code : List Byte) (relocs : List Reloc := []) (ip : Word := 0#16) : State :=
  let index := match sweep .accept code 0 ip.toNat with
    | .ok e => e
    | .error _ => []
  { State.reset with
    regs := { Bank.all 0#16 with cs := 1#16, ss := 2#16, ds := 2#16, es := 2#16, sp := 0x0100#16 }
    ip := ip
    written := Bank.all true
    ipWritten := true, zfWritten := true, cfWritten := true
    store := [⟨1#16, true, relocs, index⟩, ⟨2#16, false, [], []⟩]
    mem := putBytes (cellKey 1#16 ip.toNat) code []
    cfg := { resetSwitches with resetRegs := .unwritten } }

/-- With a general register set. -/
def with_ (g : Gpr) (v : Word) (s : State) : State := writeReg (.gpr g) v s

/-- With a segment register set. -/
def withS (r : Sreg) (v : Word) (s : State) : State := writeReg (.seg r) v s

/-- With the flags set. -/
def withF (zf cf : Bool) (s : State) : State := writeCf cf (writeZf zf s)

/-- With a word of segment 2. -/
def withM (offset : Nat) (v : Word) (s : State) : State := putWord 2#16 offset v s

/-- The step completes and the check holds of its state. -/
def after (s : State) (p : State → Bool) : Bool :=
  match step s with
  | .next t => p t
  | _ => false

/-- The step ends with the fault. -/
def faults (s : State) (k : Fault) : Bool :=
  match step s with
  | .fault j => j == k
  | _ => false

/-- The values of some registers. -/
def regsAre (t : State) (l : List (Gpr × Word)) : Bool := l.all (fun p => t.regs.get (.gpr p.1) == p.2)

/-- ZF, CF and IP. -/
def flagsIp (t : State) (zf cf : Bool) (ip : Word) : Bool := t.zf == zf && t.cf == cf && t.ip == ip

/-- The bytes of segment 2 at an offset. -/
def bytesAre (t : State) (offset : Nat) (bs : List Byte) : Bool :=
  (List.range bs.length).map (fun k => byteAt t 2#16 (offset + k)) == bs

/-- What the decoder reads from bytes, with the bytes left. -/
def decodes (bs : List Byte) (i : Instr) (left : Nat) : Bool :=
  match decode bs with
  | .ok (x, rest) => x == i && rest.length == left
  | .error _ => false

/-! ### WellFormed refuses MOV to CS in each form (R84 item 3) -/

theorem test_wf_refuses_mov_cs_register : (Instr.movSRm .cs .ax).wellFormed = false := by decide
theorem test_wf_refuses_mov_cs_disp16 : (Instr.movSD16 none .cs 0#16).wellFormed = false := by decide
theorem test_wf_refuses_mov_cs_bp_disp8 : (Instr.movSB8 none .cs 0#8).wellFormed = false := by decide
theorem test_wf_refuses_mov_cs_bp_disp16 : (Instr.movSB16 none .cs 0#16).wellFormed = false := by decide
theorem test_wf_accepts_mov_ds : (Instr.movSRm .ds .ax).wellFormed = true := by decide

/-! ### Decoding: words written out from the encodings (R71 to R83) -/

/-- ADD, CMP, INC, XOR, OR and SHL (bytes of V1, V5 to V8, V15 to V21, V25, V27, V31 to V37, V40, V41). -/
theorem test_decode_alu :
    [decodes [0x05#8, 0x03#8, 0x00#8] (.addAxI16 3#16) 0, decodes [0x83#8, 0xC0#8, 0xFF#8] (.addRmI8 .ax 0xFF#8) 0,
     decodes [0x01#8, 0xCB#8] (.addRmR .cx .bx) 0, decodes [0x03#8, 0xD6#8] (.addRRm .dx .si) 0,
     decodes [0x81#8, 0xC4#8, 0x00#8, 0xFF#8] (.addRmI16 .sp 0xFF00#16) 0,
     decodes [0x83#8, 0xF9#8, 0xFF#8] (.cmpRmI8 .cx 0xFF#8) 0, decodes [0x39#8, 0xD8#8] (.cmpRmR .bx .ax) 0,
     decodes [0x3B#8, 0xD8#8] (.cmpRRm .bx .ax) 0, decodes [0x3D#8, 0x08#8, 0x00#8] (.cmpAxI16 8#16) 0,
     decodes [0x81#8, 0x3E#8, 0x00#8, 0x02#8, 0x34#8, 0x12#8] (.cmpD16I16 none 0x200#16 0x1234#16) 0,
     decodes [0x80#8, 0x7E#8, 0xFF#8, 0x80#8] (.cmpByteB8I8 none 0xFF#8 0x80#8) 0,
     decodes [0x26#8, 0x3B#8, 0x06#8, 0x20#8, 0x00#8] (.cmpRD16 (some .es) .ax 0x20#16) 0,
     decodes [0x41#8] (.incR .cx) 0, decodes [0xFF#8, 0xC0#8] (.incRm .ax) 0,
     decodes [0x31#8, 0xC0#8] (.xorRmR .ax .ax) 0, decodes [0x81#8, 0xF3#8, 0x0F#8, 0xF0#8] (.xorRmI16 .bx 0xF00F#16) 0,
     decodes [0x33#8, 0x06#8, 0x00#8, 0x02#8] (.xorRD16 none .ax 0x200#16) 0,
     decodes [0x83#8, 0xC9#8, 0xFE#8] (.orRmI8 .cx 0xFE#8) 0, decodes [0x09#8, 0xFE#8] (.orRmR .di .si) 0,
     decodes [0xD1#8, 0xE0#8] (.shlRm1 .ax) 0, decodes [0xC1#8, 0xE0#8, 0x04#8] (.shlRmI8 .ax 4#8) 0].all id = true := by
  decide

/-- PUSH, POP, MOV and LEA (bytes of V45 to V58, V61 to V84). -/
theorem test_decode_move :
    [decodes [0x54#8] (.pushR .sp) 0, decodes [0xFF#8, 0x76#8, 0x04#8] (.pushB8 none 4#8) 0, decodes [0x0E#8] .pushCs 0,
     decodes [0x68#8, 0x34#8, 0x12#8] (.pushI16 0x1234#16) 0, decodes [0x6A#8, 0xFF#8] (.pushI8 0xFF#8) 0,
     decodes [0xFF#8, 0x36#8, 0x00#8, 0x02#8] (.pushD16 none 0x200#16) 0, decodes [0xFF#8, 0xF0#8] (.pushRm .ax) 0,
     decodes [0x5C#8] (.popR .sp) 0, decodes [0x1F#8] .popDs 0, decodes [0x8F#8, 0xC3#8] (.popRm .bx) 0,
     decodes [0xB8#8, 0x05#8, 0x00#8] (.movRI16 .ax 5#16) 0, decodes [0xBB#8, 0xFF#8, 0xFF#8] (.movRI16 .bx 0xFFFF#16) 0,
     decodes [0xC7#8, 0x06#8, 0x00#8, 0x02#8, 0xFF#8, 0xFF#8] (.movD16I16 none 0x200#16 0xFFFF#16) 0,
     decodes [0xC6#8, 0x46#8, 0xFE#8, 0x7F#8] (.movByteB8I8 none 0xFE#8 0x7F#8) 0, decodes [0x8E#8, 0xD8#8] (.movSRm .ds .ax) 0,
     decodes [0x8C#8, 0xC0#8] (.movRmS .es .ax) 0, decodes [0xA3#8, 0xFF#8, 0xFF#8] (.movMoffsAx none 0xFFFF#16) 0,
     decodes [0x26#8, 0xA1#8, 0x10#8, 0x00#8] (.movAxMoffs (some .es) 0x10#16) 0, decodes [0x89#8, 0xD8#8] (.movRmR .bx .ax) 0,
     decodes [0x8B#8, 0x46#8, 0xFE#8] (.movRB8 none .ax 0xFE#8) 0,
     decodes [0x89#8, 0x86#8, 0x00#8, 0x01#8] (.movB16R none .ax 0x100#16) 0,
     decodes [0x8C#8, 0x1E#8, 0x00#8, 0x02#8] (.movD16S none .ds 0x200#16) 0,
     decodes [0x36#8, 0x8B#8, 0x06#8, 0x00#8, 0x02#8] (.movRD16 (some .ss) .ax 0x200#16) 0,
     decodes [0x8D#8, 0x76#8, 0xFE#8] (.leaRB8 none .si 0xFE#8) 0,
     decodes [0x8D#8, 0x86#8, 0x00#8, 0x80#8] (.leaRB16 none .ax 0x8000#16) 0,
     decodes [0x26#8, 0x8D#8, 0x46#8, 0x04#8] (.leaRB8 (some .es) .ax 4#8) 0].all id = true := by
  decide

/-- ENTER, LEAVE, STOSW, the jumps and CALL (bytes of V88 to V126); what is left over is left alone. -/
theorem test_decode_control :
    [decodes [0xC8#8, 0x04#8, 0x00#8, 0x00#8] (.enterI16 4#16) 0, decodes [0xC9#8, 0x90#8] .leave 1, decodes [0xAB#8] .stosw 0,
     decodes [0xF3#8, 0xAB#8] .repStosw 0, decodes [0xF2#8, 0xAB#8] .repneStosw 0, decodes [0x74#8, 0xFE#8] (.jeRel8 0xFE#8) 0,
     decodes [0x0F#8, 0x84#8, 0x00#8, 0x01#8] (.jeRel16 0x100#16) 0, decodes [0x75#8, 0x10#8] (.jneRel8 0x10#8) 0,
     decodes [0x7C#8, 0x10#8] (.jlRel8 0x10#8) 0, decodes [0x7D#8, 0x10#8] (.jgeRel8 0x10#8) 0,
     decodes [0x7E#8, 0x10#8] (.jleRel8 0x10#8) 0, decodes [0x76#8, 0x10#8] (.jbeRel8 0x10#8) 0,
     decodes [0x0F#8, 0x8D#8, 0x00#8, 0x01#8] (.jgeRel16 0x100#16) 0, decodes [0xEB#8, 0x10#8] (.jmpRel8 0x10#8) 0,
     decodes [0xE9#8, 0x20#8, 0x00#8] (.jmpRel16 0x20#16) 0, decodes [0xE8#8, 0x01#8, 0x00#8] (.callRel16 1#16) 0,
     decodes [0x9A#8, 0xFF#8, 0xFF#8, 0x00#8, 0x00#8] (.callFar 0#16) 0].all id = true := by
  decide

/-- Refused encodings, by name: NOP (V129), ADD with memory (V11), an 8-bit register (V13), SHL by CL (V43),
LEA with no BP (V85, V86), ENTER with a nesting level (V91), MOV to CS (V70), a far CALL with another
offset (V123), a segment override on a register form, REP before ADD, and two overrides. -/
theorem test_decode_refusals :
    (decode [0x90#8], decode [0x03#8, 0x06#8, 0x00#8, 0x02#8], decode [0x00#8, 0xC0#8], decode [0xD3#8, 0xE0#8],
      decode [0x8D#8, 0x06#8, 0x00#8, 0x02#8], decode [0x8D#8, 0xC0#8], decode [0xC8#8, 0x04#8, 0x00#8, 0x01#8]) =
    (.error .notInSubset, .error .refusedForm, .error .notInSubset, .error .notInSubset,
      .error .refusedForm, .error .refusedForm, .error .refusedForm) ∧
    (decode [0x8E#8, 0xC8#8], decode [0x9A#8, 0x00#8, 0x10#8, 0x02#8, 0x00#8], decode [0x26#8, 0x01#8, 0xC0#8],
      decode [0xF3#8, 0x01#8, 0xC0#8], decode [0x26#8, 0x36#8, 0x8B#8, 0x46#8, 0x00#8], decode [0xB8#8, 0x05#8]) =
    (.error .refusedForm, .error .refusedForm, .error .refusedPrefix,
      .error .refusedPrefix, .error .refusedPrefix, .error .truncated) := ⟨by rfl, by rfl⟩

/-- Lengths by hand from the x86 encodings: MOV with FS, JZ rel32 (66 0F 84), MOV [SIB+disp32],imm16 (67 C7), CPUID, CALLF with a
register, ARPL, group 7, PALIGNR (0F 3A), MOV EAX,CR0, LES [disp16], VZEROUPPER, UD0 [BP+disp8]. -/
theorem test_x86_lengths :
    [x86Length {} 0 [0x64#8, 0x8B#8, 0x06#8], x86Length {} 0 [0x66#8, 0x0F#8, 0x84#8],
     x86Length {} 0 [0x67#8, 0xC7#8, 0x84#8, 0x24#8], x86Length {} 0 [0x0F#8, 0xA2#8], x86Length {} 0 [0xFF#8, 0xD8#8],
     x86Length {} 0 [0x63#8, 0xC0#8], x86Length {} 0 [0x0F#8, 0x01#8], x86Length {} 0 [0x0F#8, 0x3A#8, 0x0F#8, 0xC0#8, 0x01#8],
     x86Length {} 0 [0x0F#8, 0x20#8, 0xC0#8], x86Length {} 0 [0xC4#8, 0x06#8], x86Length {} 0 [0xC5#8, 0xF8#8, 0x77#8],
     x86Length {} 0 [0x0F#8, 0xFF#8, 0x46#8]] =
    [.known 5, .known 7, .known 10, .known 2, .reserved 2, .known 2, .known 3, .known 5, .known 3, .known 4, .reserved 3, .known 4] := by
  decide

/-- R66 items 2 and 3, R70, R84: a refused prefix and a 0F opcode are Other, whatever TAIL_POLICY; cut off by the end of the
buffer, TAIL_POLICY decides; 16 bytes are no instruction. -/
theorem test_refused_prefixes_are_other :
    decodeAt .accept [0x64#8, 0x8B#8, 0x06#8, 0x00#8, 0x01#8] = some (.other 5) ∧
    decodeAt .fail [0x66#8, 0xB8#8, 0x05#8, 0x00#8, 0x00#8, 0x00#8] = some (.other 6) ∧
    decodeAt .fail [0x0F#8, 0xA2#8, 0x90#8] = some (.other 2) ∧ decodeAt .fail [0x26#8, 0x0F#8, 0x85#8, 0#8, 0#8] = some (.other 5) ∧
    decodeAt .fail [0x0F#8, 0x01#8] = none ∧ decodeAt .accept [0x0F#8, 0x01#8] = some (.other 2) ∧
    decodeAt .accept (List.replicate 15 0x66#8 ++ [0x90#8]) = none := ⟨by rfl, by rfl, by rfl, by rfl, by rfl, by rfl, by rfl⟩

/-- The table's own numbering: 01C0 is ADD AX,AX; 0F840100 is JE +1; the same bytes with the first one least
significant are read too. -/
theorem test_table_words :
    decodeTableWord 16 0x01C0 = some (.addRmR .ax .ax) ∧ decodeTableWord 32 0x0F840100 = some (.jeRel16 1#16) ∧
    decodeTableWord 16 0xC001 = some (.addRmR .ax .ax) ∧ decodeTableWord 8 0x90 = none := by decide

/-! ### ALU -/

/-- V1. -/
theorem test_add_ax_imm16 : after (with_ .ax 5#16 (start [0x05#8, 0x03#8, 0x00#8]))
    (fun t => regsAre t [(.ax, 8#16)] && flagsIp t false false 3#16) = true := by decide
/-- V3: CF is the sign heuristic, not the carry-out. -/
theorem test_add_sets_zf_not_carry : after (with_ .ax 1#16 (start [0x05#8, 0xFF#8, 0xFF#8]))
    (fun t => regsAre t [(.ax, 0#16)] && flagsIp t true false 3#16) = true := by decide
/-- V5. -/
theorem test_add_sign_extends_imm8 : after (start [0x83#8, 0xC0#8, 0xFF#8])
    (fun t => regsAre t [(.ax, 0xFFFF#16)] && flagsIp t false true 3#16) = true := by decide
/-- V6. -/
theorem test_add_rm_is_destination : after (with_ .bx 0x1234#16 (with_ .cx 1#16 (start [0x01#8, 0xCB#8])))
    (fun t => regsAre t [(.bx, 0x1235#16), (.cx, 1#16)] && t.ip == 2#16) = true := by decide
/-- V7. -/
theorem test_add_reg_is_destination : after (with_ .dx 0x10#16 (with_ .si 0xFFF0#16 (start [0x03#8, 0xD6#8])))
    (fun t => regsAre t [(.dx, 0#16), (.si, 0xFFF0#16)] && flagsIp t true false 2#16) = true := by decide
/-- V9: ADD_CF_WRITE = set_only keeps CF. -/
theorem test_add_set_only_keeps_cf :
    after (let s := withF false true (with_ .ax 5#16 (start [0x05#8, 0x03#8, 0x00#8]))
           { s with cfg := { s.cfg with addCfWrite := .setOnly } })
      (fun t => t.cf && regsAre t [(.ax, 8#16)]) = true := by decide
/-- V10: ADD_CF_SOURCE = dest_src. -/
theorem test_add_dest_src :
    after (let s := with_ .ax 0x7FFF#16 (start [0x05#8, 0x01#8, 0x00#8])
           { s with cfg := { s.cfg with addCfSource := .destSrc } })
      (fun t => !t.cf && regsAre t [(.ax, 0x8000#16)]) = true := by decide
/-- V11: the entry is Other and unsupported. -/
theorem test_add_memory_unsupported : faults (start [0x03#8, 0x06#8, 0x00#8, 0x02#8])
    (.unsupportedInstruction (.other 4)) = true := by decide
/-- V14: AX unwritten. -/
theorem test_add_unwritten :
    faults (let s := start [0x05#8, 0x03#8, 0x00#8]; { s with written := s.written.set (.gpr .ax) false })
      (.uninitialisedRead (.reg (.gpr .ax))) = true := by decide
/-- V15. -/
theorem test_cmp_unsigned_below : after (start [0x83#8, 0xF9#8, 0xFF#8])
    (fun t => flagsIp t false true 3#16 && regsAre t [(.cx, 0#16)]) = true := by decide
/-- V19: a byte compare, zero-extended. -/
theorem test_cmp_byte_memory :
    after (with_ .bp 0x10#16 (putByte 2#16 0x0F 0x7F#8 (start [0x80#8, 0x7E#8, 0xFF#8, 0x80#8])))
      (fun t => flagsIp t false true 4#16) = true := by decide
/-- V21: the host is asked for (0x0100, 0x0020) and the compare uses its word. -/
theorem test_cmp_host_read :
    after (let s := with_ .ax 0x10#16 (withS .es 0x100#16 (start [0x26#8, 0x3B#8, 0x06#8, 0x20#8, 0x00#8]))
           { s with hostWords := [some 0x10#16] })
      (fun t => t.hostCalls == [.readWord 0x100#16 0x20#16] && flagsIp t true false 5#16) = true := by decide
/-- V22: a byte read through the host path. -/
theorem test_cmp_host_byte_unsupported :
    faults (withS .es 0x100#16 (start [0x26#8, 0x80#8, 0x3E#8, 0x20#8, 0x00#8, 0x01#8]))
      (.unsupportedInstruction (.instr (.cmpByteD16I8 (some .es) 0x20#16 1#8))) = true := by decide
/-- V24: the word crosses the bound. -/
theorem test_cmp_word_crosses_bound : faults (start [0x39#8, 0x06#8, 0xFF#8, 0xFF#8])
    (.segmentFault 2#16 0xFFFF) = true := by decide
/-- V25: CF is kept. -/
theorem test_inc_keeps_cf : after (withF false true (with_ .cx 0xFFFF#16 (start [0x41#8])))
    (fun t => regsAre t [(.cx, 0#16)] && flagsIp t true true 1#16) = true := by decide
/-- V27. -/
theorem test_inc_rm : after (with_ .ax 1#16 (start [0xFF#8, 0xC0#8]))
    (fun t => regsAre t [(.ax, 2#16)] && !t.zf && t.ip == 2#16) = true := by decide
/-- V33. -/
theorem test_xor_memory : after (with_ .ax 0x1234#16 (withM 0x200 0x00FF#16 (start [0x33#8, 0x06#8, 0x00#8, 0x02#8])))
    (fun t => regsAre t [(.ax, 0x12CB#16)] && t.ip == 4#16 && t.draws == 2) = true := by decide
/-- V36. -/
theorem test_or_sign_extends_imm8 : after (with_ .cx 1#16 (start [0x83#8, 0xC9#8, 0xFE#8]))
    (fun t => regsAre t [(.cx, 0xFFFF#16)] && t.ip == 3#16) = true := by decide
/-- V38: LOGIC_FLAGS = x86. -/
theorem test_or_x86_flags :
    after (let s := withF true true (start [0x0D#8, 0x00#8, 0x00#8]); { s with cfg := { s.cfg with logicFlags := .x86 } })
      (fun t => flagsIp t true false 3#16) = true := by decide
/-- V41: shifted by 1, not 4. -/
theorem test_shl_ignores_count : after (with_ .ax 0x8001#16 (start [0xC1#8, 0xE0#8, 0x04#8]))
    (fun t => regsAre t [(.ax, 2#16)] && t.ip == 3#16) = true := by decide
/-- V40. -/
theorem test_shl_one : after (with_ .ax 0x4001#16 (start [0xD1#8, 0xE0#8]))
    (fun t => regsAre t [(.ax, 0x8002#16)] && t.ip == 2#16) = true := by decide

/-! ### Data movement -/

/-- V45: PUSH SP pushes the old SP. -/
theorem test_push_sp : after (start [0x54#8])
    (fun t => bytesAre t 0xFE [0x00#8, 0x01#8] && regsAre t [(.sp, 0xFE#16)] && t.ip == 1#16) = true := by decide
/-- V46: SP wraps. -/
theorem test_push_wraps : after (with_ .sp 0#16 (with_ .ax 0xABCD#16 (start [0x50#8])))
    (fun t => bytesAre t 0xFFFE [0xCD#8, 0xAB#8] && regsAre t [(.sp, 0xFFFE#16)]) = true := by decide
/-- V47. -/
theorem test_push_faults : faults (with_ .sp 1#16 (start [0x50#8])) (.segmentFault 2#16 0xFFFF) = true := by decide
/-- V52: PUSH is never relocated. -/
theorem test_push_not_relocated : after (start [0x68#8, 0xFF#8, 0xFF#8] [⟨1#16, .internalRef 7#16⟩])
    (fun t => bytesAre t 0xFE [0xFF#8, 0xFF#8] && t.ip == 3#16) = true := by decide
/-- V56: POP SP leaves the popped word. -/
theorem test_pop_sp : after (withM 0x100 0x5000#16 (start [0x5C#8]))
    (fun t => regsAre t [(.sp, 0x5000#16)] && t.ip == 1#16) = true := by decide
/-- V57. -/
theorem test_pop_ds : after (withM 0x100 3#16 (start [0x1F#8]))
    (fun t => t.regs.ds == 3#16 && regsAre t [(.sp, 0x102#16)]) = true := by decide
/-- V55. -/
theorem test_pop_faults : faults (with_ .sp 0xFFFF#16 (start [0x5B#8])) (.segmentFault 2#16 0xFFFF) = true := by decide
/-- V61: AX unwritten is not read. -/
theorem test_mov_imm_reads_nothing :
    after (let s := start [0xB8#8, 0x05#8, 0x00#8]; { s with written := s.written.set (.gpr .ax) false })
      (fun t => regsAre t [(.ax, 5#16)] && t.ip == 3#16) = true := by decide
/-- V62 and V63: the sentinel with no record, and with an internal one. -/
theorem test_mov_relocated :
    after (start [0xB8#8, 0xFF#8, 0xFF#8]) (fun t => regsAre t [(.ax, 0xFFFF#16)]) = true ∧
    after (start [0xBB#8, 0xFF#8, 0xFF#8] [⟨1#16, .internalRef 7#16⟩]) (fun t => regsAre t [(.bx, 7#16)]) = true := by decide
/-- S5: the callback is invoked once with (3, 7) and its value stored. -/
theorem test_mov_import :
    after (let s := start [0xB8#8, 0xFF#8, 0xFF#8] [⟨10#16, .importRef 3#16 7#16⟩] 9#16
           { s with hostReplies := [.returned 0x5555#16 []] })
      (fun t => regsAre t [(.ax, 0x5555#16)] && t.ip == 12#16 && t.hostCalls == [.invoke 3#16 7#16]) = true := by decide
/-- V64 and V65: the lookup is at IP + 1, the ModRM byte, not at the immediate. -/
theorem test_mov_memory_relocation_position :
    after (start [0xC7#8, 0x06#8, 0x00#8, 0x02#8, 0xFF#8, 0xFF#8] [⟨1#16, .internalRef 0x42#16⟩])
      (fun t => bytesAre t 0x200 [0x42#8, 0x00#8] && t.ip == 6#16) = true ∧
    after (start [0xC7#8, 0x06#8, 0x00#8, 0x02#8, 0xFF#8, 0xFF#8] [⟨4#16, .internalRef 0x42#16⟩])
      (fun t => bytesAre t 0x200 [0xFF#8, 0xFF#8]) = true := by decide
/-- V66. -/
theorem test_mov_import_fails :
    faults (let s := start [0xB8#8, 0xFF#8, 0xFF#8] [⟨1#16, .importRef 3#16 7#16⟩]; { s with hostReplies := [.failed] })
      (.hostFault 3#16 7#16) = true := by decide
/-- V67. -/
theorem test_mov_byte_memory : after (with_ .bp 0x10#16 (start [0xC6#8, 0x46#8, 0xFE#8, 0x7F#8]))
    (fun t => bytesAre t 0x0E [0x7F#8, 0x00#8] && t.ip == 4#16) = true := by decide
/-- V72: the word comes from the host. -/
theorem test_mov_host_read :
    after (let s := withS .es 0x100#16 (start [0x26#8, 0xA1#8, 0x10#8, 0x00#8]); { s with hostWords := [some 0x9999#16] })
      (fun t => regsAre t [(.ax, 0x9999#16)] && t.hostCalls == [.readWord 0x100#16 0x10#16] && t.ip == 4#16) = true := by decide
/-- R104: a host that never answers leaves the step without end. -/
theorem test_host_read_never_answers :
    faults (let s := withS .es 0x100#16 (start [0x26#8, 0xA1#8, 0x10#8, 0x00#8]); { s with hostWords := [none] })
      .diverges = true := by decide
/-- V73: a store never goes to the host. -/
theorem test_mov_store_not_to_host : faults (withS .es 0x100#16 (start [0x26#8, 0xA3#8, 0x10#8, 0x00#8]))
    (.segmentFault 0x100#16 0x10) = true := by decide
/-- V68. -/
theorem test_mov_ds : after (with_ .ax 3#16 (start [0x8E#8, 0xD8#8])) (fun t => t.regs.ds == 3#16 && t.ip == 2#16) = true := by
  decide
/-- V76. -/
theorem test_mov_store_bp : after (with_ .bp 0x10#16 (with_ .ax 0xBEEF#16 (start [0x89#8, 0x86#8, 0x00#8, 0x01#8])))
    (fun t => bytesAre t 0x110 [0xEF#8, 0xBE#8] && t.ip == 4#16) = true := by decide
/-- V80: the override replaces the default segment. -/
theorem test_mov_override :
    after (withS .ds 3#16 (withM 0x200 0x1111#16 (start [0x36#8, 0x8B#8, 0x06#8, 0x00#8, 0x02#8])))
      (fun t => regsAre t [(.ax, 0x1111#16)] && t.ip == 5#16) = true := by decide
/-- V83 and V87: LEA wraps and touches no memory. -/
theorem test_lea :
    after (with_ .bp 0x9000#16 (start [0x8D#8, 0x86#8, 0x00#8, 0x80#8])) (fun t => regsAre t [(.ax, 0x1000#16)]) = true ∧
    after (withS .ss 9#16 (with_ .bp 0x10#16 (start [0x8D#8, 0x46#8, 0x04#8])))
      (fun t => regsAre t [(.ax, 0x14#16)] && t.ip == 3#16) = true := by decide

/-! ### Frames and STOSW -/

/-- V89. -/
theorem test_enter_wraps : after (with_ .sp 0x10#16 (start [0xC8#8, 0x20#8, 0x00#8, 0x00#8]))
    (fun t => regsAre t [(.bp, 0x0E#16), (.sp, 0xFFEE#16)] && t.ip == 4#16) = true := by decide
/-- V93. -/
theorem test_leave :
    after (with_ .bp 0xFA#16 (withM 0xFA 0xFC#16 (withM 0xFC 1#16 (start [0xC9#8]))))
      (fun t => regsAre t [(.sp, 0x100#16), (.bp, 0xFC#16)] && t.regs.cs == 1#16 && t.ip == 0#16) = true := by decide
/-- S6. -/
theorem test_stosw : after (with_ .cx 4#16 (with_ .ax 0x1234#16 (with_ .di 0x100#16 (start [0xAB#8]))))
    (fun t => bytesAre t 0x100 [0x34#8, 0x12#8, 0x34#8, 0x12#8, 0x00#8] && regsAre t [(.di, 0x104#16), (.cx, 0#16)] &&
      t.ip == 1#16) = true := by decide
/-- V98: an odd CX and an odd DI end in a fault. -/
theorem test_stosw_odd_faults : faults (with_ .cx 3#16 (with_ .di 0xFFF9#16 (start [0xAB#8])))
    (.segmentFault 2#16 0xFFFF) = true := by decide
/-- V102 and V103. -/
theorem test_stosw_repeat_bytes :
    after (with_ .cx 2#16 (with_ .ax 0x0707#16 (start [0xF3#8, 0xAB#8])))
      (fun t => bytesAre t 0 [0x07#8, 0x07#8, 0x00#8] && regsAre t [(.di, 2#16), (.cx, 0#16)] && t.ip == 2#16) = true ∧
    after (with_ .cx 2#16 (start [0xF2#8, 0xAB#8])) (fun t => regsAre t [(.cx, 0#16)] && t.ip == 2#16) = true := by decide

/-! ### Control transfer -/

/-- The six short jumps at IP = 0x0020 with displacement 0x10: taken gives 0x0032, not taken 0x0022. -/
def jumpIps (zf cf : Bool) : List Bool :=
  [0x74#8, 0x75#8, 0x7C#8, 0x7D#8, 0x7E#8, 0x76#8].map
    (fun op => after (withF zf cf (start [op, 0x10#8] [] 0x20#16)) (fun t => t.ip == 0x32#16))

/-- The condition matrix of 95_test_vectors.md section 2.10. -/
theorem test_condition_matrix :
    jumpIps false false = [false, true, false, true, false, false] ∧
    jumpIps false true = [false, true, true, false, true, true] ∧
    jumpIps true false = [true, false, false, true, true, true] ∧
    jumpIps true true = [true, false, false, true, true, true] := by decide
/-- V106 and V107: JE rel16. -/
theorem test_je_rel16 :
    after (withF true false (start [0x0F#8, 0x84#8, 0x00#8, 0x01#8] [] 0x40#16)) (fun t => t.ip == 0x144#16) = true ∧
    after (start [0x0F#8, 0x84#8, 0x00#8, 0x01#8] [] 0x40#16) (fun t => t.ip == 0x44#16) = true := by decide
/-- V111 and V112. -/
theorem test_jmp_wraps :
    after (start [0xEB#8, 0x10#8] [] 0xFFF0#16) (fun t => t.ip == 2#16) = true ∧
    after (start [0xE9#8, 0x20#8, 0x00#8] [] 0xFFF0#16) (fun t => t.ip == 0x13#16) = true := by decide
/-- V114. -/
theorem test_je_unwritten_flag :
    faults { start [0x74#8, 0x03#8] with zfWritten := false } (.uninitialisedRead .zf) = true := by decide
/-- V117: CALL pushes its own offset and wraps. -/
theorem test_call_near : after (with_ .sp 2#16 (start [0xE8#8, 0x00#8, 0x00#8] [] 0x10#16))
    (fun t => bytesAre t 0 [0x10#8, 0x00#8] && bytesAre t 0xFFFE [0x01#8, 0x00#8] &&
      regsAre t [(.sp, 0xFFFE#16), (.bp, 0xFFFE#16)] && t.ip == 0x13#16) = true := by decide
/-- S8: the import is called once, AX is the callback's, and the core pops CS and IP. -/
theorem test_call_far :
    after (let s := with_ .bp 0x1234#16 (start [0x9A#8, 0xFF#8, 0xFF#8, 0x00#8, 0x00#8] [⟨1#16, .importRef 9#16 2#16⟩])
           { s with hostReplies := [.returned 42#16 [.reg (.gpr .ax) 42#16]] })
      (fun t => regsAre t [(.ax, 42#16), (.sp, 0x100#16), (.bp, 0xFC#16)] && t.regs.cs == 1#16 && t.ip == 5#16 &&
        t.hostCalls == [.invoke 9#16 2#16] && bytesAre t 0xFC [0x01#8, 0x00#8, 0x00#8, 0x00#8]) = true := by decide
/-- V121 and V122. -/
theorem test_call_far_faults :
    faults (start [0x9A#8, 0xFF#8, 0xFF#8, 0x00#8, 0x00#8]) (.unresolvedExternalCall 1#16 0#16) = true ∧
    faults (start [0x9A#8, 0xFF#8, 0xFF#8, 0x00#8, 0x00#8] [⟨1#16, .internalRef 5#16⟩])
      (.unsupportedInstruction (.instr (.callFar 0#16))) = true := by decide

/-! ### Fetching (R91, R92, R130) -/

/-- V127, V128 and V132. -/
theorem test_fetch_faults :
    faults (withS .cs 7#16 (start [0x90#8])) (.segmentFault 7#16 0) = true ∧
    faults (withS .cs 2#16 (start [0x90#8])) (.invalidControlFlow 2#16 0) = true ∧
    faults { start [0xB8#8, 0x05#8, 0x00#8] with ip := 1#16 } (.invalidControlFlow 1#16 1) = true := by decide
/-- V131: an unwritten IP comes before an unregistered CS. -/
theorem test_fetch_unwritten_first :
    faults { withS .cs 7#16 (start [0x90#8]) with ipWritten := false } (.uninitialisedRead .ip) = true := by decide
/-- V134: a faulted context has no step. -/
theorem test_faulted_context_has_no_step :
    hostStep { start [0x40#8] with status := .faulted (.segmentFault 7#16 0) } =
      (.noStep (.contextFaulted (.segmentFault 7#16 0)), { start [0x40#8] with status := .faulted (.segmentFault 7#16 0) }) := by
  rfl
/-- V135: a store to code changes no fetch, and a data read sees it. -/
theorem test_stale_decode :
    after (putByte 1#16 1 9#8 (start [0xB8#8, 0x05#8, 0x00#8]))
      (fun t => regsAre t [(.ax, 5#16)] && byteAt t 1#16 1 == 9#8) = true := by decide
/-- The first step after reset with an instruction placed: MOV AX,5 (number B80500) runs. -/
theorem test_first_step_after_reset : after (State.reset.withFetchWord 24 0xB80500)
    (fun t => regsAre t [(.ax, 5#16)] && t.ip == 3#16) = true := by decide

/-! ### Host operations (95_test_vectors.md section 2.13) -/

/-- A host operation ends with the fault. -/
def fails {α : Type} (r : HostResult α) (k : Fault) : Bool :=
  match r with
  | .failed j => j == k
  | _ => false

/-- A host operation gives the value. -/
def gives {α : Type} [DecidableEq α] (r : HostResult α) (a : α) : Bool :=
  match r with
  | .ok b _ => b == a
  | _ => false

/-- V136 to V138. -/
theorem test_host_access :
    fails (hostRegister 2#16 [] false [] (start [])) (.duplicateSegment 2#16) = true ∧
    fails (hostReadWord 2#16 0xFFFF#16 (start [])) (.segmentFault 2#16 0xFFFF) = true ∧
    gives (hostReadByte 2#16 0xFFFF#16 (start [])) 0#8 = true := by decide
/-- V139: little-endian. -/
theorem test_host_little_endian :
    (match hostWriteWord 2#16 0x10#16 0x1234#16 (start []) with
      | .ok _ t => gives (hostReadByte 2#16 0x10#16 t) 0x34#8 && gives (hostReadByte 2#16 0x11#16 t) 0x12#8
      | _ => false) = true := by decide
/-- V140 to V142. -/
theorem test_host_string :
    gives (hostReadString 2#16 0x20#16 (withM 0x20 0x4241#16 (start []))) [0x41#8, 0x42#8, 0x00#8] = true ∧
    fails (hostReadString 2#16 0xFFFE#16 (withM 0xFFFE 0x4141#16 (start []))) (.unterminatedString 2#16 0xFFFE) = true ∧
    gives (hostReadString 2#16 0xFFFE#16 (withM 0xFFFE 0x0041#16 (start []))) [0x41#8, 0x00#8] = true := by decide
/-- V143 and V144. -/
theorem test_host_allocate :
    gives (hostAllocate 0xFFF0 { start [] with arena := 0x10 }) 0x10 = true ∧
    fails (hostAllocate 1 { start [] with arena := 65536 }) (.segmentFault 0x00FF#16 65536) = true ∧
    gives (hostAllocate 0 (start [])) 0 = true := by decide
/-- V145 and V146 at the end of a buffer: `41`, then zero pairs, then a lone zero. -/
theorem test_sweep_tail :
    sweep .fail [0x41#8, 0#8, 0#8, 0#8] 0 0 = .error 3 ∧
    sweep .accept [0x41#8, 0#8, 0#8, 0#8] 0 0 = .ok [(0, .instr (.incR .cx)), (1, .other 2), (3, .other 1)] := ⟨by rfl, by rfl⟩
/-- V147: an even number of bytes before the padding. -/
theorem test_sweep_even :
    sweep .fail [0x41#8, 0x41#8, 0#8, 0#8] 0 0 = .ok [(0, .instr (.incR .cx)), (1, .instr (.incR .cx)), (2, .other 2)] := by rfl

/-! ### Witnesses: concrete states and operands that meet the hypotheses of each obligation

One theorem per obligation with hypotheses, a conjunct per clause. `exec i s` of a witness is evaluated,
so that "completes" is shown too. -/

open Sys2Proof.Safety

/-- The outcome is a next state. -/
def completes (o : Host.Outcome State Fault Refusal) : Bool :=
  match o with
  | .next _ => true
  | _ => false

/-- The state an outcome leads to. -/
def nextOr (s : State) (o : Host.Outcome State Fault Refusal) : State :=
  match o with
  | .next t => t
  | _ => s

theorem eq_next_of_completes {s : State} {o : Host.Outcome State Fault Refusal} (h : completes o = true) :
    o = .next (nextOr s o) := by
  cases o <;> first | rfl | cases h

theorem next_of_completes {o : Host.Outcome State Fault Refusal} (h : completes o = true) : ∃ t, o = .next t :=
  ⟨_, eq_next_of_completes (s := State.reset) h⟩

/-- A host operation succeeds. -/
def succeeds {α : Type} (r : HostResult α) : Bool :=
  match r with
  | .ok _ _ => true
  | _ => false

theorem ok_of_succeeds {r : HostResult Unit} (h : succeeds r = true) : ∃ t, r = .ok () t := by
  cases r <;> first | exact ⟨_, rfl⟩ | cases h

/-- A start state with every access of the witnesses in order: BP = 0x0200, DI = 0x0300, CX = 4. -/
def ready : State := with_ .bp 0x0200#16 (with_ .di 0x0300#16 (with_ .cx 4#16 (start [])))

/-- `ready` with a relocation record at offset 1 of segment 1 and the callback's next reply. -/
def related (target : RelocTarget) (reply : HostReply) : State :=
  { ready with
    store := [⟨1#16, true, [⟨1#16, target⟩], []⟩, ⟨2#16, false, [], []⟩]
    hostReplies := [reply] }

/-- `ready` with a register unwritten. -/
def unwritten (r : Reg) (s : State) : State := { s with written := s.written.set r false }

theorem witness_DecodeOfEncode : (Instr.movSB16 (some .es) .ds 0xFFFF#16).wellFormed = true ∧
    Instr.leave.wellFormed = true := by decide

theorem witness_DecodeAcceptsOnlyEncodings :
    decode [0x26#8, 0x8B#8, 0x46#8, 0xFF#8, 0x90#8] = .ok (.movRB8 (some .es) .ax 0xFF#8, [0x90#8]) := by rfl

/-- Each clause: an entry at the end of the buffer; one refused prefix, two overrides and one before a register form; 66
and 67; a 0F opcode that is none of the six; and a form cut off after its first byte. -/
theorem witness_DecodeFitsAndRefusedFormsAreOther :
    decodeAt .fail [0x41#8] = some (.instr (.incR .cx)) ∧
    ((Instr.movRD16 none .ax 0#16).wellFormed = true ∧ [0x64#8].length + (Instr.movRD16 none .ax 0#16).length ≤ 15 ∧
      decode ([0x64#8] ++ encode (.movRD16 none .ax 0#16)) = .error .refusedPrefix) ∧
    decode ([0x26#8] ++ encode (.movRD16 (some .ss) .ax 0#16)) = .error .refusedPrefix ∧
    decode ([0x36#8] ++ encode (.addRmR .ax .cx)) = .error .refusedPrefix ∧
    ([0x67#8].length + (Instr.movRI16 .ax 0#16).length ≤ 11 ∧ 0x67#8 ∈ [0x67#8]) ∧
    ¬0xFF#8 ∈ [0x84#8, 0x85#8, 0x86#8, 0x8C#8, 0x8D#8, 0x8E#8] ∧
    (1 < (Instr.movRI16 .ax 5#16).length ∧ (encode (.movRI16 .ax 5#16)).take 1 = [0xB8#8]) :=
  ⟨by rfl, ⟨by decide, by decide, by rfl⟩, by rfl, by rfl, by decide, by decide, by decide⟩

theorem witness_SweepIndexesInstructionStarts :
    sweep .accept [0x41#8, 0x90#8, 0#8] 0 0xFFFD = .ok [(0xFFFD, .instr (.incR .cx)), (0xFFFE, .other 1), (0xFFFF, .other 1)] ∧
    sweep .fail [] 0 0 = .ok [] ∧ sweep .fail [0x41#8, 0#8, 0#8, 0#8] 0 0xFFFC = .error 0xFFFF := ⟨by rfl, by rfl, by rfl⟩

theorem witness_AccessOutOfBoundsFaults :
    registered ready 2#16 = true ∧ (0xFFFE#16 : Word).toNat + 2 ≤ 65536 ∧ 65536 < (0xFFFF#16 : Word).toNat + 2 ∧
    registered ready 7#16 = false := by decide

theorem witness_StoredWordIsLittleEndian : Memory.wf ready.mem = true ∧
    memWrite16 2#16 0xFFFE#16 0x1234#16 ready = .ok (putWord 2#16 0xFFFE 0x1234#16 ready) := ⟨by decide, by rfl⟩

theorem witness_RelocAtGivesFirstRecord :
    let records : List Reloc := [⟨1#16, .internalRef 7#16⟩, ⟨0xFFFF#16, .internalRef 8#16⟩, ⟨0xFFFF#16, .importRef 1#16 2#16⟩]
    let s := { ready with store := [⟨1#16, true, records, []⟩] }
    registered s 7#16 = false ∧ findSegment s.store 1#16 = some ⟨1#16, true, records, []⟩ ∧
    relocAt 1#16 0xFFFF#16 s = some (.internalRef 8#16) ∧ relocAt 1#16 2#16 s = none := by decide

/-- Decoding zeros under TAIL_POLICY = accept never fails. -/
theorem sweep_zeros (n skip o : Nat) : ∃ index, sweep .accept (List.replicate n 0#8) skip o = .ok index := by
  induction n generalizing skip o with
  | zero => exact ⟨[], rfl⟩
  | succ n ih =>
    cases skip with
    | succ skip => exact ih skip (o + 1)
    | zero =>
      have hd : ∃ d, decodeAt .accept (List.replicate (n + 1) 0#8) = some d := by
        rcases n with _ | n
        · exact ⟨_, rfl⟩
        · exact ⟨.other 2, rfl⟩
      obtain ⟨d, hd⟩ := hd
      obtain ⟨index, hi⟩ := ih (d.length - 1) (o + 1)
      refine ⟨(o, d) :: index, ?_⟩
      rw [List.replicate_succ] at hd ⊢
      rw [sweep, hd]
      simp only [hi]

theorem sweep_leave (n : Nat) : ∃ index, sweep .accept (encode .leave ++ List.replicate n 0#8) 0 0 = .ok index := by
  have hd : ∀ zeros, decodeAt .accept (0xC9#8 :: zeros) = some (.instr .leave) := fun _ => rfl
  have he : ∀ zeros, encode .leave ++ zeros = 0xC9#8 :: zeros := fun _ => rfl
  obtain ⟨index, hi⟩ := sweep_zeros n 0 1
  rw [he, sweep, hd]
  simp only [show (Decoded.instr Instr.leave).length - 1 = 0 from rfl, hi]
  exact ⟨_, rfl⟩

/-- LEAVE alone can be registered as code. -/
theorem leave_registers : ∃ t, hostRegister 3#16 (encode .leave) true [] ready = .ok () t := by
  have hb : ∃ index, buildIndex ready.cfg.tailPolicy (encode .leave) true = .ok index := by
    rw [show ready.cfg.tailPolicy = .accept from rfl, buildIndex, if_pos rfl, paddedBuffer]
    exact sweep_leave _
  obtain ⟨index, hb⟩ := hb
  rw [hostRegister, if_neg (by decide), if_neg (by decide), hb]
  exact ⟨_, rfl⟩

/-- Fourteen prefixes and CPUID: 16 bytes, more than an x86 instruction may have. -/
def tooLong : List Byte := List.replicate 14 0x66#8 ++ [0x0F#8, 0xA2#8]

theorem sweep_tooLong (more : List Byte) : sweep .accept (tooLong ++ more) 0 0 = .error 0 := by
  have hd : decodeAt .accept (tooLong ++ more) = none := rfl
  have he : tooLong ++ more = 0x66#8 :: (List.replicate 13 0x66#8 ++ [0x0F#8, 0xA2#8] ++ more) := rfl
  rw [he] at hd ⊢
  rw [sweep, hd]

theorem witness_RegistrationAddsOneSegment : contextInv ready = true ∧ 65536 < (List.replicate 65537 0#8).length ∧
    registered ready 2#16 = true ∧ registered ready 3#16 = false ∧ (∃ t, hostRegister 3#16 [1#8, 2#8] false [] ready = .ok () t) ∧
    (∃ t, hostRegister 3#16 (encode .leave) true [] ready = .ok () t) ∧
    sweep ready.cfg.tailPolicy (tooLong ++ List.replicate (65536 - tooLong.length) 0#8) 0 0 = .error 0 :=
  ⟨by decide, by rw [List.length_replicate]; decide, by decide, by decide, ok_of_succeeds (by decide), leave_registers,
    sweep_tooLong _⟩

theorem witness_RegisteredCodeRunsItsBytes : Instr.leave.wellFormed = true ∧
    ∃ t, hostRegister 3#16 (encode .leave ++ []) true [] ready = .ok () t := ⟨rfl, by rw [List.append_nil]; exact leave_registers⟩

theorem witness_AllocationBumpsTheCursor :
    ({ ready with arena := 65535 }).arena + 1 ≤ 65536 ∧ 65536 < ({ ready with arena := 65536 }).arena + 1 := by decide

theorem witness_StringReadStopsAtFirstZero :
    let s := putByte 2#16 0xFFFF 0x41#8 ready
    registered s 7#16 = false ∧ registered s 2#16 = true ∧
    (∀ k, (0xFFFF#16 : Word).toNat ≤ k → k < 65536 → byteAt s 2#16 k ≠ 0#8) ∧
    ((0xFFFF#16 : Word).toNat + 0 < 65536 ∧ byteAt ready 2#16 0xFFFF = 0#8) ∧
    (let t := putByte 2#16 0xFFFE 0x41#8 ready
     (0xFFFE#16 : Word).toNat + 1 < 65536 ∧ byteAt t 2#16 0xFFFF = 0#8 ∧ byteAt t 2#16 0xFFFE ≠ 0#8) := by
  refine ⟨by decide, by decide, fun k h1 h2 => ?_, by decide, by decide⟩
  obtain rfl : k = 0xFFFF := by simp at h1; omega
  decide

theorem witness_EffectiveAddressIsBpPlusDisplacement :
    addressOk (memD16 .word none 0xFFFF#16) ready = true ∧ addressOk (memB8 .byte (some .es) 0x80#8) ready = true ∧
    Operand.mem ⟨.word, .es, .bp, 0xFF80#16⟩ ∈ ((Instr.movRB8 (some .es) .ax 0x80#8).decoded 0#16).ops ∧
    Operand.mem ⟨.byte, .ss, .bp, 0x8000#16⟩ ∈ ((Instr.movByteB16I8 none 0x8000#16 1#8).decoded 0#16).ops ∧
    Operand.mem ⟨.word, .ds, .absent, 0xFFFF#16⟩ ∈ ((Instr.movAxMoffs none 0xFFFF#16).decoded 0#16).ops := by decide

theorem witness_OperandResolves :
    let s := withS .es 0x100#16 ready
    operandOk (.mem (memD16 .word (some .es) 0#16)) s = true ∧ operandOk (.mem (memD16 .byte none 0xFFFF#16)) s = true ∧
    operandOk (.reg (.seg .cs)) s = true ∧
    (addressOk (memD16 .byte (some .es) 0#16) s = true ∧ viaHost (memD16 .byte (some .es) 0#16) s = true) ∧
    (let t := { s with hostWords := [none] }
     addressOk (memD16 .word (some .es) 0#16) t = true ∧ viaHost (memD16 .word (some .es) 0#16) t = true ∧
       hostAnswer (memD16 .word (some .es) 0#16) t = none) ∧
    (addressOk (memD16 .word none 0xFFFF#16) s = true ∧ viaHost (memD16 .word none 0xFFFF#16) s = false ∧
      inSegment (memD16 .word none 0xFFFF#16) s = false) := by decide

theorem witness_RelocationSubstitutesTheSentinel :
    (0xFFFE#16 : Word) ≠ 0xFFFF#16 ∧ regOk ready (.seg .cs) = true ∧
    relocAt (sreg ready .cs) (ready.ip + 1#16) ready = none ∧
    (let s := related (.internalRef 7#16) .failed; regOk s (.seg .cs) = true ∧
      relocAt (sreg s .cs) (s.ip + 1#16) s = some (.internalRef 7#16)) ∧
    (let s := related (.importRef 3#16 7#16) (.returned 5#16 [.zf true]); regOk s (.seg .cs) = true ∧
      relocAt (sreg s .cs) (s.ip + 1#16) s = some (.importRef 3#16 7#16) ∧ hostReply 3#16 7#16 s = .returned 5#16 [.zf true]) ∧
    hostReply 3#16 7#16 (related (.importRef 3#16 7#16) .failed) = .failed ∧
    hostReply 3#16 7#16 (related (.importRef 3#16 7#16) .never) = .never := by decide

theorem witness_StackPrimitives :
    (let s := with_ .sp 0#16 ready
     regOk s (.gpr .sp) = true ∧ regOk s (.seg .ss) = true ∧ registered s (sreg s .ss) = true ∧ gpr s .sp ≠ 1#16 ∧
       gpr s .sp ≠ 0xFFFF#16) ∧
    (let s := with_ .sp 1#16 ready; regOk s (.gpr .sp) = true ∧ regOk s (.seg .ss) = true ∧ gpr s .sp = 1#16) ∧
    (let s := with_ .sp 0xFFFF#16 ready; regOk s (.gpr .sp) = true ∧ regOk s (.seg .ss) = true ∧ gpr s .sp = 0xFFFF#16) ∧
    (let s := withS .ss 7#16 ready; regOk s (.gpr .sp) = true ∧ regOk s (.seg .ss) = true ∧
      registered s (sreg s .ss) = false) := by decide

theorem witness_AddResult :
    (HasForm (.addRmI8 .sp 0xFF#8) 0#16 .add [.reg (.gpr .sp), .imm8to16 0xFF#8] ∧ regOk ready (.gpr .sp) = true ∧
      operandOk (.imm8to16 0xFF#8) ready = true) ∧
    (HasForm (.addRRm .dx .dx) 0#16 .add [.reg (.gpr .dx), .reg (.gpr .dx)] ∧ operandOk (.reg (.gpr .dx)) ready = true) := by
  decide

theorem witness_CmpResult :
    (let m := memD16 .word (some .es) 0x20#16
     let s := withS .es 0x100#16 ready
     HasForm (.cmpRD16 (some .es) .ax 0x20#16) 0#16 .cmp [.reg (.gpr .ax), .mem m] ∧ operandOk (.reg (.gpr .ax)) s = true ∧
       operandOk (.mem m) s = true) ∧
    (HasForm (.cmpByteB8I8 none 0xFF#8 0x80#8) 0#16 .cmp [.mem (memB8 .byte none 0xFF#8), .imm8 0x80#8] ∧
      operandOk (.mem (memB8 .byte none 0xFF#8)) ready = true ∧ operandOk (.imm8 0x80#8) ready = true) := by decide

theorem witness_IncResult : HasForm (.incR .di) 0#16 .inc [.reg (.gpr .di)] ∧ regOk ready (.gpr .di) = true ∧
    regOk (unwritten (.gpr .di) ready) (.gpr .di) = false := by decide

theorem witness_XorOrResult :
    (HasForm (.xorRmR .ax .ax) 0#16 .xor [.reg (.gpr .ax), .reg (.gpr .ax)] ∧ regOk ready (.gpr .ax) = true ∧
      operandOk (.reg (.gpr .ax)) ready = true) ∧
    (HasForm (.orRB16 none .cx 0x8000#16) 0#16 .or [.reg (.gpr .cx), .mem (memB16 .word none 0x8000#16)] ∧
      regOk ready (.gpr .cx) = true ∧ operandOk (.mem (memB16 .word none 0x8000#16)) ready = true) := by decide

theorem witness_ShlResult :
    HasForm (.shlRmI8 .ax 4#8) 0#16 .shl [.reg (.gpr .ax), .imm8 4#8] ∧ regOk ready (.gpr .ax) = true := by decide

theorem witness_PushResult :
    HasForm (.pushR .sp) 0#16 .push [.reg (.gpr .sp)] ∧ operandOk (.reg (.gpr .sp)) ready = true ∧ pushOk ready = true ∧
    HasForm (.pushD16 none 0xFFFE#16) 0#16 .push [.mem (memD16 .word none 0xFFFE#16)] ∧
    operandOk (.mem (memD16 .word none 0xFFFE#16)) ready = true := by decide

theorem witness_PopResult :
    HasForm (.popR .sp) 0#16 .pop [.reg (.gpr .sp)] ∧ HasForm .popSs 0#16 .pop [.reg (.seg .ss)] ∧ popOk ready = true ∧
    popOk (with_ .sp 0xFFFE#16 ready) = true := by decide

theorem witness_MovImmediateResult :
    (relocOk 0xFFFF#16 ready = true ∧ relocatedTo 0xFFFF#16 ready = some 0xFFFF#16 ∧
      HasForm (.movRI16 .ax 0xFFFF#16) 0#16 .mov [.reg (.gpr .ax), .imm16 0xFFFF#16]) ∧
    (let s := related (.internalRef 7#16) .failed
     relocOk 0xFFFF#16 s = true ∧ relocatedTo 0xFFFF#16 s = some 7#16 ∧
       HasForm (.movD16I16 none 0xFFFE#16 0xFFFF#16) 0#16 .mov [.mem (memD16 .word none 0xFFFE#16), .imm16 0xFFFF#16] ∧
       storeOk (memD16 .word none 0xFFFE#16) s = true) ∧
    (relocOk 5#16 ready = true ∧ relocatedTo 5#16 ready = some 5#16) := by decide

theorem witness_MovImportResult :
    let s := related (.importRef 3#16 7#16) (.returned 5#16 [.reg (.gpr .bp) 0x10#16])
    regOk s (.seg .cs) = true ∧ relocHere s = some (.importRef 3#16 7#16) ∧
    hostReply 3#16 7#16 s = .returned 5#16 [.reg (.gpr .bp) 0x10#16] ∧
    HasForm (.movRI16 .ax 0xFFFF#16) s.ip .mov [.reg (.gpr .ax), .imm16 0xFFFF#16] ∧
    HasForm (.movB8I16 none 2#8 0xFFFF#16) s.ip .mov [.mem (memB8 .word none 2#8), .imm16 0xFFFF#16] ∧
    storeOk (memB8 .word none 2#8) (applyHostWrites (recordInvoke 3#16 7#16 s) [.reg (.gpr .bp) 0x10#16]) = true := by decide

theorem witness_MovToRegisterResult :
    (HasForm (.movSRm .ds .ax) 0#16 .mov [.reg (.seg .ds), .reg (.gpr .ax)] ∧ regOk ready (.gpr .ax) = true) ∧
    (let s := withS .es 0xFFFF#16 ready
     HasForm (.movAxMoffs (some .es) 0xFFFF#16) 0#16 .mov [.reg (.gpr .ax), .mem (memD16 .word (some .es) 0xFFFF#16)] ∧
       loadOk (memD16 .word (some .es) 0xFFFF#16) s = true) := by decide

theorem witness_MovToMemoryResult :
    storeOk (memD16 .word none 0xFFFE#16) ready = true ∧
    HasForm (.movD16S none .cs 0xFFFE#16) 0#16 .mov [.mem (memD16 .word none 0xFFFE#16), .reg (.seg .cs)] ∧
    regOk ready (.seg .cs) = true ∧ storeOk (memD16 .byte none 0xFFFF#16) ready = true ∧
    HasForm (.movByteD16I8 none 0xFFFF#16 0xFF#8) 0#16 .mov [.mem (memD16 .byte none 0xFFFF#16), .imm8 0xFF#8] := by decide

theorem witness_LeaResult :
    HasForm (.leaRB16 none .ax 0x8000#16) 0#16 .lea [.reg (.gpr .ax), .mem (memB16 .word none 0x8000#16)] ∧
    regOk ready (.gpr .bp) = true ∧ regOk (unwritten (.gpr .bp) ready) (.gpr .bp) = false := by decide

theorem witness_EnterResult : HasForm (.enterI16 0xFFFF#16) 0#16 .enter [.imm16 0xFFFF#16, .imm8 0#8] ∧
    regOk ready (.gpr .bp) = true ∧ pushOk ready = true := by decide

theorem witness_LeaveResult : HasForm .leave 0#16 .leave [] ∧ regOk ready (.gpr .bp) = true ∧
    regOk ready (.seg .ss) = true ∧
    ∀ k, k < 3 → inBounds ready (sreg ready .ss) (gpr ready .bp + BitVec.ofNat 16 (2 * k)).toNat 2 = true := by decide

theorem witness_StoswEvenResult :
    HasForm .repStosw 0#16 .stosw [] ∧ Memory.wf ready.mem = true ∧ regOk ready (.gpr .cx) = true ∧
    gpr (with_ .cx 0#16 ready) .cx = 0#16 ∧
    (let s := with_ .di 0xFFFE#16 ready
     gpr s .cx ≠ 0#16 ∧ (gpr s .cx).toNat % 2 = 0 ∧ stoswRegsOk s = true ∧ registered s (sreg s .es) = true ∧
       ∀ k, k < (gpr s .cx).toNat / 2 → stoswOffset s k ≠ 0xFFFF#16) := by decide

theorem witness_StoswOddDiverges :
    let s := with_ .cx 3#16 ready
    HasForm .stosw 0#16 .stosw [] ∧ regOk s (.gpr .cx) = true ∧ stoswRegsOk s = true ∧ registered s (sreg s .es) = true ∧
    (gpr s .cx).toNat % 2 = 1 ∧ (gpr s .di).toNat % 2 = 0 := by decide

theorem witness_StoswFaults :
    HasForm .stosw 0#16 .stosw [] ∧ regOk ready (.gpr .cx) = true ∧ stoswRegsOk ready = true ∧ gpr ready .cx ≠ 0#16 ∧
    registered (withS .es 7#16 ready) (sreg (withS .es 7#16 ready) .es) = false ∧
    (let s := with_ .di 0xFFFF#16 (with_ .cx 1#16 ready)
     registered s (sreg s .es) = true ∧ (gpr s .di).toNat % 2 = 1 ∧ (gpr s .cx).toNat % 2 = 1) ∧
    (let s := with_ .di 0xFFFD#16 ready
     (gpr s .di).toNat % 2 = 1 ∧ (0xFFFF - (gpr s .di).toNat) / 2 < (gpr s .cx).toNat / 2) := by decide

theorem witness_JumpResult :
    HasForm (.jleRel8 0xFE#8) 0#16 .jle [.nearBranch 0#16] ∧ Mnemonic.jle ≠ .call ∧ (jumpCondition .jle).isSome = true ∧
    jumpFlagsOk .jle ready = true ∧ jumpFlagsOk .je { ready with cfWritten := false } = true ∧
    canRead .zf { ready with zfWritten := false } = false ∧
    (let s := { ready with cfWritten := false }; canRead .zf s = true ∧ jumpFlagsOk .jle s = false) ∧
    HasForm (.jeRel16 0xFFFF#16) 0xFFFE#16 .je [.nearBranch 1#16] ∧
    HasForm (.jmpRel16 0x8000#16) 0xFFF0#16 .jmp [.nearBranch 0x7FF3#16] := by decide

theorem witness_CallNearResult :
    HasForm (.callRel16 1#16) 0#16 .call [.nearBranch 4#16] ∧ callOk (with_ .sp 2#16 ready) = true ∧
    callOk (with_ .sp 0#16 ready) = true := by decide

theorem witness_CallFarResult :
    let s := related (.importRef 9#16 2#16) (.returned 42#16 [.reg (.gpr .ax) 42#16])
    let u := applyHostWrites (recordInvoke 9#16 2#16 (called s)) [.reg (.gpr .ax) 42#16]
    HasForm (.callFar 0#16) s.ip .call [.farBranch 0#16 0xFFFF#16] ∧ callOk s = true ∧
    relocHere s = some (.importRef 9#16 2#16) ∧
    hostReply 9#16 2#16 (called s) = .returned 42#16 [.reg (.gpr .ax) 42#16] ∧ popOk u = true ∧
    popOk (writeReg (.seg .cs) (popValue u) (popped u)) = true := by decide

theorem witness_CallFarFaults :
    HasForm (.callFar 0xFFFF#16) 0#16 .call [.farBranch 0xFFFF#16 0xFFFF#16] ∧ callOk ready = true ∧ relocHere ready = none ∧
    (let s := related (.internalRef 5#16) .failed; callOk s = true ∧ relocHere s = some (.internalRef 5#16)) := by decide

theorem witness_FailedCallbackEndsTheStep :
    let s := related (.importRef 3#16 7#16) .failed
    let n := related (.importRef 3#16 7#16) .never
    relocHere s = some (.importRef 3#16 7#16) ∧ relocHere n = some (.importRef 3#16 7#16) ∧
    HasForm (.movRI16 .ax 0xFFFF#16) 0#16 .mov [.reg (.gpr .ax), .imm16 0xFFFF#16] ∧ regOk s (.seg .cs) = true ∧
    hostReply 3#16 7#16 s = .failed ∧ hostReply 3#16 7#16 n = .never ∧
    HasForm (.callFar 0#16) 0#16 .call [.farBranch 0#16 0xFFFF#16] ∧ callOk s = true ∧ callOk n = true ∧
    hostReply 3#16 7#16 (called s) = .failed ∧ hostReply 3#16 7#16 (called n) = .never := by decide

theorem witness_AluFrame :
    (HasForm (.addRRm .ax .cx) 0#16 .add [.reg (.gpr .ax), .reg (.gpr .cx)] ∧ ∃ t, exec (.addRRm .ax .cx) ready = .next t) ∧
    (HasForm (.cmpD16I8 none 0xFFFE#16 1#8) 0#16 .cmp [.mem (memD16 .word none 0xFFFE#16), .imm8to16 1#8] ∧
      ∃ t, exec (.cmpD16I8 none 0xFFFE#16 1#8) ready = .next t) ∧
    (HasForm (.incR .cx) 0#16 .inc [.reg (.gpr .cx)] ∧ ∃ t, exec (.incR .cx) ready = .next t) ∧
    (HasForm (.shlRm1 .cx) 0#16 .shl [.reg (.gpr .cx), .imm8 1#8] ∧ ∃ t, exec (.shlRm1 .cx) ready = .next t) ∧
    (HasForm (.leaRB8 none .ax 1#8) 0#16 .lea [.reg (.gpr .ax), .mem (memB8 .word none 1#8)] ∧
      ∃ t, exec (.leaRB8 none .ax 1#8) ready = .next t) :=
  ⟨⟨by decide, next_of_completes (by decide)⟩, ⟨by decide, next_of_completes (by decide)⟩, ⟨by decide, next_of_completes (by decide)⟩, ⟨by decide, next_of_completes (by decide)⟩, ⟨by decide, next_of_completes (by decide)⟩⟩

theorem witness_StackFrame :
    (HasForm .pushDs 0#16 .push [.reg (.seg .ds)] ∧ ∃ t, exec .pushDs ready = .next t) ∧
    (HasForm .popEs 0#16 .pop [.reg (.seg .es)] ∧ ∃ t, exec .popEs ready = .next t) ∧
    (HasForm (.enterI16 4#16) 0#16 .enter [.imm16 4#16, .imm8 0#8] ∧ ∃ t, exec (.enterI16 4#16) ready = .next t) ∧
    (HasForm .leave 0#16 .leave [] ∧ ∃ t, exec .leave ready = .next t) ∧
    (HasForm (.callRel16 0#16) 0#16 .call [.nearBranch 3#16] ∧ ∃ t, exec (.callRel16 0#16) ready = .next t) :=
  ⟨⟨by decide, next_of_completes (by decide)⟩, ⟨by decide, next_of_completes (by decide)⟩, ⟨by decide, next_of_completes (by decide)⟩, ⟨by decide, next_of_completes (by decide)⟩, ⟨by decide, next_of_completes (by decide)⟩⟩

theorem witness_MovFrame :
    (HasForm (.movRI16 .ax 0xFFFF#16) 0#16 .mov [.reg (.gpr .ax), .imm16 0xFFFF#16] ∧
      makesCallback (.movRI16 .ax 0xFFFF#16) ready = false ∧ ∃ t, exec (.movRI16 .ax 0xFFFF#16) ready = .next t) ∧
    (HasForm (.movD16R none .cx 0xFFFE#16) 0#16 .mov [.mem (memD16 .word none 0xFFFE#16), .reg (.gpr .cx)] ∧
      makesCallback (.movD16R none .cx 0xFFFE#16) ready = false ∧
      effectiveAddress (memD16 .word none 0xFFFE#16) ready = .ok (2#16, 0xFFFE#16) ∧
      ∃ t, exec (.movD16R none .cx 0xFFFE#16) ready = .next t) :=
  ⟨⟨by decide, by decide, next_of_completes (by decide)⟩, ⟨by decide, by decide, by decide, next_of_completes (by decide)⟩⟩

theorem witness_JumpFrame : HasForm (.jbeRel8 0#8) 0#16 .jbe [.nearBranch 2#16] ∧ Mnemonic.jbe ≠ .call ∧
    ∃ t, exec (.jbeRel8 0#8) ready = .next t := ⟨by decide, by decide, next_of_completes (by decide)⟩

theorem witness_StoswFrame : HasForm .repneStosw 0#16 .stosw [] ∧ completes (exec .repneStosw ready) = true := by decide

theorem witness_CallFarFrame :
    HasForm (.callFar 0#16) 0#16 .call [.farBranch 0#16 0xFFFF#16] ∧
    ∃ t, exec (.callFar 0#16) (related (.importRef 9#16 2#16) (.returned 42#16 [.byte 2#16 5#16 1#8, .flags 0xFFFF#16])) = .next t :=
  ⟨by decide, next_of_completes (by decide)⟩

/-- MOV AX,5 at offset 0xFFFD, the last place a three-byte instruction starts. -/
def atEnd : State := start [0xB8#8, 0x05#8, 0x00#8] [] 0xFFFD#16

theorem witness_StepRunsTheDecodedInstruction :
    atEnd.status = .running ∧ regOk atEnd (.seg .cs) = true ∧ canRead .ip atEnd = true ∧
    findSegment atEnd.store (sreg atEnd .cs) = some ⟨1#16, true, [], [(0xFFFD, .instr (.movRI16 .ax 5#16))]⟩ ∧
    indexAt ⟨1#16, true, [], [(0xFFFD, .instr (.movRI16 .ax 5#16))]⟩ atEnd.ip.toNat = some (.instr (.movRI16 .ax 5#16)) ∧
    (Instr.movRI16 .ax 5#16).wellFormed = true := by decide

theorem witness_StepFaultsBeforeTheHandler :
    ready.status = .running ∧ regOk (unwritten (.seg .cs) ready) (.seg .cs) = false ∧
    (let s := { ready with ipWritten := false }; regOk s (.seg .cs) = true ∧ canRead .ip s = false) ∧
    (let s := withS .cs 7#16 ready
     regOk s (.seg .cs) = true ∧ canRead .ip s = true ∧ findSegment s.store (sreg s .cs) = none) ∧
    (findSegment ready.store (sreg ready .cs) = some ⟨1#16, true, [], []⟩ ∧ indexAt ⟨1#16, true, [], []⟩ 0 = none) ∧
    (let s := start [0x90#8]
     findSegment s.store (sreg s .cs) = some ⟨1#16, true, [], [(0, .other 1)]⟩ ∧
       indexAt ⟨1#16, true, [], [(0, .other 1)]⟩ 0 = some (.other 1)) := by decide

theorem witness_FaultEndsTheContext :
    Fault.invalidControlFlow 1#16 0 ≠ .diverges ∧ faults ready (.invalidControlFlow 1#16 0) = true := by decide

theorem witness_StepStopsOnlyAsTheSpecSays :
    faults ready (.invalidControlFlow 1#16 0) = true ∧ State.reset.cfg.resetRegs = .draw ∧
    exec (.movRI16 .ax 0xFFFF#16) (related (.importRef 3#16 7#16) .never) = .fault .diverges ∧
    step { ready with status := .faulted .diverges } = .refused (.contextFaulted .diverges) :=
  ⟨by decide, rfl, by rfl, by rfl⟩

theorem witness_StepNeverChangesCode : completes (step atEnd) = true := by decide

theorem witness_StepKeepsInvariant : contextInv atEnd = true ∧ completes (step atEnd) = true := by decide

theorem witness_HostOperationsKeepInvariant : contextInv ready = true ∧
    (∃ t, hostRegister 3#16 [1#8] false [] ready = .ok () t) ∧ (∃ t, hostWriteByte 2#16 0xFFFF#16 1#8 ready = .ok () t) ∧
    (∃ t, hostWriteWord 2#16 0xFFFE#16 1#16 ready = .ok () t) ∧ (∃ t, hostWriteRange 2#16 0xFFFE [1#8, 2#8] ready = .ok () t) ∧
    ∃ t c, hostAllocate 65536 ready = .ok c t :=
  ⟨by decide, ok_of_succeeds (by decide), ok_of_succeeds (by decide), ok_of_succeeds (by decide), ok_of_succeeds (by decide),
    { ready with arena := 65536 }, 0, by rw [hostAllocate, if_pos (by decide)]; rfl⟩

theorem witness_CsIsLoadedByLeaveAndFarCallOnly :
    (Instr.popDs).wellFormed = true ∧ makesCallback .popDs ready = false ∧ (Instr.popDs.decoded ready.ip).mnemonic ≠ .leave ∧
    ∃ t, exec .popDs ready = .next t := ⟨by decide, by decide, by decide, next_of_completes (by decide)⟩

theorem witness_FlagsAreWrittenByTheAluOnly :
    (makesCallback (.xorRRm .ax .ax) ready = false ∧ ∃ t, exec (.xorRRm .ax .ax) ready = .next t) ∧
    (¬(Instr.popDs.decoded ready.ip).mnemonic ∈ [Mnemonic.add, .cmp, .inc, .xor, .or, .shl] ∧
      makesCallback .popDs ready = false ∧ ∃ t, exec .popDs ready = .next t) :=
  ⟨⟨by decide, next_of_completes (by decide)⟩, ⟨by decide, by decide, next_of_completes (by decide)⟩⟩

theorem witness_PushThenPopRestores :
    Memory.wf ready.mem = true ∧ HasForm (.pushR .sp) ready.ip .push [.reg (.gpr .sp)] ∧
    operandOk (.reg (.gpr .sp)) ready = true ∧
    ∃ t u, exec (.pushR .sp) ready = .next t ∧ HasForm .popDs t.ip .pop [.reg (.seg .ds)] ∧ exec .popDs t = .next u :=
  ⟨by decide, by decide, by decide, nextOr ready (exec (.pushR .sp) ready), _, eq_next_of_completes (by decide), by decide,
    eq_next_of_completes (s := ready) (by decide)⟩

/-- ENTER and LEAVE both complete from a stack pointer. -/
def enterLeave (sp n : Word) : Bool :=
  match exec (.enterI16 n) (with_ .sp sp ready) with
  | .next t => completes (exec .leave t)
  | _ => false

theorem enterLeave_runs {sp n : Word} (h : enterLeave sp n = true) :
    ∃ t u, exec (.enterI16 n) (with_ .sp sp ready) = .next t ∧ exec .leave t = .next u := by
  unfold enterLeave at h
  split at h
  · exact ⟨_, _, ‹_›, eq_next_of_completes (s := ready) h⟩
  · cases h

/-- SP = 0, 2, 0xFFFC and 0xFFFE: the pushed word and the two above it wrap. -/
theorem witness_EnterThenLeave : Memory.wf ready.mem = true ∧ ∀ sp ∈ [0#16, 2#16, 0xFFFC#16, 0xFFFE#16],
    ∃ t u, exec (.enterI16 4#16) (with_ .sp sp ready) = .next t ∧ exec .leave t = .next u := by
  refine ⟨by decide, fun sp hs => enterLeave_runs ?_⟩
  simp only [List.mem_cons, List.not_mem_nil, or_false] at hs
  rcases hs with rfl | rfl | rfl | rfl <;> decide

/-- CALL near, ENTER and LEAVE all complete from a stack pointer. -/
def callEnterLeave (sp : Word) : Bool :=
  match exec (.callRel16 0x10#16) (with_ .sp sp ready) with
  | .next t => match exec (.enterI16 4#16) t with
    | .next u => completes (exec .leave u)
    | _ => false
  | _ => false

theorem callEnterLeave_runs {sp : Word} (h : callEnterLeave sp = true) :
    ∃ t u v, exec (.callRel16 0x10#16) (with_ .sp sp ready) = .next t ∧ exec (.enterI16 4#16) t = .next u ∧
      exec .leave u = .next v := by
  unfold callEnterLeave at h
  split at h
  · split at h
    · exact ⟨_, _, _, ‹_›, ‹_›, eq_next_of_completes (s := ready) h⟩
    · cases h
  · cases h

/-- SP = 0, 2, 4 and 6: the pushes wrap at three places, and do not wrap. -/
theorem witness_CallEnterLeaveReturnsToTheCall : Memory.wf ready.mem = true ∧ ∀ sp ∈ [0#16, 2#16, 4#16, 6#16],
    ∃ t u v, exec (.callRel16 0x10#16) (with_ .sp sp ready) = .next t ∧ exec (.enterI16 4#16) t = .next u ∧
      exec .leave u = .next v := by
  refine ⟨by decide, fun sp hs => callEnterLeave_runs ?_⟩
  simp only [List.mem_cons, List.not_mem_nil, or_false] at hs
  rcases hs with rfl | rfl | rfl | rfl <;> decide

theorem witness_JumpAfterCompareIsUnsigned :
    let dst : Operand := .reg (.gpr .cx)
    let src : Operand := .imm8to16 0xFF#8
    HasForm (.cmpRmI8 .cx 0xFF#8) ready.ip .cmp [dst, src] ∧ operandOk dst ready = true ∧ operandOk src ready = true ∧
    ∃ t, exec (.cmpRmI8 .cx 0xFF#8) ready = .next t ∧ HasForm (.jlRel8 0x10#8) t.ip .jl [.nearBranch 0x15#16] :=
  ⟨by decide, by decide, by decide, nextOr ready (exec (.cmpRmI8 .cx 0xFF#8) ready), eq_next_of_completes (by decide),
    by decide⟩

/-- MOV memory, register with its source, then its segment, then its bound failing; CALL far with SP = 1 in a registered SS; and an instruction none of whose checks fails. -/
theorem witness_HandlerFaultsInOrder :
    (let i := Instr.movD16R none .ax 0xFFFF#16
     let ops : List Operand := [.mem (memD16 .word none 0xFFFF#16), .reg (.gpr .ax)]
     let s := unwritten (.seg .ds) ready
     HasForm i 0#16 .mov ops ∧
     handlerFault (.instr i) .mov ops (unwritten (.gpr .ax) s) = some (.uninitialisedRead (.reg (.gpr .ax))) ∧
     handlerFault (.instr i) .mov ops s = some (.uninitialisedRead (.reg (.seg .ds))) ∧
     handlerFault (.instr i) .mov ops ready = some (.segmentFault 2#16 0xFFFF)) ∧
    (HasForm (.callFar 0#16) 0#16 .call [.farBranch 0#16 0xFFFF#16] ∧
      handlerFault (.instr (.callFar 0#16)) .call [.farBranch 0#16 0xFFFF#16] (with_ .sp 1#16 ready) =
        some (.segmentFault 2#16 0xFFFF)) ∧
    (HasForm (.addRRm .ax .cx) 0#16 .add [.reg (.gpr .ax), .reg (.gpr .cx)] ∧ Mnemonic.add ≠ .stosw ∧
      handlerFault (.instr (.addRRm .ax .cx)) .add [.reg (.gpr .ax), .reg (.gpr .cx)] ready = none) := by decide

/-! ### Every form completes -/

/-- Each of these completes from `ready`. -/
def allComplete (l : List Instr) : Bool := l.all (fun i => completes (exec i ready))

theorem test_arithmetic_forms_complete : allComplete
    [.addRmR .ax .cx, .addRRm .ax .cx, .addAxI16 1#16, .addRmI16 .sp 1#16, .addRmI8 .di 0xFF#8, .cmpRmR .ax .cx,
     .cmpD16R none .ax 0xFFFE#16, .cmpB8R (some .ds) .ax 0x80#8, .cmpB16R none .ax 0x8000#16, .cmpRRm .ax .cx,
     .cmpRD16 (some .es) .ax 0#16, .cmpRB8 none .ax 1#8, .cmpRB16 none .ax 1#16, .cmpAxI16 1#16, .cmpRmI16 .ax 1#16] = true ∧
    allComplete
    [.cmpD16I16 none 1#16 2#16, .cmpB8I16 none 1#8 2#16, .cmpB16I16 none 1#16 2#16, .cmpRmI8 .ax 1#8, .cmpD16I8 none
     1#16 2#8, .cmpB8I8 none 1#8 2#8, .cmpB16I8 none 1#16 2#8, .cmpByteD16I8 none 0xFFFF#16 2#8, .cmpByteB8I8 none
     1#8 2#8, .cmpByteB16I8 none 1#16 2#8, .incR .ax, .incRm .sp, .xorRmR .ax .cx, .xorRRm .ax .cx] = true := by
  decide

theorem test_logic_forms_complete : allComplete
    [.xorRD16 none .ax 1#16, .xorRB8 none .ax 1#8, .xorRB16 none .ax 1#16, .xorAxI16 1#16, .xorRmI16 .ax 1#16,
     .xorRmI8 .ax 1#8, .orRmR .ax .cx, .orRRm .ax .cx, .orRD16 none .ax 1#16, .orRB8 none .ax 1#8, .orRB16 none .ax
     1#16, .orAxI16 1#16, .orRmI16 .ax 1#16, .orRmI8 .ax 1#8, .shlRm1 .ax, .shlRmI8 .ax 0#8] = true := by decide

theorem test_data_movement_forms_complete : allComplete
    [.pushR .sp, .pushRm .ax, .pushD16 none 1#16, .pushB8 none 1#8, .pushB16 none 1#16, .pushEs, .pushCs, .pushSs,
     .pushDs, .pushI16 1#16, .pushI8 1#8, .popR .sp, .popRm .ax, .popEs, .popSs, .popDs, .movRI16 .ax 1#16,
     .movRmI16 .ax 0xFFFF#16, .movD16I16 none 1#16 2#16, .movB8I16 none 1#8 2#16, .movB16I16 none 1#16 2#16,
     .movByteD16I8 none 0xFFFF#16 2#8] = true ∧
    allComplete
    [.movByteB8I8 none 1#8 2#8, .movByteB16I8 none 1#16 2#8, .movRmR .ax .cx, .movD16R none .ax 1#16, .movB8R none
     .ax 1#8, .movB16R none .ax 1#16, .movRRm .ax .cx, .movRD16 none .ax 1#16, .movRB8 none .ax 1#8, .movRB16 none
     .ax 1#16, .movRmS .cs .ax, .movD16S none .cs 1#16, .movB8S none .ds 1#8, .movB16S none .ss 1#16, .movSRm .ds
     .ax, .movSD16 none .es 1#16, .movSB8 none .ss 1#8, .movSB16 none .ds 1#16, .movAxMoffs none 1#16, .movMoffsAx
     none 1#16, .leaRB8 none .ax 1#8, .leaRB16 (some .es) .ax 1#16] = true := by decide

theorem test_control_forms_complete : allComplete
    [.enterI16 4#16, .leave, .stosw, .repStosw, .repneStosw, .jeRel8 1#8, .jeRel16 1#16, .jneRel8 1#8, .jneRel16
     1#16, .jlRel8 1#8, .jlRel16 1#16, .jgeRel8 1#8, .jgeRel16 1#16, .jleRel8 1#8, .jleRel16 1#16, .jbeRel8 1#8,
     .jbeRel16 1#16, .jmpRel8 1#8, .jmpRel16 1#16, .callRel16 1#16] = true ∧
    completes (exec (.callFar 0#16) (related (.importRef 9#16 2#16) (.returned 0#16 []))) = true := by decide

end Sys2Proof.Tests
end

/-!
PROOFS. The context invariant through every operation and step (R31, R34, R35, R40), who loads CS and who
writes F (R22, R25 to R27), reads of unwritten registers (R39), and how a step faults (R103, R130 to R133).
-/

namespace Sys2Proof.Proofs

open Sys2Proof.Machine Sys2Proof.Safety

variable {i : Instr} {s t : State} {m : Mnemonic} {ops : List Operand} {r : Host.Outcome State Fault Refusal}

/-! ### The context invariant looks at the bytes, the segments and the arena cursor only -/

theorem contextInv_congr (hm : t.mem = s.mem) (hs : t.store = s.store) (ha : t.arena = s.arena) :
    contextInv t = contextInv s := by
  simp only [contextInv, bytesOwned, dataNotDecoded, registered, hm, hs, ha]

@[simp] theorem contextInv_writeReg (q : Reg) (v : Word) : contextInv (writeReg q v s) = contextInv s := rfl
@[simp] theorem contextInv_writeIp (v : Word) : contextInv (writeIp v s) = contextInv s := rfl
@[simp] theorem contextInv_advance (n : Nat) : contextInv (advance n s) = contextInv s := rfl
@[simp] theorem contextInv_popped : contextInv (popped s) = contextInv s := rfl
@[simp] theorem contextInv_recordInvoke (m f : Word) : contextInv (recordInvoke m f s) = contextInv s := rfl

@[simp] theorem contextInv_addFlags (a b c : Word) : contextInv (addFlags a b c s) = contextInv s :=
  contextInv_congr (addFlags_mem ..) (addFlags_store ..) (addFlags_arena ..)

@[simp] theorem contextInv_cmpFlags (a b : Word) : contextInv (cmpFlags a b s) = contextInv s := rfl
@[simp] theorem contextInv_incFlags (a : Word) : contextInv (incFlags a s) = contextInv s := rfl

@[simp] theorem contextInv_logicFlags (zf cf : Bool) : contextInv (logicFlags zf cf s) = contextInv s :=
  contextInv_congr (logicFlags_mem ..) (logicFlags_store ..) (logicFlags_arena ..)

@[simp] theorem contextInv_loadState (a : MemOperand) : contextInv (loadState a s) = contextInv s :=
  contextInv_congr (loadState_mem ..) (loadState_store ..) (loadState_arena ..)

@[simp] theorem contextInv_operandState (op : Operand) : contextInv (operandState op s) = contextInv s :=
  contextInv_congr (operandState_mem ..) (operandState_store ..) (operandState_arena ..)

/-! ### A store in bounds keeps the invariant (R43) -/

theorem bytesOwned_iff : bytesOwned s = true ↔
    ∀ c ∈ s.mem, c.1 < 65536 * 65536 ∧ registered s (BitVec.ofNat 16 (c.1 / 65536)) = true := by
  simp [bytesOwned]

/-- A byte stored into a registered segment is listed under that segment's ordinal. -/
theorem bytesOwned_putByte {g : Word} {o : Nat} (b : Byte) (ho : o < 65536) (hg : registered s g = true)
    (h : bytesOwned s = true) : bytesOwned (putByte g o b s) = true := by
  refine bytesOwned_iff.mpr fun c hc => ?_
  obtain hc | hc := Memory.mem_write hc
  · exact bytesOwned_iff.mp h c hc
  · rw [hc, cellKey_div g ho, BitVec.ofNat_toNat, BitVec.setWidth_eq]
    exact ⟨cellKey_lt g ho, hg⟩

theorem contextInv_putByte {g : Word} {o : Nat} (b : Byte) (hb : inBounds s g o 1 = true)
    (h : contextInv s = true) : contextInv (putByte g o b s) = true := by
  obtain ⟨hg, ho⟩ := inBounds_eq.mp hb
  simp only [contextInv, Bool.and_eq_true] at h ⊢
  obtain ⟨⟨⟨⟨hwf, hown⟩, hsorted⟩, hdata⟩, harena⟩ := h
  exact ⟨⟨⟨⟨wf_putByte hwf g o b, bytesOwned_putByte b (by omega) hg hown⟩, hsorted⟩, hdata⟩, harena⟩

theorem contextInv_putWord {g : Word} {o : Nat} (v : Word) (hb : inBounds s g o 2 = true)
    (h : contextInv s = true) : contextInv (putWord g o v s) = true := by
  obtain ⟨hg, ho⟩ := inBounds_eq.mp hb
  have hlo : contextInv (putByte g o (loByte v) s) = true :=
    contextInv_putByte _ (inBounds_eq.mpr ⟨hg, by omega⟩) h
  exact contextInv_putByte _ (inBounds_eq.mpr ⟨hg, by omega⟩) hlo

theorem contextInv_storeByte {a : MemOperand} (b : Byte) (hsize : a.size = .byte) (ha : storeOk a s = true)
    (h : contextInv s = true) : contextInv (putByte (memSegment a s) (memOffset a s).toNat b s) = true := by
  simp only [storeOk, inSegment, hsize, sizeBytes, Bool.and_eq_true] at ha
  exact contextInv_putByte b ha.2 h

theorem contextInv_storeWord {a : MemOperand} (v : Word) (hsize : a.size = .word) (ha : storeOk a s = true)
    (h : contextInv s = true) : contextInv (putWord (memSegment a s) (memOffset a s).toNat v s) = true := by
  simp only [storeOk, inSegment, hsize, sizeBytes, Bool.and_eq_true] at ha
  exact contextInv_putWord v ha.2 h

theorem contextInv_pushed (v : Word) (hp : pushOk s = true) (h : contextInv s = true) :
    contextInv (pushed v s) = true := by
  simp only [pushOk, Bool.and_eq_true] at hp
  exact contextInv_putWord (s := writeReg _ _ s) v hp.2 h

theorem contextInv_called (hc : callOk s = true) (h : contextInv s = true) : contextInv (called s) = true := by
  simp only [callOk, Bool.and_eq_true] at hc
  obtain ⟨⟨hpush, -⟩, hpush'⟩ := hc
  simpa only [called, contextInv_writeReg] using contextInv_pushed _ hpush' (contextInv_pushed _ hpush h)

theorem contextInv_stoswIters {k : Nat} (hg : ∀ j, j < k → stoswGuard (stoswIters j s)) (h : contextInv s = true) :
    contextInv (stoswIters k s) = true := by
  induction k with
  | zero => exact h
  | succ k ih =>
    obtain ⟨-, -, -, hb⟩ := hg k (by omega)
    simpa only [stoswIters, stoswIter, contextInv_writeReg] using
      contextInv_putWord _ hb (ih fun j hj => hg j (by omega))

/-! ### A callback keeps the invariant (R55) -/

theorem contextInv_applyHostWrite (w : HostWrite) (h : contextInv s = true) :
    contextInv (applyHostWrite s w) = true := by
  cases w with
  | byte g o b =>
    rw [applyHostWrite]
    split
    · exact contextInv_putByte b (inBounds_eq.mpr ⟨‹_›, o.isLt⟩) h
    · exact h
  | _ => exact h

theorem contextInv_applyHostWrites (ws : List HostWrite) (h : contextInv s = true) :
    contextInv (applyHostWrites s ws) = true := by
  induction ws generalizing s with
  | nil => exact h
  | cons w ws ih => exact ih (contextInv_applyHostWrite w h)

theorem contextInv_relocSubst {v w : Word} (hr : relocSubst v s = .ok (w, t)) (h : contextInv s = true) :
    contextInv t = true := by
  obtain ⟨-, ⟨-, rfl⟩ | ⟨-, m, f, ws, -, -, rfl⟩⟩ := relocSubst_ok.mp hr
  · exact h
  · exact contextInv_applyHostWrites ws h

/-! ### Every step keeps the invariant -/

theorem stoswMeaning_next (h : stoswMeaning i s = .next t) :
    ∃ k, (∀ j, j < k → stoswGuard (stoswIters j s)) ∧ t = advance i.length (stoswIters k s) := by
  rw [stoswMeaning, finish_eq_next, bind_eq_ok] at h
  obtain ⟨u, hu, ht⟩ := h
  obtain ⟨k, -, hg, rfl, -⟩ := stoswLoop_ok hu
  exact ⟨k, hg, ok_eq_ok.mp ht⟩

theorem jmpMeaning_next {rel : Word} :
    jmpMeaning i rel s = .next t ↔ t = writeIp (relTarget s.ip i.length rel) s := by
  rw [jmpMeaning, finish_eq_next, ok_eq_ok]

/-- A meaning that completes keeps the invariant: each store it makes is in bounds. -/
theorem runs_keeps_contextInv (h : Runs i s m ops r) (hr : r = .next t) (hi : contextInv s = true) :
    contextInv t = true := by
  cases h with
  | add g src => obtain ⟨-, -, rfl⟩ := addMeaning_next.mp hr; simpa using hi
  | cmp dst src _ => obtain ⟨-, -, rfl⟩ := cmpMeaning_next.mp hr; simpa using hi
  | inc g => obtain ⟨-, rfl⟩ := incMeaning_next.mp hr; simpa using hi
  | xor g src => obtain ⟨-, -, rfl⟩ := xorMeaning_next.mp hr; simpa using hi
  | or g src => obtain ⟨-, -, rfl⟩ := orMeaning_next.mp hr; simpa using hi
  | shl g count => obtain ⟨-, rfl⟩ := shlMeaning_next.mp hr; simpa using hi
  | push src =>
    obtain ⟨-, hp, rfl⟩ := pushMeaning_next.mp hr
    simpa using contextInv_pushed (operandValue src s) hp (by simpa using hi)
  | pop q _ => obtain ⟨-, rfl⟩ := popMeaning_next.mp hr; simpa using hi
  | movRegImm g v =>
    obtain ⟨w, u, hu, rfl⟩ := movRegImm_next.mp hr
    simpa using contextInv_relocSubst hu hi
  | movRegReg dst src _ => obtain ⟨-, rfl⟩ := movRegReg_next.mp hr; simpa using hi
  | movRegMem dst a _ => obtain ⟨-, rfl⟩ := movRegMem_next.mp hr; simpa using hi
  | movMemImm a v hsize =>
    obtain ⟨w, u, hu, ha, rfl⟩ := (movMemImm_next hsize).mp hr
    exact contextInv_storeWord w hsize ha (contextInv_relocSubst hu hi)
  | movMemImm8 a v hsize =>
    obtain ⟨ha, rfl⟩ := (movMemImm8_next hsize).mp hr
    exact contextInv_storeByte v hsize ha hi
  | movMemReg a src hsize =>
    obtain ⟨-, ha, rfl⟩ := (movMemReg_next hsize).mp hr
    exact contextInv_storeWord _ hsize ha hi
  | lea g a => obtain ⟨-, rfl⟩ := leaMeaning_next.mp hr; simpa using hi
  | enter n level =>
    obtain ⟨-, hp, rfl⟩ := enterMeaning_next.mp hr
    simpa using contextInv_pushed (gpr s .bp) hp hi
  | leave =>
    obtain ⟨-, a, b, c, rfl, -, rfl, -, rfl, -, rfl⟩ := leaveMeaning_next.mp hr
    simpa using hi
  | stosw =>
    obtain ⟨k, hg, rfl⟩ := stoswMeaning_next hr
    simpa using contextInv_stoswIters hg hi
  | jcc m target c rel _ =>
    obtain ⟨-, -, rfl⟩ := jccMeaning_next.mp hr
    split <;> exact hi
  | jmp target rel => obtain rfl := jmpMeaning_next.mp hr; exact hi
  | callNear target rel =>
    obtain ⟨hc, rfl⟩ := callNearMeaning_next.mp hr
    simpa using contextInv_called hc hi
  | callFar sel off =>
    obtain ⟨hc, m, f, w, ws, -, -, u, v, rfl, -, rfl, -, rfl⟩ := callFarMeaning_next.mp hr
    have hrecord : contextInv (recordInvoke m f (called s)) = true := by simpa using contextInv_called hc hi
    simpa using contextInv_applyHostWrites ws hrecord

/-- A step completes only by running an admitted instruction that the fetch gave (R90). -/
theorem step_next (h : step s = .next t) : s.status = .running ∧
    ∃ i, fetch s = .ok (.instr i) ∧ i.wellFormed = true ∧ exec i s = .next t := by
  unfold step at h
  split at h
  · cases h
  · split at h
    · cases h
    · cases h
    · split at h
      · exact ⟨‹_›, _, ‹_›, ‹_›, h⟩
      · cases h

/-- Settles O51: the instruction a completed step runs keeps the invariant, whichever meaning it has. -/
theorem stepKeepsInvariant : Obligations.StepKeepsInvariant := by
  intro s t hi h
  obtain ⟨-, i, -, -, hx⟩ := step_next h
  exact runs_keeps_contextInv (exec_runs i s) hx hi

/-! ### An instruction that makes no callback -/

/-- Where a MOV makes no callback, its relocation leaves the state alone (R99). -/
theorem relocSubst_state_of_noCallback {dst : Operand} {v w : Word} (hm : (i.decoded s.ip).mnemonic = .mov)
    (ho : (i.decoded s.ip).ops = [dst, .imm16 v]) (hc : makesCallback i s = false)
    (h : relocSubst v s = .ok (w, t)) : t = s := by
  obtain ⟨-, ⟨-, ht⟩ | ⟨rfl, m, f, ws, himport, -⟩⟩ := relocSubst_ok.mp h
  · exact ht
  · simp [makesCallback, hm, ho, himport] at hc

/-- A far CALL completes only through its callback (R127). -/
theorem makesCallback_of_callFarMeaning_next {sel off : Word} (hm : (i.decoded s.ip).mnemonic = .call)
    (ho : (i.decoded s.ip).ops = [.farBranch sel off]) (hr : callFarMeaning i s = .next t) :
    makesCallback i s = true := by
  obtain ⟨-, m, f, w, ws, himport, -⟩ := callFarMeaning_next.mp hr
  simp [makesCallback, hm, ho, himport]

/-! ### CS (R22) -/

/-- CS is loaded by LEAVE and by a callback only; the opcode table has no POP CS, and a MOV to CS is not admitted. -/
theorem runs_keeps_cs (h : Runs i s m ops r) (hm : (i.decoded s.ip).mnemonic = m) (ho : (i.decoded s.ip).ops = ops)
    (hwf : i.wellFormed = true) (hc : makesCallback i s = false) (hne : m ≠ .leave) (hr : r = .next t) :
    t.regs.get (.seg .cs) = s.regs.get (.seg .cs) := by
  cases h with
  | add g src => obtain ⟨-, -, rfl⟩ := addMeaning_next.mp hr; simp [Bank.get_set]
  | cmp dst src _ => obtain ⟨-, -, rfl⟩ := cmpMeaning_next.mp hr; simp
  | inc g => obtain ⟨-, rfl⟩ := incMeaning_next.mp hr; simp [Bank.get_set]
  | xor g src => obtain ⟨-, -, rfl⟩ := xorMeaning_next.mp hr; simp [Bank.get_set]
  | or g src => obtain ⟨-, -, rfl⟩ := orMeaning_next.mp hr; simp [Bank.get_set]
  | shl g count => obtain ⟨-, rfl⟩ := shlMeaning_next.mp hr; simp [Bank.get_set]
  | push src => obtain ⟨-, -, rfl⟩ := pushMeaning_next.mp hr; simp [regs_pushed]
  | pop q hq =>
    obtain ⟨-, rfl⟩ := popMeaning_next.mp hr
    simp [popped, Bank.get_set, Ne.symm hq]
  | movRegImm g v =>
    obtain ⟨w, u, hu, rfl⟩ := movRegImm_next.mp hr
    obtain rfl := relocSubst_state_of_noCallback hm ho hc hu
    simp [Bank.get_set]
  | movRegReg dst src hdst =>
    obtain ⟨-, rfl⟩ := movRegReg_next.mp hr
    simp [Bank.get_set, Ne.symm (hdst hwf)]
  | movRegMem dst a hdst =>
    obtain ⟨-, rfl⟩ := movRegMem_next.mp hr
    simp [Bank.get_set, Ne.symm (hdst hwf)]
  | movMemImm a v hsize =>
    obtain ⟨w, u, hu, -, rfl⟩ := (movMemImm_next hsize).mp hr
    obtain rfl := relocSubst_state_of_noCallback hm ho hc hu
    simp
  | movMemImm8 a v hsize => obtain ⟨-, rfl⟩ := (movMemImm8_next hsize).mp hr; simp
  | movMemReg a src hsize => obtain ⟨-, -, rfl⟩ := (movMemReg_next hsize).mp hr; simp
  | lea g a => obtain ⟨-, rfl⟩ := leaMeaning_next.mp hr; simp [Bank.get_set]
  | enter n level => obtain ⟨-, -, rfl⟩ := enterMeaning_next.mp hr; simp [Bank.get_set, regs_pushed]
  | leave => exact absurd rfl hne
  | stosw => obtain ⟨k, -, rfl⟩ := stoswMeaning_next hr; simp [stoswIters_regs]
  | jcc m target c rel _ => obtain ⟨-, -, rfl⟩ := jccMeaning_next.mp hr; split <;> rfl
  | jmp target rel => obtain rfl := jmpMeaning_next.mp hr; rfl
  | callNear target rel => obtain ⟨-, rfl⟩ := callNearMeaning_next.mp hr; simp [called_cs, sreg]
  | callFar sel off => simp [makesCallback_of_callFarMeaning_next hm ho hr] at hc

/-- Settles O54, by the meaning the instruction runs. -/
theorem csIsLoadedByLeaveAndFarCallOnly : Obligations.CsIsLoadedByLeaveAndFarCallOnly := by
  intro i s t hwf hx hc hne
  exact runs_keeps_cs (exec_runs i s) rfl rfl hwf hc hne hx

/-! ### F (R25 to R27) -/

/-- F and the written bits of its two flags are what they were. -/
def FlagsKept (s t : State) : Prop := t.flags = s.flags ∧ t.zfWritten = s.zfWritten ∧ t.cfWritten = s.cfWritten

/-- The mnemonics that write F. -/
def flagWriters : List Mnemonic := [.add, .cmp, .inc, .xor, .or, .shl]

theorem stoswIters_flagsKept (k : Nat) (s : State) : FlagsKept s (stoswIters k s) := by
  induction k with
  | zero => exact ⟨rfl, rfl, rfl⟩
  | succ k ih => exact ih

/-- A meaning that completes without a callback keeps F whole, or is one of the six and keeps all bits but ZF and CF. -/
theorem runs_flags (h : Runs i s m ops r) (hm : (i.decoded s.ip).mnemonic = m) (ho : (i.decoded s.ip).ops = ops)
    (hc : makesCallback i s = false) (hr : r = .next t) :
    FlagsKept s t ∨ m ∈ flagWriters ∧ t.flags &&& 0xFFBE#16 = s.flags &&& 0xFFBE#16 := by
  cases h with
  | add g src =>
    obtain ⟨-, -, rfl⟩ := addMeaning_next.mp hr
    exact .inr ⟨by decide, by simp [addFlags_rest]⟩
  | cmp dst src _ =>
    obtain ⟨-, -, rfl⟩ := cmpMeaning_next.mp hr
    exact .inr ⟨by decide, by simp [cmpFlags_rest]⟩
  | inc g =>
    obtain ⟨-, rfl⟩ := incMeaning_next.mp hr
    exact .inr ⟨by decide, by simp [incFlags_rest]⟩
  | xor g src =>
    obtain ⟨-, -, rfl⟩ := xorMeaning_next.mp hr
    exact .inr ⟨by decide, by simp [logicFlags_rest]⟩
  | or g src =>
    obtain ⟨-, -, rfl⟩ := orMeaning_next.mp hr
    exact .inr ⟨by decide, by simp [logicFlags_rest]⟩
  | shl g count =>
    obtain ⟨-, rfl⟩ := shlMeaning_next.mp hr
    exact .inr ⟨by decide, by simp [logicFlags_rest]⟩
  | push src => obtain ⟨-, -, rfl⟩ := pushMeaning_next.mp hr; exact .inl (by simp [FlagsKept])
  | pop q _ => obtain ⟨-, rfl⟩ := popMeaning_next.mp hr; exact .inl (by simp [FlagsKept])
  | movRegImm g v =>
    obtain ⟨w, u, hu, rfl⟩ := movRegImm_next.mp hr
    obtain rfl := relocSubst_state_of_noCallback hm ho hc hu
    exact .inl ⟨rfl, rfl, rfl⟩
  | movRegReg dst src _ => obtain ⟨-, rfl⟩ := movRegReg_next.mp hr; exact .inl ⟨rfl, rfl, rfl⟩
  | movRegMem dst a _ => obtain ⟨-, rfl⟩ := movRegMem_next.mp hr; exact .inl (by simp [FlagsKept])
  | movMemImm a v hsize =>
    obtain ⟨w, u, hu, -, rfl⟩ := (movMemImm_next hsize).mp hr
    obtain rfl := relocSubst_state_of_noCallback hm ho hc hu
    exact .inl ⟨rfl, rfl, rfl⟩
  | movMemImm8 a v hsize => obtain ⟨-, rfl⟩ := (movMemImm8_next hsize).mp hr; exact .inl ⟨rfl, rfl, rfl⟩
  | movMemReg a src hsize => obtain ⟨-, -, rfl⟩ := (movMemReg_next hsize).mp hr; exact .inl ⟨rfl, rfl, rfl⟩
  | lea g a => obtain ⟨-, rfl⟩ := leaMeaning_next.mp hr; exact .inl ⟨rfl, rfl, rfl⟩
  | enter n level => obtain ⟨-, -, rfl⟩ := enterMeaning_next.mp hr; exact .inl (by simp [FlagsKept])
  | leave =>
    obtain ⟨-, a, b, c, rfl, -, rfl, -, rfl, -, rfl⟩ := leaveMeaning_next.mp hr
    exact .inl (by simp [FlagsKept])
  | stosw => obtain ⟨k, -, rfl⟩ := stoswMeaning_next hr; exact .inl (stoswIters_flagsKept k s)
  | jcc m target c rel _ =>
    obtain ⟨-, -, rfl⟩ := jccMeaning_next.mp hr
    split <;> exact .inl ⟨rfl, rfl, rfl⟩
  | jmp target rel => obtain rfl := jmpMeaning_next.mp hr; exact .inl ⟨rfl, rfl, rfl⟩
  | callNear target rel => obtain ⟨-, rfl⟩ := callNearMeaning_next.mp hr; exact .inl (by simp [FlagsKept])
  | callFar sel off => simp [makesCallback_of_callFarMeaning_next hm ho hr] at hc

/-- Settles O55: an instruction that keeps F whole keeps each of its bits. -/
theorem flagsAreWrittenByTheAluOnly : Obligations.FlagsAreWrittenByTheAluOnly := by
  intro i s t hx hc
  obtain hkept | ⟨hmem, hrest⟩ := runs_flags (exec_runs i s) rfl rfl hc hx
  · exact ⟨by rw [hkept.1], fun _ => hkept⟩
  · exact ⟨hrest, fun hnot => absurd hmem hnot⟩

/-! ### Reads of unwritten registers and flags (R39) -/

theorem canRead_iff (item : Item) :
    canRead item s = true ↔ s.cfg.resetRegs = .draw ∨ itemWritten s item = true := by
  simp [canRead]

theorem readItem_eq_ite {α : Type} (item : Item) (v : α) (s : State) :
    readItem item v s = if s.cfg.resetRegs = .draw ∨ itemWritten s item = true then .ok v
      else .error (.uninitialisedRead item) := by
  simp only [readItem, canRead_iff]

/-- Settles O6: each read is `readItem` of its item and value. -/
theorem unwrittenReadFaults : Obligations.UnwrittenReadFaults := fun s =>
  ⟨fun r => readItem_eq_ite (.reg r) (s.regs.get r) s, readItem_eq_ite .zf s.zf s, readItem_eq_ite .cf s.cf s⟩

/-! ### The fetch and the faults before a handler (R91, R92, R130) -/

theorem readIp_ok {v : Word} : readIp s = .ok v ↔ canRead .ip s = true ∧ v = s.ip := readItem_ok

theorem fetch_of_cs_unwritten (hcs : regOk s (.seg .cs) = false) :
    fetch s = .error (.uninitialisedRead (.reg (.seg .cs))) :=
  bind_of_error (readReg_error.mpr ⟨hcs, rfl⟩)

theorem fetch_of_ip_unwritten (hcs : regOk s (.seg .cs) = true) (hip : canRead .ip s = false) :
    fetch s = .error (.uninitialisedRead .ip) := by
  rw [fetch, bind_of_ok (readReg_ok.mpr ⟨hcs, rfl⟩)]
  exact bind_of_error (readItem_error.mpr ⟨hip, rfl⟩)

section Readable

variable (hcs : regOk s (.seg .cs) = true) (hip : canRead .ip s = true)
include hcs hip

theorem fetch_of_unregistered (hg : findSegment s.store (sreg s .cs) = none) :
    fetch s = .error (.segmentFault (sreg s .cs) s.ip.toNat) := by
  rw [fetch, bind_of_ok (readReg_ok.mpr ⟨hcs, rfl⟩), bind_of_ok (readIp_ok.mpr ⟨hip, rfl⟩)]
  rw [sreg] at hg ⊢
  simp only [hg]

theorem fetch_of_no_entry {g : Segment} (hg : findSegment s.store (sreg s .cs) = some g)
    (hd : indexAt g s.ip.toNat = none) : fetch s = .error (.invalidControlFlow (sreg s .cs) s.ip.toNat) := by
  rw [fetch, bind_of_ok (readReg_ok.mpr ⟨hcs, rfl⟩), bind_of_ok (readIp_ok.mpr ⟨hip, rfl⟩)]
  rw [sreg] at hg ⊢
  simp only [hg, hd]

theorem fetch_of_entry {g : Segment} {d : Decoded} (hg : findSegment s.store (sreg s .cs) = some g)
    (hd : indexAt g s.ip.toNat = some d) : fetch s = .ok d := by
  rw [fetch, bind_of_ok (readReg_ok.mpr ⟨hcs, rfl⟩), bind_of_ok (readIp_ok.mpr ⟨hip, rfl⟩)]
  rw [sreg] at hg
  simp only [hg, hd]

end Readable

theorem step_of_fetch_error {k : Fault} (hrun : s.status = .running) (h : fetch s = .error k) :
    step s = .fault k := by
  simp only [step, hrun, h]

/-- An entry that is Other or not admitted never reaches a handler (R92, R94). -/
theorem step_of_not_admitted {d : Decoded} (hrun : s.status = .running) (h : fetch s = .ok d)
    (hd : ∀ i, d = .instr i → i.wellFormed = false) : step s = .fault (.unsupportedInstruction d) := by
  cases d with
  | other n => simp only [step, hrun, h]
  | instr i => simp [step, hrun, h, hd i rfl]

/-- Settles O47: the fetch reads CS, then IP, then the segment, then the index. -/
theorem stepFaultsBeforeTheHandler : Obligations.StepFaultsBeforeTheHandler := by
  intro s hrun
  refine ⟨fun hcs => step_of_fetch_error hrun (fetch_of_cs_unwritten hcs),
    fun hcs hip => step_of_fetch_error hrun (fetch_of_ip_unwritten hcs hip),
    fun hcs hip => ⟨fun hg => step_of_fetch_error hrun (fetch_of_unregistered hcs hip hg), fun g hg => ?_⟩⟩
  exact ⟨fun hd => step_of_fetch_error hrun (fetch_of_no_entry hcs hip hg hd),
    fun d hd => fetch_of_entry hcs hip hg hd,
    fun d hd => step_of_not_admitted hrun (fetch_of_entry hcs hip hg hd)⟩

/-! ### Taking a fault (R30, R103, R131 to R133) -/

theorem hostStep_of_fault {k : Fault} (hk : k ≠ .diverges) (h : step s = .fault k) :
    hostStep s = (.faulted k, takeFault k s) := by
  unfold hostStep
  rw [h]
  cases k with
  | diverges => exact absurd rfl hk
  | _ => rfl

theorem step_of_faulted {k : Fault} (h : s.status = .faulted k) : step s = .refused (.contextFaulted k) := by
  simp only [step, h]

theorem hostStep_of_faulted {k : Fault} (h : s.status = .faulted k) :
    hostStep s = (.noStep (.contextFaulted k), s) := by
  simp only [hostStep, step_of_faulted h]

theorem takeFault_store (k : Fault) (s : State) : (takeFault k s).store = s.store :=
  (applyHostWrites_kept _ s).1

/-- Settles O48: the step of the host takes the fault, and a faulted context refuses the next step. -/
theorem faultEndsTheContext : Obligations.FaultEndsTheContext := by
  intro s k hk h
  rw [hostStep_of_fault hk h]
  have hst : (takeFault k s).status = .faulted k := rfl
  exact ⟨rfl, hst, takeFault_store k s, step_of_faulted hst, by rw [hostStep_of_faulted hst]⟩

/-! ### Context creation (R38) -/

theorem itemWritten_reset (item : Item) : itemWritten State.reset item = false := by
  cases item with
  | reg r => rcases r with g | g <;> cases g <;> rfl
  | _ => rfl

/-- Settles O52, by evaluating the reset state; each of the written bits is `itemWritten_reset`. -/
theorem resetMeetsInvariant : Obligations.ResetMeetsInvariant :=
  ⟨rfl, rfl, rfl, rfl, itemWritten_reset, rfl⟩

end Sys2Proof.Proofs

/-!
PROOFS. The bounds, the byte order and the relocation records of the Segment Store (R43, R44, R49, R50), registration and
allocation (R41, R42, R53, R54), the context invariant through the host's operations, what no step changes (R55, R61, R132),
and a callback that does not return (R55, R104).
-/

namespace Sys2Proof.Proofs

open Sys2Proof.Machine Sys2Proof.Safety

variable {i : Instr} {s t : State} {m : Mnemonic} {ops : List Operand} {r : Host.Outcome State Fault Refusal}

/-! ### What no step changes (R31, R32, R35, R61) -/

theorem fixedKept_refl (s : State) : FixedKept s s := ⟨rfl, rfl, rfl, rfl⟩

theorem fixedKept_applyHostWrites (ws : List HostWrite) (s : State) : FixedKept s (applyHostWrites s ws) := by
  obtain ⟨hstore, harena, hcfg, hstatus, -⟩ := applyHostWrites_kept ws s
  exact ⟨hstore, harena, hcfg, hstatus⟩

theorem fixedKept_stoswIters (k : Nat) (s : State) : FixedKept s (stoswIters k s) := by
  obtain ⟨-, -, hstore, harena, hcfg, hstatus⟩ := stoswIters_fields k s
  exact ⟨hstore, harena, hcfg, hstatus⟩

/-- A callback writes registers, flags and bytes only, so a relocated immediate leaves the rest alone (R55, R99). -/
theorem fixedKept_relocSubst {v w : Word} (h : relocSubst v s = .ok (w, t)) : FixedKept s t := by
  obtain ⟨-, ⟨-, rfl⟩ | ⟨-, m, f, ws, -, -, rfl⟩⟩ := relocSubst_ok.mp h
  · exact fixedKept_refl t
  · exact fixedKept_applyHostWrites ws (recordInvoke m f s)

/-- A meaning that completes writes registers, IP, flags and bytes only, and the callbacks' records. -/
theorem runs_fixedKept (h : Runs i s m ops r) (hr : r = .next t) : FixedKept s t := by
  cases h with
  | add g src => obtain ⟨-, -, rfl⟩ := addMeaning_next.mp hr; simp [FixedKept]
  | cmp dst src _ => obtain ⟨-, -, rfl⟩ := cmpMeaning_next.mp hr; simp [FixedKept]
  | inc g => obtain ⟨-, rfl⟩ := incMeaning_next.mp hr; simp [FixedKept]
  | xor g src => obtain ⟨-, -, rfl⟩ := xorMeaning_next.mp hr; simp [FixedKept]
  | or g src => obtain ⟨-, -, rfl⟩ := orMeaning_next.mp hr; simp [FixedKept]
  | shl g count => obtain ⟨-, rfl⟩ := shlMeaning_next.mp hr; simp [FixedKept]
  | push src => obtain ⟨-, -, rfl⟩ := pushMeaning_next.mp hr; simp [FixedKept]
  | pop q _ => obtain ⟨-, rfl⟩ := popMeaning_next.mp hr; simp [FixedKept]
  | movRegImm g v =>
    obtain ⟨w, u, hu, rfl⟩ := movRegImm_next.mp hr
    simpa [FixedKept] using fixedKept_relocSubst hu
  | movRegReg dst src _ => obtain ⟨-, rfl⟩ := movRegReg_next.mp hr; simp [FixedKept]
  | movRegMem dst a _ => obtain ⟨-, rfl⟩ := movRegMem_next.mp hr; simp [FixedKept]
  | movMemImm a v hsize =>
    obtain ⟨w, u, hu, -, rfl⟩ := (movMemImm_next hsize).mp hr
    simpa [FixedKept] using fixedKept_relocSubst hu
  | movMemImm8 a v hsize => obtain ⟨-, rfl⟩ := (movMemImm8_next hsize).mp hr; simp [FixedKept]
  | movMemReg a src hsize => obtain ⟨-, -, rfl⟩ := (movMemReg_next hsize).mp hr; simp [FixedKept]
  | lea g a => obtain ⟨-, rfl⟩ := leaMeaning_next.mp hr; simp [FixedKept]
  | enter n level => obtain ⟨-, -, rfl⟩ := enterMeaning_next.mp hr; simp [FixedKept]
  | leave =>
    obtain ⟨-, a, b, c, rfl, -, rfl, -, rfl, -, rfl⟩ := leaveMeaning_next.mp hr
    simp [FixedKept]
  | stosw => obtain ⟨k, -, rfl⟩ := stoswMeaning_next hr; exact fixedKept_stoswIters k s
  | jcc m target c rel _ =>
    obtain ⟨-, -, rfl⟩ := jccMeaning_next.mp hr
    split <;> exact fixedKept_refl s
  | jmp target rel => obtain rfl := jmpMeaning_next.mp hr; exact fixedKept_refl s
  | callNear target rel => obtain ⟨-, rfl⟩ := callNearMeaning_next.mp hr; simp [FixedKept]
  | callFar sel off =>
    obtain ⟨-, m, f, w, ws, -, -, u, v, rfl, -, rfl, -, rfl⟩ := callFarMeaning_next.mp hr
    exact fixedKept_applyHostWrites ws (recordInvoke m f (called s))

/-- Settles O50: the meaning the step runs writes none of these fields, and the status it leaves is the one it ran under. -/
theorem stepNeverChangesCode : Obligations.StepNeverChangesCode := by
  intro s t h
  obtain ⟨hrun, i, -, -, hx⟩ := step_next h
  have hkept := runs_fixedKept (exec_runs i s) hx
  have ⟨_, _, _, hstatus⟩ := hkept
  exact ⟨hkept, hstatus.trans hrun⟩

/-! ### Accesses (R43, R44) -/

theorem registered_eq_false {g : Word} : registered s g = false ↔ findSegment s.store g = none := by
  rw [registered, Option.isSome_eq_false_iff, Option.isNone_iff_eq_none]

theorem inBounds_false {g : Word} {o n : Nat} : inBounds s g o n = false ↔ registered s g = false ∨ 65536 < o + n := by
  rw [← Bool.not_eq_true, inBounds_eq, Classical.not_and_iff_not_or_not, Bool.not_eq_true, Nat.not_le]

/-- Settles O7: each access is `access` of its size, whose bound check does not wrap. -/
theorem accessOutOfBoundsFaults : Obligations.AccessOutOfBoundsFaults := by
  intro s g o
  refine ⟨fun hg ho => memRead16_ok.mpr ⟨inBounds_eq.mpr ⟨hg, ho⟩, rfl⟩,
    fun hg => memRead8_ok.mpr ⟨inBounds_eq.mpr ⟨hg, o.isLt⟩, rfl⟩, fun h => ?_, fun hg => ?_⟩
  · have hword : inBounds s g o.toNat 2 = false := inBounds_false.mpr h
    exact ⟨access_error.mpr ⟨hword, rfl⟩, fun v => access_error.mpr ⟨hword, rfl⟩⟩
  · have hbyte : inBounds s g o.toNat 1 = false := inBounds_false.mpr (.inl hg)
    exact ⟨access_error.mpr ⟨hbyte, rfl⟩, fun b => access_error.mpr ⟨hbyte, rfl⟩⟩

theorem loByte_wordAt (s : State) (g : Word) (o : Nat) : loByte (wordAt s g o) = byteAt s g o := loByte_wordOf ..

theorem hiByte_wordAt (s : State) (g : Word) (o : Nat) : hiByte (wordAt s g o) = byteAt s g (o + 1) := hiByte_wordOf ..

/-- Settles O8: the word reads back, and its bytes are its low and high byte. -/
theorem storedWordIsLittleEndian : Obligations.StoredWordIsLittleEndian := by
  intro s t g o v hwf h
  obtain ⟨hb, rfl⟩ := memWrite16_ok.mp h
  have ho : o.toNat + 2 ≤ 65536 := (inBounds_eq.mp hb).2
  have hword : wordAt (putWord g o.toNat v s) g o.toNat = v := wordAt_putWord_same hwf g v ho
  refine ⟨memRead16_ok.mpr ⟨hb, hword.symm⟩, ?_, ?_, fun h p hp hne => byteAt_putWord_other s v ho hp hne⟩
  · rw [← loByte_wordAt, hword, loByte]
  · rw [← hiByte_wordAt, hword, hiByte]

/-! ### The string read (R49) -/

theorem scanString_none {g : Word} {left o : Nat} (h : ∀ k, k < left → byteAt s g (o + k) ≠ 0#8) :
    scanString s g left o = none := by
  induction left generalizing o with
  | zero => rfl
  | succ left ih =>
    have hrest : scanString s g left (o + 1) = none := ih fun k hk => by
      simpa only [Nat.add_right_comm, Nat.add_assoc] using h (k + 1) (by omega)
    have hfirst : byteAt s g o ≠ 0#8 := h 0 (by omega)
    simp [scanString, hfirst, hrest]

theorem scanString_first_zero {g : Word} {left o n : Nat} (hn : n < left) (hz : byteAt s g (o + n) = 0#8)
    (h : ∀ k, k < n → byteAt s g (o + k) ≠ 0#8) :
    scanString s g left o = some ((List.range (n + 1)).map fun k => byteAt s g (o + k)) := by
  induction n generalizing left o with
  | zero =>
    obtain ⟨left, rfl⟩ := Nat.exists_eq_add_one_of_ne_zero (Nat.ne_of_gt hn)
    rw [Nat.add_zero] at hz
    simp [scanString, hz]
  | succ n ih =>
    obtain ⟨left, rfl⟩ := Nat.exists_eq_add_one_of_ne_zero (Nat.ne_of_gt (Nat.zero_lt_of_lt hn))
    have hfirst : byteAt s g o ≠ 0#8 := h 0 (by omega)
    have hshift : ∀ k, byteAt s g (o + 1 + k) = byteAt s g (o + (k + 1)) := fun k => by
      rw [Nat.add_right_comm, Nat.add_assoc]
    have hrest := ih (o := o + 1) (Nat.lt_of_succ_lt_succ hn) ((hshift n).trans hz) fun k hk =>
      hshift k ▸ h (k + 1) (by omega)
    rw [List.range_succ_eq_map (n := n + 1)]
    simp [scanString, hfirst, hrest, hshift, Function.comp_def]

/-- Settles O13: the scan examines the offsets from o to 0xFFFF. -/
theorem stringReadStopsAtFirstZero : Obligations.StringReadStopsAtFirstZero := by
  intro s g o
  refine ⟨fun hg => by simp [hostReadString, hg], fun hg h => ?_, fun hg n hn hz h => ?_⟩
  · have hscan : scanString s g (Config.segSize - o.toNat) o.toNat = none :=
      scanString_none fun k hk => h _ (by omega) (by rw [Config.segSize] at hk; omega)
    simp [hostReadString, hg, hscan]
  · have hscan := scanString_first_zero (left := Config.segSize - o.toNat) (by rw [Config.segSize]; omega) hz h
    simp [hostReadString, hg, hscan]

/-! ### Relocation records (R50) -/

theorem relocAt_of_unregistered {g o : Word} (h : registered s g = false) : relocAt g o s = none := by
  simp only [relocAt, registered_eq_false.mp h]

theorem relocAt_of_registered {g o : Word} {seg : Segment} (h : findSegment s.store g = some seg) :
    relocAt g o s = (seg.relocs.find? (fun r => r.offset == o)).map Reloc.target := by
  simp only [relocAt, h]

/-- Settles O9: `RelocAt` is the target of the first record that `find?` gives. -/
theorem relocAtGivesFirstRecord : Obligations.RelocAtGivesFirstRecord := by
  intro s g o
  refine ⟨relocAt_of_unregistered, fun seg hseg => ⟨?_, fun before after r hsplit hr hbefore => ?_⟩⟩
  · simp [relocAt_of_registered hseg, List.find?_eq_none]
  · have hfind : seg.relocs.find? (fun r => r.offset == o) = some r :=
      List.find?_eq_some_iff_append.mpr ⟨by simp [hr], before, after, hsplit, fun q hq => by simp [hbefore q hq]⟩
    rw [relocAt_of_registered hseg, hfind, Option.map_some]

/-! ### Allocation (R53, R54) -/

/-- Settles O12, by the bound check of an allocation. -/
theorem allocationBumpsTheCursor : Obligations.AllocationBumpsTheCursor := fun _ _ =>
  ⟨fun h => if_pos h, fun h => ⟨_, _, if_neg (Nat.not_le_of_gt h)⟩⟩

/-! ### A callback that does not return (R55, R104) -/

theorem movRegImm_fault {g : Gpr} {v : Word} {k : Fault} (h : relocSubst v s = .error k) : movRegImm i g v s = .fault k :=
  finish_eq_fault.mpr (bind_of_error h)

theorem movMemImm_fault {a : MemOperand} {v : Word} {k : Fault} (h : relocSubst v s = .error k) :
    movMemImm i a v s = .fault k :=
  finish_eq_fault.mpr (bind_of_error h)

/-- A MOV of an immediate fails where its relocation does, before its destination is looked at (D24). -/
theorem exec_mov_imm_fault {dst : Operand} {v : Word} {k : Fault} (hf : HasForm i s.ip .mov [dst, .imm16 v])
    (h : relocSubst v s = .error k) : exec i s = .fault k := by
  obtain ⟨-, hm, ho⟩ := hf
  have hruns := exec_runs i s
  rw [hm, ho] at hruns
  generalize exec i s = r at hruns ⊢
  cases hruns with
  | movRegImm g v => exact movRegImm_fault h
  | movMemImm a v _ => exact movMemImm_fault h

/-- A far CALL at an import record fails where its callback does, on the state its pushes left (R127). -/
theorem callFarMeaning_fault {m f : Word} {k : Fault} (hr : relocHere s = some (.importRef m f)) (hc : callOk s = true)
    (h : hostInvoke m f (called s) = .error k) : callFarMeaning i s = .fault k := by
  have hcs : readReg (.seg .cs) (called s) = .ok (sreg s .cs) := readReg_ok.mpr ⟨regOk_called_cs hc, called_cs.symm⟩
  have hrec : relocAt (sreg s .cs) (s.ip + Config.relocProbeOffset) (called s) = some (.importRef m f) :=
    (relocAt_eq_of_store (called_store s) _ _).trans hr
  refine finish_eq_fault.mpr ((bind_of_ok (callFrame_ok.mpr ⟨hc, rfl⟩)).trans ((bind_of_ok hcs).trans ?_))
  simp only [hrec]
  exact bind_of_error h

/-- Settles O39: the fault of the callback is that of the relocation, and of the far CALL after its pushes. -/
theorem failedCallbackEndsTheStep : Obligations.FailedCallbackEndsTheStep := by
  intro i s m f hr
  refine ⟨fun dst hf hcs => ?_, fun sel hf hc => ?_⟩
  · have hmov : ∀ k, hostReply m f s = .failed ∧ k = .hostFault m f ∨ hostReply m f s = .never ∧ k = .diverges →
        exec i s = .fault k := fun k hk =>
      exec_mov_imm_fault hf (relocSubst_error.mpr ⟨rfl, .inr ⟨hcs, m, f, hr, hk⟩⟩)
    exact ⟨fun h => hmov _ (.inl ⟨h, rfl⟩), fun h => hmov _ (.inr ⟨h, rfl⟩)⟩
  · obtain ⟨-, hx⟩ := exec_call_far hf
    rw [hx]
    exact ⟨fun h => callFarMeaning_fault hr hc (hostInvoke_error.mpr (.inl ⟨h, rfl⟩)),
      fun h => callFarMeaning_fault hr hc (hostInvoke_error.mpr (.inr ⟨h, rfl⟩))⟩

/-! ### Registration (R41, R42, R67) -/

/-- The state that registers a segment with the bytes it starts with. -/
def withSegment (seg : Segment) (data : List Byte) (s : State) : State :=
  { s with store := insertSegment seg s.store, mem := putBytes (cellKey seg.ordinal 0) data s.mem }

section Request

variable {g : Word} {data : List Byte} {isCode : Bool} {relocs : List Reloc}

theorem hostRegister_of_oversized (hlen : 65536 < data.length) :
    hostRegister g data isCode relocs s = .refused .outsideContract := if_pos hlen

theorem hostRegister_of_registered (hlen : data.length ≤ 65536) (hg : registered s g = true) :
    hostRegister g data isCode relocs s = .failed (.duplicateSegment g) := by
  rw [hostRegister, if_neg (show ¬Config.segSize < data.length from Nat.not_lt_of_ge hlen), if_pos hg]

theorem hostRegister_of_malformed {o : Nat} (hlen : data.length ≤ 65536) (hg : registered s g = false)
    (hbuild : buildIndex s.cfg.tailPolicy data isCode = .error o) :
    hostRegister g data isCode relocs s = .failed (.malformedCode g o) := by
  rw [hostRegister, if_neg (show ¬Config.segSize < data.length from Nat.not_lt_of_ge hlen), if_neg (by simp [hg]), hbuild]

theorem hostRegister_of_built {index : List (Nat × Decoded)} (hlen : data.length ≤ 65536) (hg : registered s g = false)
    (hbuild : buildIndex s.cfg.tailPolicy data isCode = .ok index) :
    hostRegister g data isCode relocs s = .ok () (withSegment ⟨g, isCode, relocs, index⟩ data s) := by
  rw [hostRegister, if_neg (show ¬Config.segSize < data.length from Nat.not_lt_of_ge hlen), if_neg (by simp [hg]), hbuild]
  rfl

/-- A registration that succeeds was of a free ordinal, and its sweep succeeded. -/
theorem hostRegister_ok {u : Unit} (h : hostRegister g data isCode relocs s = .ok u t) :
    data.length ≤ 65536 ∧ registered s g = false ∧ ∃ index, buildIndex s.cfg.tailPolicy data isCode = .ok index ∧
      t = withSegment ⟨g, isCode, relocs, index⟩ data s := by
  obtain hlen | hlen := Nat.lt_or_ge 65536 data.length
  · rw [hostRegister_of_oversized hlen] at h; cases h
  · cases hg : registered s g with
    | true => rw [hostRegister_of_registered hlen hg] at h; cases h
    | false =>
      cases hbuild : buildIndex s.cfg.tailPolicy data isCode with
      | error o => rw [hostRegister_of_malformed hlen hg hbuild] at h; cases h
      | ok index =>
        rw [hostRegister_of_built hlen hg hbuild] at h
        cases h
        exact ⟨hlen, rfl, index, rfl, rfl⟩

end Request

/-! ### The bytes of a new segment (R40, R41) -/

theorem contextInv_iff : contextInv s = true ↔
    Memory.wf s.mem = true ∧ bytesOwned s = true ∧ storeSorted s.store = true ∧ dataNotDecoded s = true ∧
    s.arena ≤ 65536 := by
  simp only [contextInv, Bool.and_eq_true, decide_eq_true_eq, and_assoc]

theorem ordinal_of_cellKey (g : Word) {o : Nat} (ho : o < 65536) : BitVec.ofNat 16 (cellKey g o / 65536) = g := by
  rw [cellKey_div g ho, BitVec.ofNat_toNat, BitVec.setWidth_eq]

theorem read_of_unlisted {cells : List Host.Cell} {x : Nat} (h : ∀ c ∈ cells, c.1 ≠ x) :
    Memory.read cells x = Config.unlistedByte := by
  induction cells with
  | nil => rfl
  | cons c cells ih =>
    obtain ⟨hc, hcells⟩ := List.forall_mem_cons.mp h
    rw [Memory.read, if_neg hc, ih hcells]

/-- No byte is listed for an unregistered segment, so each would read as zero. -/
theorem byteAt_of_unregistered {g : Word} {o : Nat} (hown : bytesOwned s = true) (hg : registered s g = false)
    (ho : o < 65536) : byteAt s g o = 0#8 := by
  refine read_of_unlisted fun c hc hkey => ?_
  obtain ⟨-, hreg⟩ := bytesOwned_iff.mp hown c hc
  rw [hkey, ordinal_of_cellKey g ho, hg] at hreg
  cases hreg

theorem byteAt_withSegment_same {seg : Segment} {data : List Byte} {o : Nat} (hwf : Memory.wf s.mem = true)
    (hown : bytesOwned s = true) (hg : registered s seg.ordinal = false) (ho : o < 65536) :
    byteAt (withSegment seg data s) seg.ordinal o = data.getD o 0#8 := by
  have hkey : cellKey seg.ordinal o = cellKey seg.ordinal 0 + o := by simp [cellKey]
  obtain hin | hout := Nat.lt_or_ge o data.length
  · rw [byteAt, withSegment, hkey, read_putBytes_inside hwf _ _ hin, List.getD_eq_getElem _ _ hin]
  · rw [byteAt, withSegment, hkey, read_putBytes_outside _ _ (.inr (by omega)), ← hkey, List.getD_eq_default _ _ hout]
    exact byteAt_of_unregistered hown hg ho

theorem byteAt_withSegment_other {seg : Segment} {data : List Byte} {h : Word} {o : Nat} (hlen : data.length ≤ 65536)
    (hne : h ≠ seg.ordinal) (ho : o < 65536) : byteAt (withSegment seg data s) h o = byteAt s h o := by
  refine read_putBytes_outside _ _ ?_
  have hord : h.toNat ≠ seg.ordinal.toNat := fun e => hne (BitVec.eq_of_toNat_eq e)
  simp only [cellKey, Config.segSize]
  omega

/-- Settles O10: the new segment is found, and the byte list holds its data. -/
theorem registrationAddsOneSegment : Obligations.RegistrationAddsOneSegment := by
  intro s g data isCode relocs hinv
  refine ⟨hostRegister_of_oversized, hostRegister_of_registered, fun hlen hg => ?_⟩
  dsimp only
  refine ⟨fun o hcode hswept => hostRegister_of_malformed hlen hg (by rw [buildIndex, if_pos hcode]; exact hswept),
    fun index hindex => ?_⟩
  have hbuild : buildIndex s.cfg.tailPolicy data isCode = .ok index := by
    obtain ⟨rfl, hswept⟩ | ⟨rfl, rfl⟩ := hindex
    · exact hswept
    · rfl
  obtain ⟨hwf, hown, -⟩ := contextInv_iff.mp hinv
  exact ⟨_, hostRegister_of_built hlen hg hbuild, findSegment_insert_same (registered_eq_false.mp hg),
    fun h hne => findSegment_insert_other hne, fun o ho => byteAt_withSegment_same hwf hown hg ho,
    fun h hne o ho => byteAt_withSegment_other hlen hne ho, rfl⟩

/-! ### The context invariant through the host's operations -/

/-- Bytes stored from an offset of a registered segment on, all of them within it, belong to that segment. -/
theorem bytesOwned_of_putBytes {g : Word} {o : Nat} {bytes : List Byte} (ho : o + bytes.length ≤ 65536)
    (hmem : t.mem = putBytes (cellKey g o) bytes s.mem) (hg : registered t g = true)
    (hkept : ∀ h, registered s h = true → registered t h = true) (hown : bytesOwned s = true) : bytesOwned t = true := by
  refine bytesOwned_iff.mpr fun c hc => ?_
  obtain hc | ⟨hlow, hhigh⟩ := mem_putBytes (hmem ▸ hc)
  · obtain ⟨hlt, hreg⟩ := bytesOwned_iff.mp hown c hc
    exact ⟨hlt, hkept _ hreg⟩
  · have hkey : c.1 = cellKey g (c.1 - cellKey g 0) := by simp only [cellKey] at hlow ⊢; omega
    have hoff : c.1 - cellKey g 0 < 65536 := by simp only [cellKey] at hlow hhigh ⊢; omega
    rw [hkey, ordinal_of_cellKey g hoff]
    exact ⟨cellKey_lt g hoff, hg⟩

theorem contextInv_putRange {g : Word} {o : Nat} {bytes : List Byte} (hb : inBounds s g o bytes.length = true)
    (h : contextInv s = true) : contextInv { s with mem := putBytes (cellKey g o) bytes s.mem } = true := by
  obtain ⟨hg, ho⟩ := inBounds_eq.mp hb
  obtain ⟨hwf, hown, hrest⟩ := contextInv_iff.mp h
  exact contextInv_iff.mpr ⟨wf_putBytes hwf _ _, bytesOwned_of_putBytes (s := s) ho rfl hg (fun _ => id) hown, hrest⟩

theorem registered_withSegment {seg : Segment} {data : List Byte} (hg : registered s seg.ordinal = false) {h : Word} :
    registered (withSegment seg data s) h = true ↔ h = seg.ordinal ∨ registered s h = true := by
  by_cases hh : h = seg.ordinal
  · subst hh
    simp [registered, withSegment, findSegment_insert_same (registered_eq_false.mp hg)]
  · simp [registered, withSegment, findSegment_insert_other hh, hh]

theorem contextInv_withSegment {seg : Segment} {data : List Byte} (hlen : data.length ≤ 65536)
    (hg : registered s seg.ordinal = false) (hdata : seg.isCode = false → seg.index = []) (h : contextInv s = true) :
    contextInv (withSegment seg data s) = true := by
  obtain ⟨hwf, hown, hsorted, hdecoded, harena⟩ := contextInv_iff.mp h
  refine contextInv_iff.mpr ⟨wf_putBytes hwf _ _, ?_, storeSorted_insert hsorted (registered_eq_false.mp hg), ?_, harena⟩
  · exact bytesOwned_of_putBytes (s := s) (g := seg.ordinal) (o := 0) (by omega) rfl
      ((registered_withSegment hg).mpr (.inl rfl)) (fun _ hh => (registered_withSegment hg).mpr (.inr hh)) hown
  · refine List.all_eq_true.mpr fun x hx => ?_
    obtain rfl | hx := mem_insertSegment.mp hx
    · cases hcode : x.isCode with
      | true => rfl
      | false => simp [hdata hcode]
    · exact List.all_eq_true.mp hdecoded x hx

theorem contextInv_hostRegister {g : Word} {data : List Byte} {isCode : Bool} {relocs : List Reloc} {u : Unit}
    (hreg : hostRegister g data isCode relocs s = .ok u t) (h : contextInv s = true) : contextInv t = true := by
  obtain ⟨hlen, hg, index, hbuild, rfl⟩ := hostRegister_ok hreg
  refine contextInv_withSegment hlen hg (fun hcode => ?_) h
  subst hcode
  cases hbuild
  rfl

theorem hostPut_ok {x : Except Fault State} {u : Unit} : hostPut x = .ok u t ↔ x = .ok t := by
  cases x <;> simp [hostPut]

theorem hostAllocate_ok {size c : Nat} (h : hostAllocate size s = .ok c t) :
    s.arena + size ≤ 65536 ∧ c = s.arena ∧ t = { s with arena := s.arena + size } := by
  unfold hostAllocate at h
  split at h
  · cases h; exact ⟨‹_›, rfl, rfl⟩
  · cases h

theorem contextInv_hostAllocate {size c : Nat} (ha : hostAllocate size s = .ok c t) (h : contextInv s = true) :
    contextInv t = true := by
  obtain ⟨hsize, -, rfl⟩ := hostAllocate_ok ha
  obtain ⟨hwf, hown, hsorted, hdecoded, -⟩ := contextInv_iff.mp h
  exact contextInv_iff.mpr ⟨hwf, hown, hsorted, hdecoded, hsize⟩

theorem contextInv_takeFault (k : Fault) (h : contextInv s = true) : contextInv (takeFault k s) = true :=
  (contextInv_congr rfl rfl rfl).trans (contextInv_applyHostWrites (Config.faultResidue s k) h)

/-- The host's Step leaves the state of a completed step, the state a fault is taken in, or the state it started from. -/
theorem hostStep_cases (s : State) :
    (∃ t, step s = .next t ∧ (hostStep s).2 = t) ∨ (∃ k, (hostStep s).2 = takeFault k s) ∨ (hostStep s).2 = s := by
  cases hstep : step s with
  | next t => exact .inl ⟨t, rfl, by simp only [hostStep, hstep]⟩
  | refused q => exact .inr (.inr (by simp only [hostStep, hstep]))
  | fault k =>
    by_cases hk : k = .diverges
    · subst hk; exact .inr (.inr (by simp only [hostStep, hstep]))
    · exact .inr (.inl ⟨k, by rw [hostStep_of_fault hk hstep]⟩)

theorem contextInv_hostStep (h : contextInv s = true) : contextInv (hostStep s).2 = true := by
  obtain ⟨t, hstep, ht⟩ | ⟨k, ht⟩ | ht := hostStep_cases s <;> rw [ht]
  · exact stepKeepsInvariant s t h hstep
  · exact contextInv_takeFault k h
  · exact h

/-- Settles O53, operation by operation. -/
theorem hostOperationsKeepInvariant : Obligations.HostOperationsKeepInvariant := by
  intro s t u hi
  refine ⟨fun g data isCode relocs h => contextInv_hostRegister h hi, fun g o b h => ?_, fun g o v h => ?_,
    fun g o bytes h => ?_, fun size c h => contextInv_hostAllocate h hi, contextInv_hostStep hi⟩
  · obtain ⟨hb, rfl⟩ := memWrite8_ok.mp (hostPut_ok.mp h)
    exact contextInv_putByte b hb hi
  · obtain ⟨hb, rfl⟩ := memWrite16_ok.mp (hostPut_ok.mp h)
    exact contextInv_putWord v hb hi
  · obtain ⟨hb, rfl⟩ := access_ok.mp (hostPut_ok.mp h)
    exact contextInv_putRange hb hi
end Sys2Proof.Proofs

/-!
PROOFS. The decoder and the encoder are inverse to each other on the admitted forms (R66, R69 to R76, R81 to R84).
-/

namespace Sys2Proof.Proofs

variable {ov : Option Sreg} {bs rest : List Byte} {i : Instr} {op b : Byte} {ext : BitVec 3} {rm : RmOperand} {w : Word}

/-! ### Opcodes with a ModRM operand and an immediate (R72) -/

/-- What 81 and C7 read: a ModRM operand, /digit in its reg field, and a 16-bit immediate. -/
def rmImm16Form (group : BitVec 3 → RmOperand → Word → Except DecodeError Instr) (bs : List Byte) :
    Except DecodeError (Instr × List Byte) := do
  let (ext, rm, bs) ← takeModRM bs
  let (w, bs) ← take16 bs
  let x ← group ext rm w
  .ok (x, bs)

/-- What 80, 83 and C6 read: the same with an 8-bit immediate. -/
def rmImm8Form (group : BitVec 3 → RmOperand → Byte → Except DecodeError Instr) (bs : List Byte) :
    Except DecodeError (Instr × List Byte) := do
  let (ext, rm, bs) ← takeModRM bs
  let (b, bs) ← take8 bs
  let x ← group ext rm b
  .ok (x, bs)

theorem rmImm16Form_ok {group : BitVec 3 → RmOperand → Word → Except DecodeError Instr} :
    rmImm16Form group bs = .ok (i, rest) ↔
      ∃ ext rm w, group ext rm w = .ok i ∧ bs = rmBytes ext rm ++ (le16 w ++ rest) := by
  simp only [rmImm16Form, exceptBind_ok, Prod.exists, takeModRM_ok, take16_ok, Except.ok.injEq, Prod.mk.injEq]
  constructor
  · rintro ⟨ext, rm, _, rfl, w, _, rfl, _, hx, rfl, rfl⟩; exact ⟨ext, rm, w, hx, rfl⟩
  · rintro ⟨ext, rm, w, hx, rfl⟩; exact ⟨ext, rm, _, rfl, w, _, rfl, i, hx, rfl, rfl⟩

theorem rmImm8Form_ok {group : BitVec 3 → RmOperand → Byte → Except DecodeError Instr} :
    rmImm8Form group bs = .ok (i, rest) ↔ ∃ ext rm b, group ext rm b = .ok i ∧ bs = rmBytes ext rm ++ b :: rest := by
  simp only [rmImm8Form, exceptBind_ok, Prod.exists, takeModRM_ok, take8_ok, Except.ok.injEq, Prod.mk.injEq]
  constructor
  · rintro ⟨ext, rm, _, rfl, b, _, rfl, _, hx, rfl, rfl⟩; exact ⟨ext, rm, b, hx, rfl⟩
  · rintro ⟨ext, rm, b, hx, rfl⟩; exact ⟨ext, rm, _, rfl, b, _, rfl, i, hx, rfl, rfl⟩

theorem decodeBody_80 (ov : Option Sreg) (bs : List Byte) : decodeBody ov (0x80#8 :: bs) = rmImm8Form (group80 ov) bs := rfl
theorem decodeBody_81 (ov : Option Sreg) (bs : List Byte) : decodeBody ov (0x81#8 :: bs) = rmImm16Form (group81 ov) bs := rfl
theorem decodeBody_83 (ov : Option Sreg) (bs : List Byte) : decodeBody ov (0x83#8 :: bs) = rmImm8Form (group83 ov) bs := rfl
theorem decodeBody_C6 (ov : Option Sreg) (bs : List Byte) : decodeBody ov (0xC6#8 :: bs) = rmImm8Form (groupC6 ov) bs := rfl
theorem decodeBody_C7 (ov : Option Sreg) (bs : List Byte) : decodeBody ov (0xC7#8 :: bs) = rmImm16Form (groupC7 ov) bs := rfl

/-! ### The opcodes with a form of their own -/

theorem decodeBody_8D : decodeBody ov (0x8D#8 :: bs) = .ok (i, rest) ↔
    (∃ g d, i = .leaRB8 ov g d ∧ bs = modRM 1#2 g.bits 6#3 :: d :: rest) ∨
    (∃ g d, i = .leaRB16 ov g d ∧ bs = modRM 2#2 g.bits 6#3 :: (le16 d ++ rest)) := by
  refine exceptBind_ok.trans ⟨?_, ?_⟩
  · rintro ⟨⟨reg, rm, t⟩, ht, h⟩
    obtain rfl := takeModRM_ok.mp ht
    cases rm <;> cases h
    · exact .inl ⟨_, _, rfl, by simp [rmBytes, bits_gprOfBits]⟩
    · exact .inr ⟨_, _, rfl, by simp [rmBytes, bits_gprOfBits]⟩
  · rintro (⟨g, d, rfl, rfl⟩ | ⟨g, d, rfl, rfl⟩)
    · exact ⟨(g.bits, .b8 d, rest), takeModRM_ok.mpr rfl, by simp [gprOfBits_bits]⟩
    · exact ⟨(g.bits, .b16 d, rest), takeModRM_ok.mpr rfl, by simp [gprOfBits_bits]⟩

theorem decodeBody_9A : decodeBody ov (0x9A#8 :: bs) = .ok (i, rest) ↔
    ov = none ∧ ∃ sel, i = .callFar sel ∧ bs = le16 Config.relocSentinel ++ (le16 sel ++ rest) := by
  refine exceptBind_ok.trans ⟨?_, ?_⟩
  · rintro ⟨⟨off, t⟩, hoff, h⟩
    obtain ⟨⟨sel, t'⟩, hsel, h'⟩ := exceptBind_ok.mp h
    rw [take16_ok.mp hoff, take16_ok.mp hsel]
    dsimp only at h'
    split at h'
    · obtain ⟨hov, hi⟩ := noOverride_ok.mp h'
      cases hi
      exact ⟨hov, sel, rfl, by simp [*]⟩
    · cases h'
  · rintro ⟨rfl, sel, rfl, rfl⟩
    exact ⟨_, take16_ok.mpr rfl, exceptBind_ok.mpr ⟨_, take16_ok.mpr rfl, rfl⟩⟩

theorem decodeBody_C1 : decodeBody ov (0xC1#8 :: bs) = .ok (i, rest) ↔
    ov = none ∧ ∃ m b, i = .shlRmI8 m b ∧ bs = modRM 3#2 4#3 m.bits :: b :: rest := by
  refine exceptBind_ok.trans ⟨?_, ?_⟩
  · rintro ⟨⟨ext, rm, t⟩, ht, h⟩
    obtain ⟨⟨b, t'⟩, hb, h'⟩ := exceptBind_ok.mp h
    rw [takeModRM_ok.mp ht, take8_ok.mp hb]
    cases rm <;> dsimp only at h'
    case reg m =>
      split at h'
      · obtain ⟨hov, hi⟩ := noOverride_ok.mp h'
        cases hi
        exact ⟨hov, m, b, rfl, by simp [*, rmBytes]⟩
      · cases h'
    all_goals cases h'
  · rintro ⟨rfl, m, b, rfl, rfl⟩
    exact ⟨(4#3, .reg m, b :: rest), takeModRM_ok.mpr rfl, exceptBind_ok.mpr ⟨_, take8_ok.mpr rfl, rfl⟩⟩

theorem decodeBody_C8 : decodeBody ov (0xC8#8 :: bs) = .ok (i, rest) ↔
    ov = none ∧ ∃ w, i = .enterI16 w ∧ bs = le16 w ++ 0#8 :: rest := by
  refine exceptBind_ok.trans ⟨?_, ?_⟩
  · rintro ⟨⟨w, t⟩, hw, h⟩
    obtain ⟨⟨level, t'⟩, hl, h'⟩ := exceptBind_ok.mp h
    rw [take16_ok.mp hw, take8_ok.mp hl]
    dsimp only at h'
    split at h'
    · obtain ⟨hov, hi⟩ := noOverride_ok.mp h'
      cases hi
      exact ⟨hov, w, rfl, by simp [*]⟩
    · cases h'
  · rintro ⟨rfl, w, rfl, rfl⟩
    exact ⟨_, take16_ok.mpr rfl, exceptBind_ok.mpr ⟨_, take8_ok.mpr rfl, rfl⟩⟩

theorem decodeBody_FF : decodeBody ov (0xFF#8 :: bs) = .ok (i, rest) ↔
    ∃ ext rm, groupFF ov ext rm = .ok i ∧ bs = rmBytes ext rm ++ rest := by
  refine exceptBind_ok.trans ⟨?_, ?_⟩
  · rintro ⟨⟨ext, rm, t⟩, ht, h⟩
    obtain ⟨x, hx, h⟩ := exceptBind_ok.mp h
    cases h
    exact ⟨ext, rm, hx, takeModRM_ok.mp ht⟩
  · rintro ⟨ext, rm, hx, rfl⟩
    exact ⟨(ext, rm, rest), takeModRM_ok.mpr rfl, exceptBind_ok.mpr ⟨i, hx, rfl⟩⟩

/-- A1 and A3 (R83): an offset and no ModRM byte. -/
theorem moffs_ok {f : Word → Instr} : (do let (d, bs) ← take16 bs; .ok (f d, bs)) = Except.ok (i, rest) ↔
    ∃ d, i = f d ∧ bs = le16 d ++ rest := by
  simp only [exceptBind_ok, Prod.exists, take16_ok, Except.ok.injEq, Prod.mk.injEq]
  constructor
  · rintro ⟨d, _, rfl, rfl, rfl⟩; exact ⟨d, rfl, rfl⟩
  · rintro ⟨d, rfl, rfl⟩; exact ⟨d, rest, rfl, rfl, rfl⟩

/-! ### What the decoder accepts is an encoding -/

/-- The bytes `bs` after the override `ov` are an admitted instruction's encoding with `rest` after it. -/
def Reads (ov : Option Sreg) (bs : List Byte) (i : Instr) (rest : List Byte) : Prop :=
  ovBytes ov ++ bs = encode i ++ rest ∧ i.wellFormed = true

theorem eq_ofNat_of_toNat {n k : Nat} {x : BitVec n} (h : x.toNat = k) : x = BitVec.ofNat n k := by
  rw [← h, BitVec.ofNat_toNat, BitVec.setWidth_eq]

/-- The groups that admit one /digit on memory only. -/
theorem group80_groupC6_reads (rest : List Byte) :
    (group80 ov ext rm b = .ok i → Reads ov (0x80#8 :: (rmBytes ext rm ++ b :: rest)) i rest) ∧
    (groupC6 ov ext rm b = .ok i → Reads ov (0xC6#8 :: (rmBytes ext rm ++ b :: rest)) i rest) := by
  refine ⟨fun h => ?_, fun h => ?_⟩ <;> dsimp only [group80, groupC6] at h <;> split at h
  case refine_1.isTrue | refine_2.isTrue =>
    subst ext
    cases rm <;> cases h <;> exact ⟨by cases ov <;> rfl, rfl⟩
  all_goals cases h

/-- The groups that admit four /digits on a register, and /7 on memory. -/
theorem group81_group83_reads (rest : List Byte) :
    (∀ w, group81 ov ext rm w = .ok i → Reads ov (0x81#8 :: (rmBytes ext rm ++ (le16 w ++ rest))) i rest) ∧
    (∀ b, group83 ov ext rm b = .ok i → Reads ov (0x83#8 :: (rmBytes ext rm ++ b :: rest)) i rest) := by
  refine ⟨fun w h => ?_, fun b h => ?_⟩ <;> cases rm <;> dsimp only [group81, group83] at h
  case refine_1.reg m | refine_2.reg m =>
    obtain ⟨rfl, h'⟩ := noOverride_ok.mp h
    split at h' <;> cases h'
    all_goals
      obtain rfl := eq_ofNat_of_toNat ‹ext.toNat = _›
      exact ⟨rfl, rfl⟩
  all_goals
    split at h <;> cases h
    subst ext
    exact ⟨by cases ov <;> rfl, rfl⟩

theorem groupC7_reads (h : groupC7 ov ext rm w = .ok i) (rest : List Byte) :
    Reads ov (0xC7#8 :: (rmBytes ext rm ++ (le16 w ++ rest))) i rest := by
  unfold groupC7 at h
  split at h
  · subst ext
    cases rm <;> dsimp only at h
    case reg m =>
      obtain ⟨rfl, h'⟩ := noOverride_ok.mp h
      cases h'
      exact ⟨rfl, rfl⟩
    all_goals
      cases h
      exact ⟨by cases ov <;> rfl, rfl⟩
  · cases h

theorem groupFF_reads (h : groupFF ov ext rm = .ok i) (rest : List Byte) :
    Reads ov (0xFF#8 :: (rmBytes ext rm ++ rest)) i rest := by
  unfold groupFF at h
  split at h
  case h_1 hext | h_3 hext =>
    obtain ⟨rfl, h'⟩ := noOverride_ok.mp h
    obtain rfl := eq_ofNat_of_toNat hext
    cases h'
    exact ⟨rfl, rfl⟩
  case h_4 hext | h_5 hext | h_6 hext =>
    obtain rfl := eq_ofNat_of_toNat hext
    cases h
    exact ⟨by cases ov <;> rfl, rfl⟩
  all_goals cases h

theorem decode0F_reads (h : decode0F ov bs = .ok (i, rest)) : Reads ov (0x0F#8 :: bs) i rest := by
  unfold decode0F at h
  split at h
  · cases h
  · split at h
    case h_7 => cases h
    all_goals
      obtain ⟨rfl, w, rfl, rfl⟩ := wordForm_ok.mp h
      obtain rfl := eq_ofNat_of_toNat ‹BitVec.toNat _ = _›
      exact ⟨rfl, rfl⟩

theorem decodeOpReg_reads (h : decodeOpReg ov op bs = .ok (i, rest)) : Reads ov (op :: bs) i rest := by
  have hop := opReg_fields op
  unfold decodeOpReg at h
  generalize gprOfBits (op.extractLsb' 0 3) = r at h hop
  generalize (op.extractLsb' 3 5 : BitVec 5) = o at h hop
  subst hop
  dsimp only at h
  split at h
  case h_4 ho =>
    obtain ⟨rfl, w, rfl, rfl⟩ := wordForm_ok.mp h
    obtain rfl := eq_ofNat_of_toNat ho
    exact ⟨rfl, rfl⟩
  case h_5 => cases h
  case h_1 ho | h_2 ho | h_3 ho =>
    obtain ⟨rfl, h'⟩ := noOverride_ok.mp h
    obtain rfl := eq_ofNat_of_toNat ho
    cases h'
    exact ⟨rfl, rfl⟩

/-- The opcode map accepts encodings only. -/
theorem decodeBody_reads (h : decodeBody ov (op :: bs) = .ok (i, rest)) : Reads ov (op :: bs) i rest := by
  have hbody := h
  rw [decodeBody] at h
  split at h
  case h_63 => exact decodeOpReg_reads h
  all_goals obtain rfl := eq_ofNat_of_toNat ‹op.toNat = _›
  -- `/r` on registers: 01, 03, 09, 31
  case h_1 | h_2 | h_6 | h_15 =>
    obtain ⟨rfl, g, m, rfl, rfl⟩ := regForm_ok.mp h
    exact ⟨rfl, rfl⟩
  -- `/r` on a register or memory: 0B, 33, 39, 3B, 89, 8B
  case h_7 | h_16 | h_18 | h_19 | h_32 | h_33 =>
    obtain ⟨rfl, g, m, rfl, rfl⟩ | ⟨g, d, rfl, rfl⟩ | ⟨g, d, rfl, rfl⟩ | ⟨g, d, rfl, rfl⟩ := regMemForm_ok.mp h
    · exact ⟨rfl, rfl⟩
    all_goals exact ⟨by cases ov <;> rfl, rfl⟩
  -- a segment register in the reg field: 8C, 8E
  case h_34 | h_36 =>
    obtain ⟨s, hs, ⟨rfl, m, rfl, rfl⟩ | ⟨d, rfl, rfl⟩ | ⟨d, rfl, rfl⟩ | ⟨d, rfl, rfl⟩⟩ := sregForm_ok.mp h
    · exact ⟨rfl, hs⟩
    all_goals exact ⟨by cases ov <;> rfl, hs⟩
  -- a 16-bit field: 05, 0D, 35, 3D, 68, E8, E9
  case h_3 | h_8 | h_17 | h_20 | h_21 | h_48 | h_49 =>
    obtain ⟨rfl, w, rfl, rfl⟩ := wordForm_ok.mp h
    exact ⟨rfl, rfl⟩
  -- an 8-bit field: 6A, 74, 75, 76, 7C, 7D, 7E, EB
  case h_22 | h_23 | h_24 | h_25 | h_26 | h_27 | h_28 | h_50 =>
    obtain ⟨rfl, b, rfl, rfl⟩ := byteForm_ok.mp h
    exact ⟨rfl, rfl⟩
  -- an opcode alone: 06, 07, 0E, 16, 17, 1E, 1F, AB, C9
  case h_4 | h_5 | h_9 | h_11 | h_12 | h_13 | h_14 | h_41 | h_46 =>
    obtain ⟨rfl, hi⟩ := noOverride_ok.mp h
    cases hi
    exact ⟨rfl, rfl⟩
  -- `/digit` on a register: 8F, D1
  case h_37 | h_47 =>
    obtain ⟨rfl, m, rfl, rfl⟩ := regDigit_ok.mp h
    exact ⟨rfl, rfl⟩
  -- A1, A3
  case h_39 | h_40 =>
    obtain ⟨d, rfl, rfl⟩ := moffs_ok.mp h
    exact ⟨by cases ov <;> rfl, rfl⟩
  case h_10 => exact decode0F_reads h
  case h_29 =>
    obtain ⟨ext, rm, b, hx, rfl⟩ := rmImm8Form_ok.mp (decodeBody_80 ov bs ▸ hbody)
    exact (group80_groupC6_reads rest).1 hx
  case h_30 =>
    obtain ⟨ext, rm, w, hx, rfl⟩ := rmImm16Form_ok.mp (decodeBody_81 ov bs ▸ hbody)
    exact (group81_group83_reads rest).1 w hx
  case h_31 =>
    obtain ⟨ext, rm, b, hx, rfl⟩ := rmImm8Form_ok.mp (decodeBody_83 ov bs ▸ hbody)
    exact (group81_group83_reads rest).2 b hx
  case h_43 =>
    obtain ⟨ext, rm, b, hx, rfl⟩ := rmImm8Form_ok.mp (decodeBody_C6 ov bs ▸ hbody)
    exact (group80_groupC6_reads rest).2 hx
  case h_44 =>
    obtain ⟨ext, rm, w, hx, rfl⟩ := rmImm16Form_ok.mp (decodeBody_C7 ov bs ▸ hbody)
    exact groupC7_reads hx rest
  case h_51 =>
    obtain ⟨ext, rm, hx, rfl⟩ := decodeBody_FF.mp hbody
    exact groupFF_reads hx rest
  case h_35 =>
    obtain ⟨g, d, rfl, rfl⟩ | ⟨g, d, rfl, rfl⟩ := decodeBody_8D.mp hbody <;>
      exact ⟨by cases ov <;> rfl, rfl⟩
  case h_38 =>
    obtain ⟨rfl, sel, rfl, rfl⟩ := decodeBody_9A.mp hbody
    exact ⟨rfl, rfl⟩
  case h_42 =>
    obtain ⟨rfl, m, b, rfl, rfl⟩ := decodeBody_C1.mp hbody
    exact ⟨rfl, rfl⟩
  case h_45 =>
    obtain ⟨rfl, w, rfl, rfl⟩ := decodeBody_C8.mp hbody
    exact ⟨rfl, rfl⟩
  -- the prefixes
  all_goals cases h

theorem decodeRep_ok {x : Instr} : decodeRep x bs = .ok (i, rest) ↔ i = x ∧ bs = 0xAB#8 :: rest := by
  unfold decodeRep
  split
  · simp
  · split
    · simp [*, eq_comm]
    · simp [*]

/-- Settles O2: an override, REP or REPNE is taken off first, and the opcode map accepts encodings only. -/
theorem decodeAcceptsOnlyEncodings : Obligations.DecodeAcceptsOnlyEncodings := by
  intro bs i rest h
  cases bs with
  | nil => cases h
  | cons b bs =>
    dsimp only [decode] at h
    split at h
    · rename_i s hs
      rw [segOverride_some hs]
      cases bs with
      | nil => cases h
      | cons op bs => exact decodeBody_reads h
    · split at h
      · subst b
        obtain ⟨rfl, rfl⟩ := decodeRep_ok.mp h
        exact ⟨rfl, rfl⟩
      · split at h
        · subst b
          obtain ⟨rfl, rfl⟩ := decodeRep_ok.mp h
          exact ⟨rfl, rfl⟩
        · exact decodeBody_reads h

/-! ### An encoding is decoded to its instruction -/

theorem ordinary_no_prefix : ∀ {op : Byte}, ordinary op = true → segOverride op = none ∧ op ≠ 0xF3#8 ∧ op ≠ 0xF2#8 := by
  decide

/-- An override is taken off before the opcode map is asked. -/
theorem decode_ovBytes (hop : ordinary op = true) : decode (ovBytes ov ++ op :: bs) = decodeBody ov (op :: bs) := by
  obtain ⟨hov, hrep, hrepne⟩ := ordinary_no_prefix hop
  cases ov with
  | none => simp only [ovBytes, List.nil_append, decode, hov, if_neg hrep, if_neg hrepne]
  | some s => simp only [ovBytes, List.cons_append, List.nil_append, decode, segOverride_overrideByte]

/-- Settles O1: each form is read from its encoding by the reader of its opcode. -/
theorem decodeOfEncode : Obligations.DecodeOfEncode := by
  intro i rest hw
  cases i <;> simp only [encode, List.append_assoc, List.cons_append, List.nil_append]
  case addRmR g m | addRRm g m | xorRmR g m | orRmR g m => exact regForm_ok.mpr ⟨rfl, g, m, rfl, rfl⟩
  case cmpRmR g m | cmpRRm g m | xorRRm g m | orRRm g m | movRmR g m | movRRm g m =>
    exact regMemForm_ok.mpr (.inl ⟨rfl, g, m, rfl, rfl⟩)
  case cmpD16R ov g d | cmpRD16 ov g d | xorRD16 ov g d | orRD16 ov g d | movD16R ov g d | movRD16 ov g d =>
    exact (decode_ovBytes rfl).trans (regMemForm_ok.mpr (.inr (.inl ⟨g, d, rfl, rfl⟩)))
  case cmpB8R ov g d | cmpRB8 ov g d | xorRB8 ov g d | orRB8 ov g d | movB8R ov g d | movRB8 ov g d =>
    exact (decode_ovBytes rfl).trans (regMemForm_ok.mpr (.inr (.inr (.inl ⟨g, d, rfl, rfl⟩))))
  case cmpB16R ov g d | cmpRB16 ov g d | xorRB16 ov g d | orRB16 ov g d | movB16R ov g d | movRB16 ov g d =>
    exact (decode_ovBytes rfl).trans (regMemForm_ok.mpr (.inr (.inr (.inr ⟨g, d, rfl, rfl⟩))))
  case movRmS s m | movSRm s m => exact sregForm_ok.mpr ⟨s, hw, .inl ⟨rfl, m, rfl, rfl⟩⟩
  case movD16S ov s d | movSD16 ov s d =>
    exact (decode_ovBytes rfl).trans (sregForm_ok.mpr ⟨s, hw, .inr (.inl ⟨d, rfl, rfl⟩)⟩)
  case movB8S ov s d | movSB8 ov s d =>
    exact (decode_ovBytes rfl).trans (sregForm_ok.mpr ⟨s, hw, .inr (.inr (.inl ⟨d, rfl, rfl⟩))⟩)
  case movB16S ov s d | movSB16 ov s d =>
    exact (decode_ovBytes rfl).trans (sregForm_ok.mpr ⟨s, hw, .inr (.inr (.inr ⟨d, rfl, rfl⟩))⟩)
  case addRmI16 m w | cmpRmI16 m w | xorRmI16 m w | orRmI16 m w | movRmI16 m w =>
    exact rmImm16Form_ok.mpr ⟨_, .reg m, w, rfl, rfl⟩
  case cmpD16I16 ov d w | movD16I16 ov d w =>
    exact (decode_ovBytes rfl).trans (rmImm16Form_ok.mpr ⟨_, .d16 d, w, rfl, rfl⟩)
  case cmpB8I16 ov d w | movB8I16 ov d w =>
    exact (decode_ovBytes rfl).trans (rmImm16Form_ok.mpr ⟨_, .b8 d, w, rfl, rfl⟩)
  case cmpB16I16 ov d w | movB16I16 ov d w =>
    exact (decode_ovBytes rfl).trans (rmImm16Form_ok.mpr ⟨_, .b16 d, w, rfl, rfl⟩)
  case addRmI8 m b | cmpRmI8 m b | xorRmI8 m b | orRmI8 m b => exact rmImm8Form_ok.mpr ⟨_, .reg m, b, rfl, rfl⟩
  case cmpD16I8 ov d b | cmpByteD16I8 ov d b | movByteD16I8 ov d b =>
    exact (decode_ovBytes rfl).trans (rmImm8Form_ok.mpr ⟨_, .d16 d, b, rfl, rfl⟩)
  case cmpB8I8 ov d b | cmpByteB8I8 ov d b | movByteB8I8 ov d b =>
    exact (decode_ovBytes rfl).trans (rmImm8Form_ok.mpr ⟨_, .b8 d, b, rfl, rfl⟩)
  case cmpB16I8 ov d b | cmpByteB16I8 ov d b | movByteB16I8 ov d b =>
    exact (decode_ovBytes rfl).trans (rmImm8Form_ok.mpr ⟨_, .b16 d, b, rfl, rfl⟩)
  case incRm m | pushRm m => exact decodeBody_FF.mpr ⟨_, .reg m, rfl, rfl⟩
  case pushD16 ov d => exact (decode_ovBytes rfl).trans (decodeBody_FF.mpr ⟨6#3, .d16 d, rfl, rfl⟩)
  case pushB8 ov d => exact (decode_ovBytes rfl).trans (decodeBody_FF.mpr ⟨6#3, .b8 d, rfl, rfl⟩)
  case pushB16 ov d => exact (decode_ovBytes rfl).trans (decodeBody_FF.mpr ⟨6#3, .b16 d, rfl, rfl⟩)
  case popRm m | shlRm1 m => exact regDigit_ok.mpr ⟨rfl, m, rfl, rfl⟩
  case shlRmI8 m b => exact decodeBody_C1.mpr ⟨rfl, m, b, rfl, rfl⟩
  case leaRB8 ov g d => exact (decode_ovBytes rfl).trans (decodeBody_8D.mpr (.inl ⟨g, d, rfl, rfl⟩))
  case leaRB16 ov g d => exact (decode_ovBytes rfl).trans (decodeBody_8D.mpr (.inr ⟨g, d, rfl, rfl⟩))
  case movAxMoffs ov d | movMoffsAx ov d => exact (decode_ovBytes rfl).trans (moffs_ok.mpr ⟨d, rfl, rfl⟩)
  case enterI16 w => exact decodeBody_C8.mpr ⟨rfl, w, rfl, rfl⟩
  case callFar sel => exact decodeBody_9A.mpr ⟨rfl, sel, rfl, rfl⟩
  case addAxI16 w | cmpAxI16 w | xorAxI16 w | orAxI16 w | pushI16 w | jmpRel16 w | callRel16 w | jeRel16 w | jneRel16 w |
      jlRel16 w | jgeRel16 w | jleRel16 w | jbeRel16 w =>
    exact wordForm_ok.mpr ⟨rfl, w, rfl, rfl⟩
  case pushI8 b | jeRel8 b | jneRel8 b | jlRel8 b | jgeRel8 b | jleRel8 b | jbeRel8 b | jmpRel8 b =>
    exact byteForm_ok.mpr ⟨rfl, b, rfl, rfl⟩
  case movRI16 r w => cases r <;> exact wordForm_ok.mpr ⟨rfl, w, rfl, rfl⟩
  case incR r | pushR r | popR r => cases r <;> rfl
  case repStosw | repneStosw => exact decodeRep_ok.mpr ⟨rfl, rfl⟩
  -- the opcodes with no operand bytes
  all_goals rfl

end Sys2Proof.Proofs

/-!
PROOFS. `Decode` outside the admitted forms (R66, R69, R70, R84), the registration sweep (R67), and that registered code is
fetched as the instruction its bytes encode (R67, R91).
-/

namespace Sys2Proof.Proofs

open Sys2Proof.Machine Sys2Proof.Safety

variable {tail : Config.TailPolicy} {bs : List Byte} {d : Decoded}

/-- Settles O3: each word is the encoding of its instruction. -/
theorem tableWordsDecode : Obligations.TableWordsDecode :=
  ⟨decodeOfEncode (.addRmR .cx .bx) [] rfl, decodeOfEncode (.cmpByteB8I8 none 0xFF#8 0x80#8) [] rfl,
    decodeOfEncode (.pushB8 none 0x04#8) [] rfl, decodeOfEncode (.movRD16 (some .ss) .ax 0x0200#16) [] rfl,
    decodeOfEncode (.movSRm .ds .ax) [] rfl, decodeOfEncode (.enterI16 4#16) [] rfl,
    decodeOfEncode (.jbeRel16 0x0100#16) [] rfl, decodeOfEncode (.callFar 0x1234#16) [] rfl⟩

/-! ### The entries that Decode gives lie within the buffer (R65, R66) -/

theorem length_ovBytes_le (ov : Option Sreg) : (ovBytes ov).length ≤ 1 := by cases ov <;> simp [ovBytes]

theorem length_bounds (i : Instr) : 1 ≤ i.length ∧ i.length ≤ 15 := by
  unfold Instr.length
  cases i <;> simp only [encode, le16, List.length_append, List.length_cons, List.length_nil] <;> grind [length_ovBytes_le]

theorem decodeAt_encode {i : Instr} (hw : i.wellFormed = true) (rest : List Byte) :
    decodeAt tail (encode i ++ rest) = some (.instr i) := by
  rw [decodeAt, decodeOfEncode i rest hw]

theorem decodeForeign_fits (hbs : bs ≠ []) (h : decodeForeign tail bs = some d) :
    1 ≤ d.length ∧ d.length ≤ 15 ∧ d.length ≤ bs.length := by
  have hlen : 1 ≤ bs.length := List.length_pos_iff.mpr hbs
  unfold decodeForeign at h
  split at h
  · rename_i n hn
    exact decodeOther_fits h (by have := lt_of_x86Length_known hn; omega) hlen
  · rename_i n hn
    split at h
    · cases h
    · exact decodeOther_fits h (by have := lt_of_x86Length_unsettled (.inl hn); omega) hlen
  · rename_i n hn
    split at h
    · cases h
    · exact decodeOther_fits h (by have := lt_of_x86Length_unsettled (.inr hn); omega) hlen

theorem decodeAt_fits (hbs : bs ≠ []) (h : decodeAt tail bs = some d) :
    1 ≤ d.length ∧ d.length ≤ 15 ∧ d.length ≤ bs.length := by
  unfold decodeAt at h
  split at h
  · rename_i i rest hi
    cases h
    obtain ⟨rfl, -⟩ := decodeAcceptsOnlyEncodings bs i rest hi
    obtain ⟨hlo, hhi⟩ := length_bounds i
    exact ⟨hlo, hhi, by simp [Decoded.length, Instr.length]⟩
  · exact decodeForeign_fits hbs h

/-! ### Refused prefixes (R69, R70) -/

/-- The prefixes of R69. -/
def prefixBytes : List Byte :=
  [0x26#8, 0x2E#8, 0x36#8, 0x3E#8, 0x64#8, 0x65#8, 0xF0#8, 0xF2#8, 0xF3#8, 0x66#8, 0x67#8]

theorem decodeBody_of_prefix {ov : Option Sreg} {b : Byte} (hb : b ∈ prefixBytes) (bs : List Byte) :
    decodeBody ov (b :: bs) = .error .refusedPrefix := by
  simp only [prefixBytes, List.mem_cons, List.not_mem_nil, or_false] at hb
  rcases hb with rfl | rfl | rfl | rfl | rfl | rfl | rfl | rfl | rfl | rfl | rfl <;> rfl

/-- Of the prefixes an admitted form takes an override, or REP or REPNE before STOSW. -/
theorem decode_prefix_cons {b : Byte} {j : Instr} {more : List Byte} (hb : b ∈ prefixBytes)
    (h : decode (b :: bs) = .ok (j, more)) :
    b ∉ [0x66#8, 0x67#8] ∧ ((∃ s, decodeBody (some s) bs = .ok (j, more)) ∨ bs = 0xAB#8 :: more) := by
  simp only [prefixBytes, List.mem_cons, List.not_mem_nil, or_false] at hb
  rcases hb with rfl | rfl | rfl | rfl | rfl | rfl | rfl | rfl | rfl | rfl | rfl
  -- the four overrides
  iterate 4 exact ⟨by decide, .inl ⟨_, h⟩⟩
  -- 64, 65 and F0
  iterate 3 cases h
  -- F2 and F3
  iterate 2 exact ⟨by decide, .inr (decodeRep_ok.mp h).2⟩
  -- 66 and 67
  iterate 2 cases h

theorem decode_two_prefixes {b c : Byte} (hb : b ∈ prefixBytes) (hc : c ∈ prefixBytes) (bs : List Byte) (j : Instr)
    (more : List Byte) : decode (b :: c :: bs) ≠ .ok (j, more) := by
  intro h
  obtain ⟨s, hs⟩ | hab := (decode_prefix_cons hb h).2
  · rw [decodeBody_of_prefix hc] at hs; cases hs
  · cases hab; exact absurd hc (by decide)

theorem decode_of_size_prefix {ps : List Byte} (hps : ∀ b ∈ ps, b ∈ prefixBytes) (hsize : 0x66#8 ∈ ps ∨ 0x67#8 ∈ ps)
    (bs : List Byte) (j : Instr) (more : List Byte) : decode (ps ++ bs) ≠ .ok (j, more) := by
  match ps with
  | [] => simp at hsize
  | [b] =>
    intro h
    have hb := (decode_prefix_cons (hps b (by simp)) h).1
    exact hb (by simpa [eq_comm] using hsize)
  | b :: c :: ps => exact decode_two_prefixes (hps b (by simp)) (hps c (by simp)) (ps ++ bs) j more

/-- Of the 0F opcodes the map has the six near conditional jumps. -/
theorem decode0F_op {ov : Option Sreg} {op : Byte} {j : Instr} {more : List Byte}
    (h : decode0F ov (op :: bs) = .ok (j, more)) : op ∈ [0x84#8, 0x85#8, 0x86#8, 0x8C#8, 0x8D#8, 0x8E#8] := by
  dsimp only [decode0F] at h
  split at h
  case h_7 => cases h
  all_goals
    obtain rfl := eq_ofNat_of_toNat ‹op.toNat = _›
    decide

theorem decode_of_0F {ps : List Byte} (hps : ∀ b ∈ ps, b ∈ prefixBytes) {op : Byte}
    (hop : op ∉ [0x84#8, 0x85#8, 0x86#8, 0x8C#8, 0x8D#8, 0x8E#8]) (bs : List Byte) (j : Instr) (more : List Byte) :
    decode (ps ++ 0x0F#8 :: op :: bs) ≠ .ok (j, more) := by
  intro h
  match ps with
  | [] => exact hop (decode0F_op (ov := none) h)
  | [b] =>
    obtain ⟨s, hs⟩ | hab := (decode_prefix_cons (hps b (by simp)) h).2
    · exact hop (decode0F_op (ov := some s) hs)
    · cases hab
  | b :: c :: ps => exact decode_two_prefixes (hps b (by simp)) (hps c (by simp)) _ j more h

/-- A cut encoding is no encoding: the whole would be read in two ways. -/
theorem decode_take_encode {i : Instr} (hw : i.wellFormed = true) {k : Nat} (hk : k < i.length) (j : Instr)
    (more : List Byte) : decode ((encode i).take k) ≠ .ok (j, more) := by
  intro h
  obtain ⟨he, hj⟩ := decodeAcceptsOnlyEncodings _ j more h
  have hwhole : encode i ++ [] = encode j ++ (more ++ (encode i).drop k) := by
    rw [List.append_nil, ← List.append_assoc, ← he, List.take_append_drop]
  have hread := decodeOfEncode i [] hw
  rw [hwhole, decodeOfEncode j _ hj] at hread
  simp only [Except.ok.injEq, Prod.mk.injEq, List.append_eq_nil_iff, List.drop_eq_nil_iff] at hread
  exact absurd hk (Nat.not_lt_of_ge hread.2.2)

/-! ### Lengths outside the admitted forms (R66) -/

theorem decodeOther_of_fits {n rest : Nat} (hn : n ≤ 15) (hrest : n ≤ rest) : decodeOther tail n rest = some (.other n) := by
  rw [decodeOther, if_neg (show ¬maxLength < n from Nat.not_lt_of_ge hn), if_pos hrest]

/-- What x86 knows of an admitted form after prefixes. -/
theorem x86Length_prefixed_encode {ps : List Byte} (hps : ∀ b ∈ ps, b ∈ prefixBytes) (i : Instr) (rest : List Byte) :
    ∃ n, x86Length {} 0 (ps ++ encode i ++ rest) = .known n ∧ ps.length < n ∧ n ≤ ps.length + i.length + 4 ∧
      ((∀ b ∈ ps, b ∈ [0x26#8, 0x2E#8, 0x36#8, 0x3E#8, 0x64#8, 0x65#8, 0xF0#8, 0xF2#8, 0xF3#8]) →
        n = ps.length + i.length) := by
  obtain ⟨q, hq, hsizes⟩ := x86Length_prefixes ps hps {} 0 (encode i ++ rest)
  obtain ⟨n, hn, hlo, hhi, heq⟩ := knownForm_encode i q ps.length rest
  rw [List.append_assoc, hq, Nat.zero_add]
  exact ⟨n, hn, hlo, hhi, fun h => heq (hsizes h).1 (hsizes h).2⟩

theorem decodeAt_prefixed {ps : List Byte} {i : Instr} {rest : List Byte}
    (hps : ∀ b ∈ ps, b ∈ [0x26#8, 0x2E#8, 0x36#8, 0x3E#8, 0x64#8, 0x65#8, 0xF0#8, 0xF2#8, 0xF3#8])
    (hlen : ps.length + i.length ≤ 15) (hd : ∀ j more, decode (ps ++ encode i ++ rest) ≠ .ok (j, more)) :
    decodeAt tail (ps ++ encode i ++ rest) = some (.other (ps.length + i.length)) := by
  have hps' : ∀ b ∈ ps, b ∈ prefixBytes := fun b hb => List.mem_append_left [0x66#8, 0x67#8] (hps b hb)
  obtain ⟨n, hn, -, -, heq⟩ := x86Length_prefixed_encode hps' i rest
  obtain rfl := heq hps
  rw [decodeAt_of_known hn hd]
  exact decodeOther_of_fits hlen (by simp [Instr.length])

theorem decodeAt_size_prefixed {ps : List Byte} {i : Instr} {rest : List Byte} (hps : ∀ b ∈ ps, b ∈ prefixBytes)
    (hsize : 0x66#8 ∈ ps ∨ 0x67#8 ∈ ps) (hlen : ps.length + i.length ≤ 11) (hrest : 15 ≤ ps.length + i.length + rest.length) :
    ∃ n, ps.length < n ∧ decodeAt tail (ps ++ encode i ++ rest) = some (.other n) := by
  obtain ⟨n, hn, hlo, hhi, -⟩ := x86Length_prefixed_encode hps i rest
  have hd : ∀ j more, decode (ps ++ encode i ++ rest) ≠ .ok (j, more) := by
    rw [List.append_assoc]; exact decode_of_size_prefix hps hsize _
  refine ⟨n, hlo, ?_⟩
  rw [decodeAt_of_known hn hd]
  refine decodeOther_of_fits (by omega) ?_
  simp only [List.length_append, Instr.length] at hhi hrest hlen ⊢
  omega

/-- A 0F opcode that x86 does not assign: its length is left open, and is at most 15. -/
theorem decodeAt_of_unassigned {n : Nat} (hx : x86Length {} 0 bs = .unassigned n) (hn : n ≤ 15)
    (hd : ∀ j more, decode bs ≠ .ok (j, more)) : ∃ m, n ≤ m ∧ m ≤ 15 ∧ decodeAt tail bs = decodeOther tail m bs.length := by
  refine ⟨n + Config.unassignedLength (bs.take maxLength) % (maxLength + 1 - n), Nat.le_add_right .., ?_, ?_⟩
  · have := Nat.mod_lt (Config.unassignedLength (bs.take maxLength)) (show 0 < maxLength + 1 - n by rw [maxLength]; omega)
    rw [maxLength] at this ⊢
    omega
  · unfold decodeAt
    split
    · exact absurd ‹_› (hd _ _)
    · rw [decodeForeign, hx]
      exact if_neg (Nat.not_lt_of_ge hn)

theorem x86Length_0F (p : Prefixes) (before : Nat) (op : Byte) (bs : List Byte) :
    x86Length p before (0x0F#8 :: op :: bs) = twoByteLength (before + 2) p op bs := rfl

theorem decodeAt_0F {ps : List Byte} {op : Byte} {rest : List Byte} (hps : ∀ b ∈ ps, b ∈ prefixBytes)
    (hop : op ∉ [0x84#8, 0x85#8, 0x86#8, 0x8C#8, 0x8D#8, 0x8E#8]) (hlen : ps.length ≤ 5) (hrest : 13 ≤ rest.length) :
    ∃ n, ps.length + 2 ≤ n ∧ decodeAt tail (ps ++ 0x0F#8 :: op :: rest) = some (.other n) := by
  have hd := decode_of_0F hps hop rest
  obtain ⟨q, hq, -⟩ := x86Length_prefixes ps hps {} 0 (0x0F#8 :: op :: rest)
  rw [Nat.zero_add, x86Length_0F] at hq
  have hroom : 15 ≤ (ps ++ 0x0F#8 :: op :: rest).length := by simp only [List.length_append, List.length_cons]; omega
  obtain ⟨n, hn, hlo, hhi⟩ | hu := twoByteLength_bound (ps.length + 2) q op rest
  · exact ⟨n, hlo, by rw [decodeAt_of_known (hq.trans hn) hd]; exact decodeOther_of_fits (by omega) (by omega)⟩
  · obtain ⟨n, hlo, hhi, hn⟩ := decodeAt_of_unassigned (hq.trans hu) (by omega) hd
    exact ⟨n, hlo, by rw [hn]; exact decodeOther_of_fits hhi (by omega)⟩

theorem decodeAt_take_encode {i : Instr} {k : Nat} (hw : i.wellFormed = true) (hk : k < i.length) :
    decodeAt tail ((encode i).take k) = decodeTail tail k := by
  obtain ⟨n, hn, -, -, heq⟩ := knownForm_encode i {} 0 []
  obtain rfl := heq rfl rfl
  rw [List.append_nil] at hn
  obtain ⟨m, hm, hlo, hhi⟩ := x86Length_take hn (k := k) (by simpa [Instr.length] using hk)
  have hfit := (length_bounds i).2
  have hleft : ((encode i).take k).length = k := List.length_take_of_le (Nat.le_of_lt hk)
  rw [Instr.length] at hfit
  rw [decodeAt_of_known hm (decode_take_encode hw hk), hleft, decodeOther,
    if_neg (show ¬maxLength < m by rw [maxLength]; omega), if_neg (by omega)]

/-- Settles O4, clause by clause. -/
theorem decodeFitsAndRefusedFormsAreOther : Obligations.DecodeFitsAndRefusedFormsAreOther := by
  refine fun tail => ⟨fun bs d => decodeAt_fits, fun ps i rest _ => decodeAt_prefixed, fun ps i rest _ => decodeAt_size_prefixed,
    fun ps op rest => decodeAt_0F, fun i k hw _ hk => ?_⟩
  rw [decodeAt_take_encode hw hk]
  cases tail <;> rfl

/-! ### The registration sweep (R67) -/

/-- The bytes that the entries of an index cover. -/
def covered (index : List (Nat × Decoded)) : Nat := (index.map (fun e => e.2.length)).sum

/-- The entries are what Decode gives at their offsets, from `o` on and one after another. -/
def Chain (tail : Config.TailPolicy) (bs : List Byte) (o : Nat) (index : List (Nat × Decoded)) : Prop :=
  (∀ e ∈ index, o ≤ e.1 ∧ decodeAt tail (bs.drop (e.1 - o)) = some e.2) ∧
  ∀ k (h : k < index.length), (index[k]).1 = o + covered (index.take k)

theorem covered_cons (o : Nat) (d : Decoded) (index : List (Nat × Decoded)) :
    covered ((o, d) :: index) = d.length + covered index := rfl

theorem chain_nil (o : Nat) : Chain tail bs o [] := ⟨by simp, by simp⟩

theorem chain_cons {o : Nat} {index : List (Nat × Decoded)} (hd : decodeAt tail bs = some d)
    (h : Chain tail (bs.drop d.length) (o + d.length) index) : Chain tail bs o ((o, d) :: index) := by
  obtain ⟨hentry, hstart⟩ := h
  refine ⟨fun e he => ?_, fun k hk => ?_⟩
  · obtain rfl | he := List.mem_cons.mp he
    · exact ⟨Nat.le_refl o, by simpa using hd⟩
    · obtain ⟨hle, hat⟩ := hentry e he
      rw [List.drop_drop, show d.length + (e.1 - (o + d.length)) = e.1 - o by omega] at hat
      exact ⟨by omega, hat⟩
  · cases k with
    | zero => rfl
    | succ k =>
      rw [List.getElem_cons_succ, List.take_succ_cons, covered_cons, hstart k (by simpa using hk)]
      omega

/-- Sweeping inside an instruction goes on where the instruction ends. -/
theorem sweep_skip (bs : List Byte) (skip o : Nat) : sweep tail bs skip o = sweep tail (bs.drop skip) 0 (o + skip) := by
  induction bs generalizing skip o with
  | nil => rw [List.drop_nil]; rfl
  | cons b bs ih =>
    cases skip with
    | zero => rfl
    | succ skip => rw [sweep, ih, List.drop_succ_cons, Nat.add_right_comm, Nat.add_assoc]

theorem sweep_of_decodeAt (hbs : bs ≠ []) (o : Nat) (hd : decodeAt tail bs = some d) :
    sweep tail bs 0 o = (sweep tail (bs.drop d.length) 0 (o + d.length)).map ((o, d) :: ·) := by
  have hpos := (decodeAt_fits hbs hd).1
  cases bs with
  | nil => contradiction
  | cons b bs =>
    obtain ⟨n, hn⟩ : ∃ n, d.length = n + 1 := ⟨d.length - 1, by omega⟩
    rw [sweep, hd, hn]
    dsimp only
    rw [hn, sweep_skip, Nat.add_sub_cancel, List.drop_succ_cons, Nat.add_assoc, Nat.add_comm 1 n]
    cases sweep tail (bs.drop n) 0 (o + (n + 1)) <;> rfl

theorem sweep_of_fail (hbs : bs ≠ []) (o : Nat) (hd : decodeAt tail bs = none) : sweep tail bs 0 o = .error o := by
  cases bs with
  | nil => contradiction
  | cons b bs => rw [sweep, hd]

/-- What a sweep's result says: entries to the end, or to the first Fail. -/
def Swept (tail : Config.TailPolicy) (bs : List Byte) (o : Nat) : Except Nat (List (Nat × Decoded)) → Prop
  | .ok index => Chain tail bs o index ∧ covered index = bs.length
  | .error e => ∃ index, Chain tail bs o index ∧ o + covered index = e ∧ covered index < bs.length ∧
      decodeAt tail (bs.drop (covered index)) = none

theorem swept_cons {o : Nat} {r : Except Nat (List (Nat × Decoded))} (hbs : bs ≠ []) (hd : decodeAt tail bs = some d)
    (h : Swept tail (bs.drop d.length) (o + d.length) r) : Swept tail bs o (r.map ((o, d) :: ·)) := by
  have hlen := (decodeAt_fits hbs hd).2.2
  cases r with
  | ok index =>
    obtain ⟨hchain, hall⟩ := h
    refine ⟨chain_cons hd hchain, ?_⟩
    rw [covered_cons, hall, List.length_drop]
    omega
  | error e =>
    obtain ⟨index, hchain, hend, hin, hfail⟩ := h
    rw [List.length_drop] at hin
    refine ⟨(o, d) :: index, chain_cons hd hchain, ?_, ?_, ?_⟩ <;> rw [covered_cons]
    · omega
    · omega
    · rw [← List.drop_drop]; exact hfail

theorem sweep_swept (tail : Config.TailPolicy) (bs : List Byte) (o : Nat) : Swept tail bs o (sweep tail bs 0 o) := by
  by_cases hbs : bs = []
  · subst hbs; exact ⟨chain_nil o, rfl⟩
  · cases hd : decodeAt tail bs with
    | none =>
      rw [sweep_of_fail hbs o hd]
      exact ⟨[], chain_nil o, rfl, List.length_pos_iff.mpr hbs, hd⟩
    | some d =>
      have hpos := (decodeAt_fits hbs hd).1
      have hshort : (bs.drop d.length).length < bs.length := by
        rw [List.length_drop]; have := List.length_pos_iff.mpr hbs; omega
      rw [sweep_of_decodeAt hbs o hd]
      exact swept_cons hbs hd (sweep_swept tail (bs.drop d.length) (o + d.length))
termination_by bs.length

/-- Settles O5. -/
theorem sweepIndexesInstructionStarts : Obligations.SweepIndexesInstructionStarts := by
  intro tail bs o
  have h := sweep_swept tail bs o
  refine ⟨fun index hok => ?_, fun e he => ?_⟩
  · rwa [hok] at h
  · rw [he] at h
    obtain ⟨index, hchain, rfl, hin, hfail⟩ := h
    exact ⟨Nat.le_add_right .., Nat.add_lt_add_left hin o, by rwa [Nat.add_sub_cancel_left], index, hchain, rfl⟩

/-! ### Registered code (R67, R91) -/

/-- A sweep that succeeds on an encoding starts its index with the instruction. -/
theorem indexAt_of_sweep_encode {i : Instr} (hw : i.wellFormed = true) {rest : List Byte} {o : Nat} {seg : Segment}
    (h : sweep tail (encode i ++ rest) 0 o = .ok seg.index) : indexAt seg o = some (.instr i) := by
  have hbs : encode i ++ rest ≠ [] := by
    have := (length_bounds i).1
    intro he
    rw [Instr.length, (List.append_eq_nil_iff.mp he).1] at this
    simp at this
  rw [sweep_of_decodeAt hbs o (decodeAt_encode hw rest)] at h
  cases hr : sweep tail ((encode i ++ rest).drop (Decoded.instr i).length) 0 (o + (Decoded.instr i).length) with
  | error e => rw [hr] at h; cases h
  | ok index =>
    rw [hr] at h
    simp only [Except.map, Except.ok.injEq] at h
    simp [indexAt, ← h]

/-- Settles O11: the index of the new segment starts with the instruction, and the fetch finds that segment by CS. -/
theorem registeredCodeRunsItsBytes : Obligations.RegisteredCodeRunsItsBytes := by
  intro s t g i more relocs u hw h
  obtain ⟨-, hfree, index, hbuild, rfl⟩ := hostRegister_ok h
  rw [buildIndex, if_pos rfl, paddedBuffer, List.append_assoc] at hbuild
  refine fetch_of_entry (g := ⟨g, true, relocs, index⟩) ?_ ?_ ?_ ?_
  · exact (regOk_of_eq (s := writeReg (.seg .cs) g _) rfl rfl _).trans (regOk_writeReg.mpr (.inl rfl))
  · exact (canRead_iff .ip).mpr (.inr rfl)
  · simp only [sreg, writeIp_regs, writeReg_regs, Bank.get_set_same]
    exact findSegment_insert_same (registered_eq_false.mp hfree)
  · exact indexAt_of_sweep_encode hw hbuild

end Sys2Proof.Proofs

/-!
PROOFS. The step of an admitted entry (R90 to R92), the operand resolver and effective addresses as the bytes give them (R73,
R76, R79, R80, R96, R97), relocation substitution (R99) and the stack primitives (R101).
-/

namespace Sys2Proof.Proofs

open Sys2Proof.Machine Sys2Proof.Safety

variable {s : State} {m : MemOperand} {d : Decoded}

/-! ### The memory operand an encoding gives (R73, R76, R79, R80, R83) -/

/-- The size of the memory operand of an opcode (R79). -/
def opcodeSize (op : Byte) : MemSize := if op = 0x80#8 ∨ op = 0xC6#8 then .byte else .word

/-- The bytes after an opcode are a ModRM byte with rm 110 and a displacement, which give the operand's address. -/
def ModRMGives (ov : Option Sreg) (rest : List Byte) (m : MemOperand) : Prop :=
  ∃ reg : BitVec 3,
    (∃ lo hi more, rest = (0#2 ++ reg ++ 6#3) :: lo :: hi :: more ∧ m.base = .absent ∧ m.disp = hi ++ lo ∧
      m.seg = ov.getD .ds) ∨
    (∃ d more, rest = (1#2 ++ reg ++ 6#3) :: d :: more ∧ m.base = .bp ∧ m.disp = d.signExtend 16 ∧ m.seg = ov.getD .ss) ∨
    (∃ lo hi more, rest = (2#2 ++ reg ++ 6#3) :: lo :: hi :: more ∧ m.base = .bp ∧ m.disp = hi ++ lo ∧
      m.seg = ov.getD .ss)

/-- The opcodes with a memory operand in their ModRM byte. -/
def modRMOpcodes : List Byte :=
  [0x0B#8, 0x33#8, 0x39#8, 0x3B#8, 0x80#8, 0x81#8, 0x83#8, 0x89#8, 0x8B#8, 0x8C#8, 0x8D#8, 0x8E#8, 0xC6#8, 0xC7#8, 0xFF#8]

/-- Some override, opcode and rest of the encoding give the operand: through its ModRM byte, or as an offset for A1 and A3. -/
def EncodingGives (bytes : List Byte) (m : MemOperand) : Prop :=
  ∃ (ov : Option Sreg) (op : Byte) (rest : List Byte), bytes = ovBytes ov ++ op :: rest ∧ m.size = opcodeSize op ∧
    (op ∈ modRMOpcodes ∧ ModRMGives ov rest m ∨
      op ∈ [0xA1#8, 0xA3#8] ∧ ∃ lo hi, rest = [lo, hi] ∧ m.base = .absent ∧ m.disp = hi ++ lo ∧ m.seg = ov.getD .ds)

theorem hiByte_append_loByte (w : Word) : w = hiByte w ++ loByte w := (wordOf_lo_hi w).symm

section Forms

variable (ov : Option Sreg) (op : Byte) (reg : BitVec 3) (disp : Word) (disp8 : Byte) (more : List Byte)

theorem encodingGives_memD16 (hop : op ∈ modRMOpcodes) :
    EncodingGives (ovBytes ov ++ op :: modRM 0#2 reg 6#3 :: loByte disp :: hiByte disp :: more)
      (memD16 (opcodeSize op) ov disp) :=
  ⟨ov, op, _, rfl, rfl, .inl ⟨hop, reg, .inl ⟨_, _, more, rfl, rfl, hiByte_append_loByte disp, rfl⟩⟩⟩

theorem encodingGives_memB8 (hop : op ∈ modRMOpcodes) :
    EncodingGives (ovBytes ov ++ op :: modRM 1#2 reg 6#3 :: disp8 :: more) (memB8 (opcodeSize op) ov disp8) :=
  ⟨ov, op, _, rfl, rfl, .inl ⟨hop, reg, .inr (.inl ⟨disp8, more, rfl, rfl, rfl, rfl⟩)⟩⟩

theorem encodingGives_memB16 (hop : op ∈ modRMOpcodes) :
    EncodingGives (ovBytes ov ++ op :: modRM 2#2 reg 6#3 :: loByte disp :: hiByte disp :: more)
      (memB16 (opcodeSize op) ov disp) :=
  ⟨ov, op, _, rfl, rfl, .inl ⟨hop, reg, .inr (.inr ⟨_, _, more, rfl, rfl, hiByte_append_loByte disp, rfl⟩)⟩⟩

theorem encodingGives_moffs (hop : op ∈ [0xA1#8, 0xA3#8]) :
    EncodingGives (ovBytes ov ++ [op, loByte disp, hiByte disp]) (memD16 (opcodeSize op) ov disp) :=
  ⟨ov, op, _, rfl, rfl, .inr ⟨hop, _, _, rfl, rfl, hiByte_append_loByte disp, rfl⟩⟩

end Forms

/-- Every memory operand of a decoded form is given by its encoding. -/
theorem encodingGives_of_mem_ops {i : Instr} {ip : Word} (hm : .mem m ∈ (i.decoded ip).ops) :
    EncodingGives (encode i) m := by
  cases i <;>
    simp only [Instr.decoded, List.mem_cons, List.not_mem_nil, Operand.mem.injEq, reduceCtorEq, or_false, false_or] at hm
  all_goals
    subst hm
    simp only [encode, le16, List.append_assoc, List.cons_append, List.nil_append]
  case cmpD16R | cmpRD16 | cmpD16I16 | cmpD16I8 | cmpByteD16I8 | xorRD16 | orRD16 | pushD16 | movD16I16 | movByteD16I8 |
      movD16R | movRD16 | movD16S | movSD16 =>
    exact encodingGives_memD16 _ _ _ _ _ (by decide)
  case cmpB8R | cmpRB8 | cmpB8I16 | cmpB8I8 | cmpByteB8I8 | xorRB8 | orRB8 | pushB8 | movB8I16 | movByteB8I8 | movB8R |
      movRB8 | movB8S | movSB8 | leaRB8 =>
    exact encodingGives_memB8 _ _ _ _ _ (by decide)
  case cmpB16R | cmpRB16 | cmpB16I16 | cmpB16I8 | cmpByteB16I8 | xorRB16 | orRB16 | pushB16 | movB16I16 | movByteB16I8 |
      movB16R | movRB16 | movB16S | movSB16 | leaRB16 =>
    exact encodingGives_memB16 _ _ _ _ _ (by decide)
  case movAxMoffs | movMoffsAx => exact encodingGives_moffs _ _ _ (by decide)

theorem ovBytes_listed (ov : Option Sreg) : (ov, ovBytes ov) ∈
    [(none, []), (some .es, [0x26#8]), (some .cs, [0x2E#8]), (some .ss, [0x36#8]), (some .ds, [0x3E#8])] := by
  rcases ov with _ | r
  · decide
  · cases r <;> decide

/-- Every opcode with a memory operand, A1 and A3 included. -/
def memoryOpcodes : List Byte :=
  [0x0B#8, 0x33#8, 0x39#8, 0x3B#8, 0x80#8, 0x81#8, 0x83#8, 0x89#8, 0x8B#8, 0x8C#8, 0x8D#8, 0x8E#8, 0xA1#8, 0xA3#8, 0xC6#8,
    0xC7#8, 0xFF#8]

theorem memoryOpcodes_of_modRM : ∀ op ∈ modRMOpcodes, op ∈ memoryOpcodes ∧ ¬(op = 0xA1#8 ∨ op = 0xA3#8) := by decide

theorem memoryOpcodes_of_moffs : ∀ op ∈ [0xA1#8, 0xA3#8], op ∈ memoryOpcodes ∧ (op = 0xA1#8 ∨ op = 0xA3#8) := by decide

/-- Settles O14: the address is `memSegment` and `memOffset`, and each form's encoding gives its operand. -/
theorem effectiveAddressIsBpPlusDisplacement : Obligations.EffectiveAddressIsBpPlusDisplacement := by
  refine ⟨fun s m ha => ⟨effectiveAddress_ok.mpr ⟨ha, rfl⟩, bpOffset_eq _ _⟩, fun i ip m _ hm => ?_⟩
  obtain ⟨ov, op, rest, hbytes, hsize, ⟨hop, hrm⟩ | ⟨hop, hmoffs⟩⟩ := encodingGives_of_mem_ops hm
  · obtain ⟨hlisted, hne⟩ := memoryOpcodes_of_modRM op hop
    refine ⟨ov, ovBytes ov, op, rest, ovBytes_listed ov, hlisted, hbytes, ?_, fun _ => hsize⟩
    rw [if_neg hne]
    exact hrm
  · obtain ⟨hlisted, heq⟩ := memoryOpcodes_of_moffs op hop
    refine ⟨ov, ovBytes ov, op, rest, ovBytes_listed ov, hlisted, hbytes, ?_, fun _ => hsize⟩
    rw [if_pos heq]
    exact hmoffs

/-! ### The operand resolver (R48, R96, R104) -/

theorem eq_error_of_faultOf {α : Type} {r : Except Fault α} {k : Fault} (h : faultOf r = some k) : r = .error k := by
  cases r with
  | ok a => cases h
  | error e => exact congrArg Except.error (Option.some.inj h)

theorem addressFault_none (ha : addressOk m s = true) : addressFault m s = none := by
  rw [← faultOf_effectiveAddress, effectiveAddress_ok.mpr ⟨ha, rfl⟩, faultOf_ok]

theorem operand_mem_error {k : Fault} (h : loadFault d m s = some k) : operand d (.mem m) s = .error k :=
  eq_error_of_faultOf ((faultOf_operand d (.mem m) s).trans h)

theorem boundFault_of_inSegment_false (h : inSegment m s = false) :
    boundFault (memSegment m s) (memOffset m s) (sizeBytes m.size) s =
      some (.segmentFault (memSegment m s) (memOffset m s).toNat) :=
  if_neg (Bool.eq_false_iff.mp h)

/-- Settles O15: success is `operand_ok`, and with the address readable each failure is the fault of the value's read. -/
theorem operandResolves : Obligations.OperandResolves := by
  intro s d op
  refine ⟨fun h => operand_ok.mpr ⟨h, rfl, rfl⟩, ?_, ?_, ?_⟩
  · rintro m rfl ha hhost hsize
    exact operand_mem_error (by simp [loadFault, addressFault_none ha, hhost, hsize])
  · rintro m rfl ha hhost hsize hnever
    exact operand_mem_error (by simp [loadFault, addressFault_none ha, hhost, hsize, hnever])
  · rintro m rfl ha hhost hout
    exact operand_mem_error (by simp [loadFault, addressFault_none ha, hhost, boundFault_of_inSegment_false hout])

/-! ### Relocation substitution (R99) -/

/-- Settles O16: `relocSubst_ok` for the words that come back, `relocSubst_error` for a callback that does not return. -/
theorem relocationSubstitutesTheSentinel : Obligations.RelocationSubstitutesTheSentinel := by
  intro s v
  refine ⟨fun hv => ?_, fun hcs => ⟨fun hr => ?_, fun w hr => ?_, fun m f hr => ?_⟩⟩
  · exact relocSubst_ok.mpr ⟨by simp [relocOk, hv], .inl ⟨if_neg hv, rfl⟩⟩
  all_goals
    have hok : relocOk 0xFFFF#16 s = true := hcs
    change relocHere s = _ at hr
  · exact relocSubst_ok.mpr ⟨hok, .inl ⟨by simp [relocatedTo, hr], rfl⟩⟩
  · exact relocSubst_ok.mpr ⟨hok, .inl ⟨by simp [relocatedTo, hr], rfl⟩⟩
  · exact ⟨fun w ws h => relocSubst_ok.mpr ⟨hok, .inr ⟨rfl, m, f, ws, hr, h, rfl⟩⟩,
      fun h => relocSubst_error.mpr ⟨rfl, .inr ⟨hcs, m, f, hr, .inl ⟨h, rfl⟩⟩⟩,
      fun h => relocSubst_error.mpr ⟨rfl, .inr ⟨hcs, m, f, hr, .inr ⟨h, rfl⟩⟩⟩⟩

/-! ### The stack primitives (R101) -/

/-- A word lies within a registered segment unless it starts at the last byte (R43). -/
theorem inBounds_word {g o : Word} (hg : registered s g = true) (ho : o ≠ 0xFFFF#16) : inBounds s g o.toNat 2 = true :=
  inBounds_eq.mpr ⟨hg, by bv_omega⟩

section Stack

variable (hsp : regOk s (.gpr .sp) = true) (hss : regOk s (.seg .ss) = true)
include hsp hss

theorem push16_of_inBounds (v : Word) (h : inBounds s (sreg s .ss) (gpr s .sp - 2#16).toNat 2 = true) :
    push16 v s = .ok (pushed v s) :=
  push16_ok.mpr ⟨by rw [pushOk, hsp, hss, h]; rfl, rfl⟩

theorem push16_segmentFault (v : Word) (h : inBounds s (sreg s .ss) (gpr s .sp - 2#16).toNat 2 = false) :
    push16 v s = .error (.segmentFault (sreg s .ss) (gpr s .sp - 2#16).toNat) :=
  push16_error.mpr (.inr (.inr ⟨hsp, hss, h, rfl⟩))

theorem pop16_of_inBounds (h : inBounds s (sreg s .ss) (gpr s .sp).toNat 2 = true) :
    pop16 s = .ok (popValue s, popped s) :=
  pop16_ok.mpr ⟨by rw [popOk, hsp, hss, h]; rfl, rfl, rfl⟩

theorem pop16_segmentFault (h : inBounds s (sreg s .ss) (gpr s .sp).toNat 2 = false) :
    pop16 s = .error (.segmentFault (sreg s .ss) (gpr s .sp).toNat) :=
  pop16_error.mpr (.inr (.inr ⟨hss, hsp, h, rfl⟩))

end Stack

/-- Settles O17: a push accesses the word at SP -16 2 and a pop the word at SP, which only 0xFFFF puts out of bounds. -/
theorem stackPrimitives : Obligations.StackPrimitives := by
  intro s hsp hss
  refine ⟨fun v hg h1 => ?_, fun v h1 => ?_, fun hg hF => ?_, fun hF => ?_, fun hg => ⟨fun v => ?_, ?_⟩⟩
  · exact push16_of_inBounds hsp hss v (inBounds_word hg (by bv_omega))
  · have h := push16_segmentFault hsp hss v
    rw [h1] at h
    exact h (inBounds_false.mpr (.inr (by decide)))
  · exact pop16_of_inBounds hsp hss (inBounds_word hg hF)
  · have h := pop16_segmentFault hsp hss
    rw [hF] at h
    exact h (inBounds_false.mpr (.inr (by decide)))
  · exact push16_segmentFault hsp hss v (inBounds_false.mpr (.inl hg))
  · exact pop16_segmentFault hsp hss (inBounds_false.mpr (.inl hg))

/-! ### The step of an admitted entry (R90 to R92) -/

theorem step_of_admitted {i : Instr} (hrun : s.status = .running) (h : fetch s = .ok (.instr i))
    (hw : i.wellFormed = true) : step s = exec i s := by
  simp only [step, hrun, h, hw, if_true]

/-- Settles O46: the entry is what the fetch gives. -/
theorem stepRunsTheDecodedInstruction : Obligations.StepRunsTheDecodedInstruction := fun _ _ _ hrun hcs hip hg hd hw =>
  step_of_admitted hrun (fetch_of_entry hcs hip hg hd) hw

end Sys2Proof.Proofs

/-!
PROOFS. ADD, CMP, INC, XOR, OR and SHL: the state each completes with (R105 to R110), and what they and LEA leave alone.
-/

namespace Sys2Proof.Proofs

open Sys2Proof.Machine Sys2Proof.Safety

variable {i : Instr} {s t : State} {m : Mnemonic} {ops : List Operand} {r : Host.Outcome State Fault Refusal}

/-! ### INC (R107) -/

theorem incMeaning_fault {g : Gpr} (h : regOk s (.gpr g) = false) :
    incMeaning i g s = .fault (.uninitialisedRead (.reg (.gpr g))) :=
  finish_eq_fault.mpr (bind_of_error (readReg_error.mpr ⟨h, rfl⟩))

/-- Settles O20: INC fails at the read of its register alone. -/
theorem incResult : Obligations.IncResult := by
  intro i s g hf
  rw [exec_inc hf]
  exact ⟨fun hg => incMeaning_next.mpr ⟨hg, rfl⟩, incMeaning_fault⟩

/-! ### ADD (R105) -/

theorem addFlags_of_assign (h : s.cfg.addCfWrite = .assign) (a b r : Word) :
    addFlags a b r s = writeCf (signMismatch s.cfg.addCfSource a b r) (writeZf (r == 0#16) s) := by
  simp only [addFlags, writeZf_cfg, h]

theorem addFlags_of_setOnly (h : s.cfg.addCfWrite = .setOnly) (a b r : Word) :
    addFlags a b r s = if signMismatch s.cfg.addCfSource a b r then writeCf true (writeZf (r == 0#16) s)
      else writeZf (r == 0#16) s := by
  simp only [addFlags, writeZf_cfg, h]

/-- Settles O18, under each value of the two switches. -/
theorem addResult : Obligations.AddResult := by
  intro i s g src hf hg hsrc
  rw [exec_add hf]
  refine addMeaning_next.mpr ⟨hg, hsrc, congrArg _ ?_⟩
  have hcfg (v : Word) : (writeReg (.gpr g) v (operandState src s)).cfg = s.cfg := operandState_cfg s src
  cases hwrite : s.cfg.addCfWrite with
  | assign =>
    rw [addFlags_of_assign (by rw [hcfg, hwrite]), hcfg]
    cases s.cfg.addCfSource <;> rfl
  | setOnly =>
    rw [addFlags_of_setOnly (by rw [hcfg, hwrite]), hcfg]
    cases s.cfg.addCfSource <;> rfl

/-! ### CMP (R106) -/

theorem runs_cmp_operands {dst src : Operand} (h : Runs i s .cmp [dst, src] r) : ∀ a b, dst = .mem a → src ≠ .mem b := by
  cases h with
  | cmp _ _ hmem => exact hmem

/-- No CMP has two memory operands. -/
theorem cmp_operands {dst src : Operand} (hf : HasForm i s.ip .cmp [dst, src]) : ∀ a b, dst = .mem a → src ≠ .mem b := by
  obtain ⟨-, hm, ho⟩ := hf
  have hruns := exec_runs i s
  rw [hm, ho] at hruns
  exact runs_cmp_operands hruns

/-- Reading one operand does not bear on the read of another, unless both are memory. -/
theorem operand_after_operand {p q : Operand} (h : ∀ a b, p = .mem a → q ≠ .mem b) (s : State) :
    operandOk q (operandState p s) = operandOk q s ∧ operandValue q (operandState p s) = operandValue q s := by
  cases p with
  | mem a =>
    cases q with
    | mem b => exact absurd rfl (h a b rfl)
    | reg r => exact ⟨regOk_of_eq (operandState_cfg s _) (operandState_written s _) r, by simp [operandValue]⟩
    | _ => exact ⟨rfl, rfl⟩
  | _ => exact ⟨rfl, rfl⟩

/-- Settles O19: the second operand is read after the first, which leaves it as it was. -/
theorem cmpResult : Obligations.CmpResult := by
  intro i s dst src hf hdst hsrc
  obtain ⟨hok, hvalue⟩ := operand_after_operand (cmp_operands hf) s
  rw [exec_cmp hf]
  exact cmpMeaning_next.mpr ⟨hdst, hok.trans hsrc, by rw [hvalue]; rfl⟩

/-! ### XOR, OR and SHL (R108 to R110) -/

/-- The flags of a state whose switches and drawn bits are those of `s`. -/
theorem logicFlags_eq (hcfg : t.cfg = s.cfg) (hdraws : t.draws = s.draws) (zf cf : Bool) :
    logicFlags zf cf t = match s.cfg.logicFlags with
      | .draw => { writeCf (Config.drawBit (s.draws + 1)) (writeZf (Config.drawBit s.draws) t) with draws := s.draws + 2 }
      | .unchanged => t
      | .x86 => writeCf cf (writeZf zf t) := by
  cases h : s.cfg.logicFlags <;> simp only [logicFlags, hcfg, hdraws, h]

/-- Settles O21: XOR and OR differ in the bitwise operation alone. -/
theorem xorOrResult : Obligations.XorOrResult := by
  intro i s m g src hf hm hg hsrc
  have hflags (v : Word) := logicFlags_eq (t := writeReg (.gpr g) v (operandState src s)) (operandState_cfg s src)
    (operandState_draws s src) (v == 0#16) false
  obtain rfl | rfl := hm
  · rw [exec_xor hf]
    exact xorMeaning_next.mpr ⟨hg, hsrc, congrArg _ (hflags _).symm⟩
  · rw [exec_or hf]
    exact orMeaning_next.mpr ⟨hg, hsrc, congrArg _ (hflags _).symm⟩

/-- SHL in the terms of R110: the register doubled, and its old bit 15. -/
theorem shlMeaning_next_doubled {g : Gpr} : shlMeaning i g s = .next t ↔ regOk s (.gpr g) = true ∧
    t = advance i.length (logicFlags (gpr s g * 2#16 == 0#16) ((gpr s g).getLsbD 15)
      (writeReg (.gpr g) (gpr s g * 2#16) s)) := by
  have hdouble : gpr s g * 2#16 = gpr s g <<< 1 := BitVec.mul_twoPow_eq_shiftLeft (gpr s g) 1
  have hbit : (gpr s g).getLsbD 15 = (gpr s g).msb := (BitVec.msb_eq_getLsbD_last (gpr s g)).symm
  rw [hdouble, hbit]
  exact shlMeaning_next

/-- Settles O22: the count is not read. -/
theorem shlResult : Obligations.ShlResult := by
  intro i s g count hf hg
  have hflags := logicFlags_eq (t := writeReg (.gpr g) (gpr s g * 2#16) s) (s := s) rfl rfl (gpr s g * 2#16 == 0#16)
    ((gpr s g).getLsbD 15)
  rw [exec_shl hf]
  exact shlMeaning_next_doubled.mpr ⟨hg, congrArg _ hflags.symm⟩

/-! ### What ADD, CMP, INC, XOR, OR, SHL and LEA leave alone -/

/-- The mnemonics whose result is a register or the flags: R105 to R110, and LEA (R114). -/
def aluMnemonics : List Mnemonic := [.add, .cmp, .inc, .xor, .or, .shl, .lea]

/-- The register an ALU instruction or LEA writes: its first operand, and none for CMP. -/
def aluWrites (m : Mnemonic) (ops : List Operand) : List Reg :=
  match m, ops with
  | .cmp, _ => []
  | _, .reg r :: _ => [r]
  | _, _ => []

theorem regsKept_of_regs (h : t.regs = s.regs) (except : List Reg) : RegsKept s t except := fun r _ => by rw [h]

theorem regsKept_of_set {q : Reg} (h : t.regs = s.regs.set q (t.regs.get q)) : RegsKept s t [q] := fun r hr => by
  rw [h, Bank.get_set_other _ _ (List.ne_of_not_mem_cons hr)]

theorem bytesKept_of_mem (h : t.mem = s.mem) : BytesKept s t := fun g o _ => byteAt_eq_of_mem h g o

/-- No jump is among them. -/
theorem jumpCondition_of_alu : ∀ m ∈ aluMnemonics, jumpCondition m = none := by decide

theorem makesCallback_of_alu (hm : (i.decoded s.ip).mnemonic ∈ aluMnemonics) : makesCallback i s = false := by
  have hmov : (i.decoded s.ip).mnemonic ≠ .mov := fun h => absurd (h ▸ hm) (by decide)
  have hcall : (i.decoded s.ip).mnemonic ≠ .call := fun h => absurd (h ▸ hm) (by decide)
  unfold makesCallback
  split
  · exact absurd ‹_› hmov
  · exact absurd ‹_› hcall
  · rfl

/-- A meaning of these that completes writes one register at most, no byte, and uses up no reply of a callback. -/
theorem runs_alu_kept (h : Runs i s m ops r) (hm : m ∈ aluMnemonics) (hr : r = .next t) :
    RegsKept s t (aluWrites m ops) ∧ BytesKept s t ∧ t.hostReplies = s.hostReplies := by
  cases h with
  | add g src =>
    obtain ⟨-, -, rfl⟩ := addMeaning_next.mp hr
    exact ⟨regsKept_of_set (by simp), bytesKept_of_mem (by simp), by simp⟩
  | cmp dst src _ =>
    obtain ⟨-, -, rfl⟩ := cmpMeaning_next.mp hr
    exact ⟨regsKept_of_regs (by simp) _, bytesKept_of_mem (by simp), by simp⟩
  | inc g =>
    obtain ⟨-, rfl⟩ := incMeaning_next.mp hr
    exact ⟨regsKept_of_set (by simp), bytesKept_of_mem (by simp), by simp⟩
  | xor g src =>
    obtain ⟨-, -, rfl⟩ := xorMeaning_next.mp hr
    exact ⟨regsKept_of_set (by simp), bytesKept_of_mem (by simp), by simp⟩
  | or g src =>
    obtain ⟨-, -, rfl⟩ := orMeaning_next.mp hr
    exact ⟨regsKept_of_set (by simp), bytesKept_of_mem (by simp), by simp⟩
  | shl g count =>
    obtain ⟨-, rfl⟩ := shlMeaning_next.mp hr
    exact ⟨regsKept_of_set (by simp), bytesKept_of_mem (by simp), by simp⟩
  | lea g a =>
    obtain ⟨-, rfl⟩ := leaMeaning_next.mp hr
    exact ⟨regsKept_of_set (by simp), bytesKept_of_mem (by simp), by simp⟩
  | jcc m target c rel hj => exact absurd hj (by simp [jumpCondition_of_alu m hm])
  | _ => exact absurd hm (by decide)

/-- INC keeps CF (R107). -/
theorem runs_inc_cf (h : Runs i s m ops r) (hm : m = .inc) (hr : r = .next t) : t.cf = s.cf := by
  cases h with
  | inc g => obtain ⟨-, rfl⟩ := incMeaning_next.mp hr; exact incFlags_cf _ _
  | jcc m target c rel hj => exact absurd hj (by simp [hm, jumpCondition])
  | _ => cases hm

/-- Settles O40: registers and bytes by the meaning the instruction runs, the fields no step changes by `runs_fixedKept`,
and F by `runs_flags`, since none of them makes a callback. -/
theorem aluFrame : Obligations.AluFrame := by
  rintro i s t m ops ⟨-, rfl, rfl⟩ hm hx
  have hruns := exec_runs i s
  obtain ⟨hregs, hbytes, hreplies⟩ := runs_alu_kept hruns hm hx
  have hflags := runs_flags hruns rfl rfl (makesCallback_of_alu hm) hx
  refine ⟨hregs, hbytes, runs_fixedKept hruns hx, ?_, fun hinc => runs_inc_cf hruns hinc hx, fun hlea => ?_, hreplies⟩
  · obtain ⟨hf, -⟩ | ⟨-, hrest⟩ := hflags
    · rw [hf]
    · exact hrest
  · obtain ⟨hf, -⟩ | ⟨hwrites, -⟩ := hflags
    · exact hf
    · exact absurd (hlea ▸ hwrites) (by decide)

end Sys2Proof.Proofs

/-!
PROOFS. PUSH, POP, MOV and LEA: the state each completes with (R111 to R114), and what they, ENTER, LEAVE and CALL near leave
alone (R115, R116, R126).
-/

namespace Sys2Proof.Proofs

open Sys2Proof.Machine Sys2Proof.Safety

variable {i : Instr} {s t u : State} {m : Mnemonic} {ops : List Operand} {r : Host.Outcome State Fault Refusal}
  {regs : List Reg}

/-! ### LEA (R114) -/

theorem leaMeaning_fault {g : Gpr} {a : MemOperand} (h : regOk s (.gpr .bp) = false) :
    leaMeaning i g a s = .fault (.uninitialisedRead (.reg (.gpr .bp))) :=
  finish_eq_fault.mpr (bind_of_error (readReg_error.mpr ⟨h, rfl⟩))

/-- Settles O29: LEA reads BP alone. -/
theorem leaResult : Obligations.LeaResult := by
  intro i s g a hf
  obtain ⟨-, hexec⟩ := exec_lea hf
  rw [hexec]
  exact ⟨fun hbp => leaMeaning_next.mpr ⟨hbp, rfl⟩, leaMeaning_fault⟩

/-! ### PUSH and POP (R111, R112) -/

theorem pushOk_congr (hcfg : t.cfg = s.cfg) (hwritten : t.written = s.written) (hregs : t.regs = s.regs)
    (hstore : t.store = s.store) : pushOk t = pushOk s := by
  simp only [pushOk, regOk_of_eq hcfg hwritten, sreg, gpr, hregs, inBounds_eq_of_store hstore]

/-- Reading an operand does not bear on the push after it. -/
theorem pushOk_operandState (op : Operand) (s : State) : pushOk (operandState op s) = pushOk s :=
  pushOk_congr (operandState_cfg s op) (operandState_written s op) (operandState_regs s op) (operandState_store s op)

/-- Settles O23: `pushMeaning_next`, with the push judged on the state before the operand is read. -/
theorem pushResult : Obligations.PushResult := by
  intro i s src hf hsrc hp
  rw [exec_push hf]
  exact pushMeaning_next.mpr ⟨hsrc, (pushOk_operandState src s).trans hp, rfl⟩

/-- Settles O24, by `popMeaning_next`. -/
theorem popResult : Obligations.PopResult := by
  intro i s q hf hp
  rw [exec_pop hf]
  exact popMeaning_next.mpr ⟨hp, rfl⟩

/-! ### MOV (R113) -/

/-- Settles O25: the immediate's relocation succeeds and leaves the state alone. -/
theorem movImmediateResult : Obligations.MovImmediateResult := by
  intro i s v w hok hto
  have hreloc : relocSubst v s = .ok (w, s) := relocSubst_ok.mpr ⟨hok, .inl ⟨hto, rfl⟩⟩
  refine ⟨fun g hf => ?_, fun a hf ha => ?_⟩
  · rw [exec_mov_reg_imm hf]
    exact movRegImm_next.mpr ⟨w, s, hreloc, rfl⟩
  · obtain ⟨hsize, hexec⟩ := exec_mov_mem_imm hf
    rw [hexec]
    exact (movMemImm_next hsize).mpr ⟨w, s, hreloc, ha, rfl⟩

/-- Settles O26: the immediate's relocation is the callback's word, and the destination is taken in the state the callback
leaves. -/
theorem movImportResult : Obligations.MovImportResult := by
  intro i s m f w ws hcs himport hreply u
  have hreloc : relocSubst 0xFFFF#16 s = .ok (w, u) :=
    relocSubst_ok.mpr ⟨hcs, .inr ⟨rfl, m, f, ws, himport, hreply, rfl⟩⟩
  refine ⟨fun g hf => ?_, fun a hf ha => ?_⟩
  · rw [exec_mov_reg_imm hf]
    exact movRegImm_next.mpr ⟨w, u, hreloc, rfl⟩
  · obtain ⟨hsize, hexec⟩ := exec_mov_mem_imm hf
    rw [hexec]
    exact (movMemImm_next hsize).mpr ⟨w, u, hreloc, ha, rfl⟩

/-- Settles O27, by the meaning of each kind of source. -/
theorem movToRegisterResult : Obligations.MovToRegisterResult := by
  intro i s dst
  refine ⟨fun src hf hsrc => ?_, fun a hf ha => ?_⟩
  · rw [exec_mov_reg_reg hf]
    exact movRegReg_next.mpr ⟨hsrc, rfl⟩
  · obtain ⟨-, hexec⟩ := exec_mov_reg_mem hf
    rw [hexec]
    exact movRegMem_next.mpr ⟨ha, rfl⟩

/-- Settles O28, by the meaning of each kind of source. -/
theorem movToMemoryResult : Obligations.MovToMemoryResult := by
  intro i s a ha
  refine ⟨fun src hf hsrc => ?_, fun v hf => ?_⟩
  · obtain ⟨hsize, hexec⟩ := exec_mov_mem_reg hf
    rw [hexec]
    exact (movMemReg_next hsize).mpr ⟨hsrc, ha, rfl⟩
  · obtain ⟨hsize, hexec⟩ := exec_mov_mem_imm8 hf
    rw [hexec]
    exact (movMemImm8_next hsize).mpr ⟨ha, rfl⟩

/-! ### PUSH then POP (R101, R112) -/

/-- The slot of a push that is in order lies within the segment. -/
theorem slot_of_pushOk (hp : pushOk s = true) : (gpr s .sp - 2#16).toNat + 2 ≤ 65536 := by
  simp only [pushOk, Bool.and_eq_true] at hp
  exact (inBounds_eq.mp hp.2).2

@[simp] theorem gpr_sp_pushed (v : Word) (s : State) : gpr (pushed v s) .sp = gpr s .sp - 2#16 :=
  (regs_pushed v s (.gpr .sp)).trans (if_pos rfl)

@[simp] theorem sreg_pushed (v : Word) (s : State) (q : Sreg) : sreg (pushed v s) q = sreg s q :=
  (regs_pushed v s (.seg q)).trans (if_neg (by simp))

@[simp] theorem gpr_sp_popped (s : State) : gpr (popped s) .sp = gpr s .sp + 2#16 := by
  simp [gpr, popped]

/-- The word a pop gives after a push is the word pushed. -/
theorem popValue_pushed (hwf : Memory.wf s.mem = true) (hp : pushOk s = true) (v : Word) :
    popValue (pushed v s) = v := by
  rw [popValue, gpr_sp_pushed, sreg_pushed]
  exact wordAt_putWord_same (s := writeReg _ _ s) hwf _ v (slot_of_pushOk hp)

/-- Settles O56: the pop reads the slot of the push, and SP rises by what it fell. -/
theorem pushThenPopRestores : Obligations.PushThenPopRestores := by
  intro i j s t u src q hwf hpush _ hpop hx hy
  rw [exec_push hpush] at hx
  rw [exec_pop hpop] at hy
  obtain ⟨-, hp, rfl⟩ := pushMeaning_next.mp hx
  obtain ⟨-, rfl⟩ := popMeaning_next.mp hy
  refine ⟨(Bank.get_set_same _ _ _).trans ?_, fun hq => (Bank.get_set_other _ _ (Ne.symm hq)).trans ?_⟩
  · exact popValue_pushed (by simpa using hwf) hp _
  · calc gpr (popped (pushed (operandValue src s) (operandState src s))) .sp
        = gpr (operandState src s) .sp := by simp
      _ = gpr s .sp := by rw [gpr, operandState_regs, gpr]

/-! ### Registers and bytes kept, update by update -/

theorem regsKept_writeReg {q : Reg} {v : Word} (hq : q ∈ regs) (h : RegsKept s t regs) :
    RegsKept s (writeReg q v t) regs := fun p hp =>
  (Bank.get_set_other _ _ (ne_of_mem_of_not_mem hq hp).symm).trans (h p hp)

theorem regsKept_writeIp {v : Word} (h : RegsKept s t regs) : RegsKept s (writeIp v t) regs := h

theorem regsKept_pushed {v : Word} (hsp : .gpr .sp ∈ regs) (h : RegsKept s t regs) : RegsKept s (pushed v t) regs :=
  regsKept_writeReg hsp h

theorem regsKept_popped (hsp : .gpr .sp ∈ regs) (h : RegsKept s t regs) : RegsKept s (popped t) regs :=
  regsKept_writeReg hsp h

theorem bytesKeptOutside_putWord {g o : Word} (v : Word) (ho : o.toNat + 2 ≤ 65536) :
    BytesKeptOutside s (putWord g o.toNat v s) g o 2 := fun _ _ hp hne => byteAt_putWord_other s v ho hp hne

theorem bytesKeptOutside_putByte {g o : Word} (b : Byte) : BytesKeptOutside s (putByte g o.toNat b s) g o 1 :=
  fun _ _ hp hne => byteAt_putByte_other s b o.isLt hp fun ⟨hg, ho⟩ => hne ⟨hg, by omega, by omega⟩

theorem bytesKeptOutside_pushed (v : Word) (hp : pushOk s = true) :
    BytesKeptOutside s (pushed v s) (sreg s .ss) (gpr s .sp - 2#16) 2 :=
  bytesKeptOutside_putWord (s := writeReg _ _ s) v (slot_of_pushOk hp)

/-! ### What PUSH, POP, ENTER, LEAVE and CALL near leave alone -/

theorem pushMeaning_frame {src : Operand} (h : pushMeaning i src s = .next t) :
    RegsKept s t [.gpr .sp] ∧ t.flags = s.flags ∧ BytesKeptOutside s t (sreg s .ss) (gpr s .sp - 2#16) 2 := by
  obtain ⟨-, hp, rfl⟩ := pushMeaning_next.mp h
  have hbytes := bytesKeptOutside_pushed (operandValue src s) hp
  simp only [sreg, gpr, operandState_regs] at hbytes
  have hregs : RegsKept s (operandState src s) [.gpr .sp] := regsKept_of_regs (by simp) _
  refine ⟨regsKept_writeIp (regsKept_pushed (by simp) hregs), by simp, fun g o ho hne => ?_⟩
  exact (hbytes g o ho hne).trans (byteAt_eq_of_mem (by simp) g o)

theorem popMeaning_frame {q : Reg} (h : popMeaning i q s = .next t) :
    RegsKept s t [.gpr .sp, q] ∧ t.flags = s.flags ∧ BytesKept s t := by
  obtain ⟨-, rfl⟩ := popMeaning_next.mp h
  exact ⟨regsKept_writeReg (by simp) (regsKept_popped (by simp) (regsKept_of_regs rfl _)), rfl, bytesKept_of_mem rfl⟩

theorem enterMeaning_frame {n : Word} (h : enterMeaning i n s = .next t) :
    RegsKept s t [.gpr .sp, .gpr .bp] ∧ t.flags = s.flags ∧
      BytesKeptOutside s t (sreg s .ss) (gpr s .sp - 2#16) 2 := by
  obtain ⟨-, hp, rfl⟩ := enterMeaning_next.mp h
  have hregs : RegsKept s (pushed (gpr s .bp) s) [.gpr .sp, .gpr .bp] :=
    regsKept_pushed (by simp) (regsKept_of_regs rfl _)
  exact ⟨regsKept_writeReg (by simp) (regsKept_writeReg (by simp) hregs), rfl, bytesKeptOutside_pushed _ hp⟩

theorem leaveMeaning_frame (h : leaveMeaning s = .next t) :
    RegsKept s t [.gpr .sp, .gpr .bp, .seg .cs] ∧ t.flags = s.flags ∧ BytesKept s t := by
  obtain ⟨-, a, b, c, rfl, -, rfl, -, rfl, -, rfl⟩ := leaveMeaning_next.mp h
  refine ⟨regsKept_writeIp ?_, by simp, bytesKept_of_mem (by simp)⟩
  iterate 3 refine regsKept_popped (by simp) (regsKept_writeReg (by simp) ?_)
  exact regsKept_of_regs rfl _

theorem regsKept_called (s : State) : RegsKept s (called s) [.gpr .sp, .gpr .bp] := by
  refine regsKept_writeReg (by simp) ?_
  iterate 2 refine regsKept_pushed (by simp) ?_
  exact regsKept_of_regs rfl _

/-- The two words a CALL pushes are at SP -16 2 and SP -16 4 (R126). -/
theorem byteAt_called_other {g : Word} {o : Nat} (hc : callOk s = true) (ho : o < 65536)
    (hip : ¬(g = sreg s .ss ∧ (gpr s .sp - 2#16).toNat ≤ o ∧ o < (gpr s .sp - 2#16).toNat + 2))
    (hcs : ¬(g = sreg s .ss ∧ (gpr s .sp - 4#16).toNat ≤ o ∧ o < (gpr s .sp - 4#16).toNat + 2)) :
    byteAt (called s) g o = byteAt s g o := by
  simp only [callOk, Bool.and_eq_true] at hc
  obtain ⟨⟨hpush, -⟩, hpush'⟩ := hc
  have hsecond := bytesKeptOutside_pushed (sreg s .cs) hpush'
  rw [gpr_sp_pushed, sreg_pushed, show gpr s .sp - 2#16 - 2#16 = gpr s .sp - 4#16 by bv_omega] at hsecond
  exact (hsecond g o ho hcs).trans (bytesKeptOutside_pushed s.ip hpush g o ho hip)

theorem ops_of_push {ip : Word} (h : (i.decoded ip).mnemonic = .push) : ∃ src, (i.decoded ip).ops = [src] := by
  cases i <;> cases h
  all_goals exact ⟨_, rfl⟩

theorem ops_of_enter {ip : Word} (h : (i.decoded ip).mnemonic = .enter) :
    ∃ n, (i.decoded ip).ops = [.imm16 n, .imm8 0#8] := by
  cases i <;> cases h
  exact ⟨_, rfl⟩

theorem ops_of_leave {ip : Word} (h : (i.decoded ip).mnemonic = .leave) : (i.decoded ip).ops = [] := by
  cases i <;> cases h
  rfl

/-- Settles O41: registers, flags and bytes by the frame of each meaning, the fields no step changes by `runs_fixedKept`. -/
theorem stackFrame : Obligations.StackFrame := by
  rintro i s t m ops ⟨hw, rfl, rfl⟩ hx
  have hfixed := runs_fixedKept (exec_runs i s) hx
  refine ⟨fun hm => ?_, fun q hm ho => ?_, fun hm => ?_, fun hm => ?_, fun target hm ho => ?_⟩
  · obtain ⟨src, ho⟩ := ops_of_push hm
    obtain ⟨hregs, hflags, hbytes⟩ := pushMeaning_frame (exec_push ⟨hw, hm, ho⟩ ▸ hx)
    exact ⟨hregs, hflags, hfixed, hbytes⟩
  · obtain ⟨hregs, hflags, hbytes⟩ := popMeaning_frame (exec_pop ⟨hw, hm, ho⟩ ▸ hx)
    exact ⟨hregs, hflags, hfixed, hbytes⟩
  · obtain ⟨n, ho⟩ := ops_of_enter hm
    obtain ⟨-, hexec⟩ := exec_enter ⟨hw, hm, ho⟩
    obtain ⟨hregs, hflags, hbytes⟩ := enterMeaning_frame (hexec ▸ hx)
    exact ⟨hregs, hflags, hfixed, hbytes⟩
  · obtain ⟨-, hexec⟩ := exec_leave ⟨hw, hm, ops_of_leave hm⟩
    obtain ⟨hregs, hflags, hbytes⟩ := leaveMeaning_frame (hexec ▸ hx)
    exact ⟨hregs, hflags, hfixed, hbytes⟩
  · obtain ⟨rel, hexec, -⟩ := exec_call_near ⟨hw, hm, ho⟩
    obtain ⟨hc, rfl⟩ := callNearMeaning_next.mp (hexec ▸ hx)
    exact ⟨regsKept_called s, rfl, hfixed, fun _ _ hlt hip hcs => byteAt_called_other hc hlt hip hcs⟩

/-! ### What MOV leaves alone -/

/-- What a MOV leaves alone: all but its destination register, or all but the bytes of its destination in memory. It has no
other destination. -/
def KeptButFor (s t : State) : Operand → Prop
  | .reg q => RegsKept s t [q] ∧ BytesKept s t
  | .mem a => RegsKept s t [] ∧ BytesKeptOutside s t (memSegment a s) (memOffset a s) (sizeBytes a.size)
  | _ => False

theorem keptButFor_reg {q : Reg} {v : Word} (hregs : u.regs = s.regs.set q v) (hmem : u.mem = s.mem) :
    KeptButFor s u (.reg q) :=
  ⟨regsKept_of_set (by rw [hregs, Bank.get_set_same]), bytesKept_of_mem hmem⟩

theorem keptButFor_storeWord {a : MemOperand} (v : Word) (hsize : a.size = .word) (ha : storeOk a s = true) :
    KeptButFor s (putWord (memSegment a s) (memOffset a s).toNat v s) (.mem a) := by
  simp only [storeOk, inSegment, hsize, sizeBytes, Bool.and_eq_true] at ha
  refine ⟨regsKept_of_regs rfl _, ?_⟩
  rw [hsize]
  exact bytesKeptOutside_putWord v (inBounds_eq.mp ha.2).2

theorem keptButFor_storeByte {a : MemOperand} (b : Byte) (hsize : a.size = .byte) :
    KeptButFor s (putByte (memSegment a s) (memOffset a s).toNat b s) (.mem a) := by
  refine ⟨regsKept_of_regs rfl _, ?_⟩
  rw [hsize]
  exact bytesKeptOutside_putByte b

theorem keptButFor_writeIp {dst : Operand} {v : Word} (h : KeptButFor s u dst) : KeptButFor s (writeIp v u) dst := by
  cases dst <;> exact h

/-- A MOV that completes without a callback writes its destination alone, and uses up no reply of a callback. -/
theorem runs_mov_kept {dst src : Operand} (h : Runs i s m ops r) (hm : (i.decoded s.ip).mnemonic = m)
    (ho : (i.decoded s.ip).ops = ops) (hmov : m = .mov) (hops : ops = [dst, src]) (hc : makesCallback i s = false)
    (hr : r = .next t) : KeptButFor s t dst ∧ t.hostReplies = s.hostReplies := by
  cases h with
  | movRegImm g v =>
    obtain ⟨w, u, hu, rfl⟩ := movRegImm_next.mp hr
    obtain rfl := relocSubst_state_of_noCallback hm ho hc hu
    cases hops
    exact ⟨keptButFor_reg rfl rfl, rfl⟩
  | movRegReg q p _ =>
    obtain ⟨-, rfl⟩ := movRegReg_next.mp hr
    cases hops
    exact ⟨keptButFor_reg rfl rfl, rfl⟩
  | movRegMem q a _ =>
    obtain ⟨-, rfl⟩ := movRegMem_next.mp hr
    cases hops
    exact ⟨keptButFor_reg (v := loadValue a s) (by simp) (by simp), by simp⟩
  | movMemImm a v hsize =>
    obtain ⟨w, u, hu, ha, rfl⟩ := (movMemImm_next hsize).mp hr
    obtain rfl := relocSubst_state_of_noCallback hm ho hc hu
    cases hops
    exact ⟨keptButFor_writeIp (keptButFor_storeWord w hsize ha), rfl⟩
  | movMemImm8 a v hsize =>
    obtain ⟨-, rfl⟩ := (movMemImm8_next hsize).mp hr
    cases hops
    exact ⟨keptButFor_writeIp (keptButFor_storeByte v hsize), rfl⟩
  | movMemReg a p hsize =>
    obtain ⟨-, ha, rfl⟩ := (movMemReg_next hsize).mp hr
    cases hops
    exact ⟨keptButFor_writeIp (keptButFor_storeWord _ hsize ha), rfl⟩
  | jcc m target c rel _ => cases hops
  | _ => cases hmov

/-- Settles O42: the destination by `runs_mov_kept`, F by `runs_flags`, the fields no step changes by `runs_fixedKept`. -/
theorem movFrame : Obligations.MovFrame := by
  rintro i s t dst src ⟨-, hm, ho⟩ hx hc
  have hruns := exec_runs i s
  obtain ⟨hkept, hreplies⟩ := runs_mov_kept hruns rfl rfl hm ho hc hx
  have hflags : t.flags = s.flags := by
    obtain ⟨hf, -⟩ | ⟨hwriter, -⟩ := runs_flags hruns rfl rfl hc hx
    · exact hf
    · exact absurd (hm ▸ hwriter) (by decide)
  refine ⟨hflags, runs_fixedKept hruns hx, hreplies, ?_, ?_⟩
  · rintro q rfl
    exact hkept
  · rintro a g o rfl haddress
    obtain ⟨-, hpair⟩ := effectiveAddress_ok.mp haddress
    cases hpair
    exact hkept

end Sys2Proof.Proofs

/-!
PROOFS. ENTER and LEAVE: the state each completes with (R115, R116), and what they give one after the other and after a near
CALL (R126, R149, conflict C3).
-/

namespace Sys2Proof.Proofs

open Sys2Proof.Machine Sys2Proof.Safety

variable {i : Instr} {s t u : State}

/-! ### ENTER (R115) -/

/-- Settles O30, by `enterMeaning_next`. -/
theorem enterResult : Obligations.EnterResult := by
  intro i s n hf hbp hp
  obtain ⟨-, hexec⟩ := exec_enter hf
  rw [hexec]
  exact enterMeaning_next.mpr ⟨hbp, hp, rfl⟩

/-! ### LEAVE (R116) -/

/-- The offset of the k-th word from BP on. -/
def frameOffset (s : State) (k : Nat) : Word := gpr s .bp + BitVec.ofNat 16 (2 * k)

/-- The k-th word from BP on. -/
def frameWord (s : State) (k : Nat) : Word := wordAt s (sreg s .ss) (frameOffset s k).toNat

/-- The three words LEAVE pops are in bounds. -/
def frameInBounds (s : State) : Prop := ∀ k, k < 3 → inBounds s (sreg s .ss) (frameOffset s k).toNat 2 = true

/-- The state LEAVE ends in. -/
def afterLeave (s : State) : State :=
  writeIp (frameWord s 2) (writeReg (.gpr .sp) (gpr s .bp + 6#16)
    (writeReg (.seg .cs) (frameWord s 1) (writeReg (.gpr .bp) (frameWord s 0) s)))

@[simp] theorem gpr_bp_afterLeave (s : State) : gpr (afterLeave s) .bp = frameWord s 0 := by
  simp [afterLeave, gpr, Bank.get_set]

@[simp] theorem gpr_sp_afterLeave (s : State) : gpr (afterLeave s) .sp = gpr s .bp + 6#16 := by simp [afterLeave, gpr]

@[simp] theorem sreg_cs_afterLeave (s : State) : sreg (afterLeave s) .cs = frameWord s 1 := by
  simp [afterLeave, sreg, Bank.get_set]

@[simp] theorem afterLeave_ip (s : State) : (afterLeave s).ip = frameWord s 2 := rfl

/-- A state in the course of LEAVE from `s`: SP stands at the k-th word from BP on, the stack is as it was. -/
structure AtFrameWord (s : State) (k : Nat) (u : State) : Prop where
  sp : gpr u .sp = frameOffset s k
  spOk : regOk u (.gpr .sp) = true
  ss : sreg u .ss = sreg s .ss
  ssOk : regOk u (.seg .ss) = regOk s (.seg .ss)
  mem : u.mem = s.mem
  store : u.store = s.store

@[simp] theorem frameOffset_zero (s : State) : frameOffset s 0 = gpr s .bp := by simp [frameOffset]

theorem frameOffset_succ (s : State) (k : Nat) : frameOffset s k + 2#16 = frameOffset s (k + 1) := by
  simp only [frameOffset]
  bv_omega

theorem regOk_writeReg_other {r q : Reg} {v : Word} (h : q ≠ r) : regOk (writeReg r v s) q = regOk s q :=
  Bool.eq_iff_iff.mpr (regOk_writeReg.trans (or_iff_right h))

namespace AtFrameWord

variable {k : Nat}

/-- LEAVE begins with SP = BP. -/
theorem start (s : State) : AtFrameWord s 0 (writeReg (.gpr .sp) (gpr s .bp) s) where
  sp := by simp [gpr]
  spOk := regOk_writeReg.mpr (.inl rfl)
  ss := by simp [sreg, Bank.get_set]
  ssOk := regOk_writeReg_other (by decide)
  mem := rfl
  store := rfl

theorem popOk_iff (h : AtFrameWord s k u) :
    popOk u = true ↔ regOk s (.seg .ss) = true ∧ inBounds s (sreg s .ss) (frameOffset s k).toNat 2 = true := by
  rw [popOk, h.spOk, h.ssOk, h.ss, h.sp, inBounds_eq_of_store h.store, Bool.true_and, Bool.and_eq_true]

theorem popValue_eq (h : AtFrameWord s k u) : popValue u = frameWord s k := by
  rw [popValue, h.ss, h.sp, wordAt_eq_of_mem h.mem, frameWord]

theorem popped_eq (h : AtFrameWord s k u) : popped u = writeReg (.gpr .sp) (frameOffset s (k + 1)) u := by
  rw [popped, h.sp, frameOffset_succ]

/-- A pop into a register other than SP and SS brings SP to the next word. -/
theorem pop {r : Reg} {v : Word} (h : AtFrameWord s k u) (hsp : r ≠ .gpr .sp) (hss : r ≠ .seg .ss) :
    AtFrameWord s (k + 1) (writeReg r v (popped u)) where
  sp := by rw [h.popped_eq]; simp [gpr, Bank.get_set, hsp.symm]
  spOk := regOk_writeReg.mpr (.inr (regOk_writeReg.mpr (.inl rfl)))
  ss := (Bank.get_set_other _ _ hss.symm).trans ((Bank.get_set_other _ _ (by decide)).trans h.ss)
  ssOk := (regOk_writeReg_other hss.symm).trans ((regOk_writeReg_other (by decide)).trans h.ssOk)
  mem := h.mem
  store := h.store

end AtFrameWord

/-- When LEAVE completes, and the state it ends in: the three pops one after the other, on the state before them. -/
theorem leaveMeaning_next_iff : leaveMeaning s = .next t ↔
    regOk s (.gpr .bp) = true ∧ regOk s (.seg .ss) = true ∧ frameInBounds s ∧ t = afterLeave s := by
  have ha := AtFrameWord.start s
  have hb := ha.pop (r := .gpr .bp) (v := frameWord s 0) (by decide) (by decide)
  have hc := hb.pop (r := .seg .cs) (v := frameWord s 1) (by decide) (by decide)
  have hend : writeIp (frameWord s 2) (popped (writeReg (.seg .cs) (frameWord s 1)
      (popped (writeReg (.gpr .bp) (frameWord s 0) (popped (writeReg (.gpr .sp) (gpr s .bp) s)))))) = afterLeave s := by
    rw [hc.popped_eq]
    rfl
  rw [leaveMeaning_next]
  constructor
  · rintro ⟨hbp, a, b, c, rfl, hpa, rfl, hpb, rfl, hpc, rfl⟩
    rw [ha.popValue_eq] at hpb hpc ⊢
    rw [hb.popValue_eq] at hpc ⊢
    rw [hc.popValue_eq]
    obtain ⟨hss, h0⟩ := ha.popOk_iff.mp hpa
    obtain ⟨-, h1⟩ := hb.popOk_iff.mp hpb
    obtain ⟨-, h2⟩ := hc.popOk_iff.mp hpc
    refine ⟨hbp, hss, fun k hk => ?_, hend⟩
    interval_cases k
    · exact h0
    · exact h1
    · exact h2
  · rintro ⟨hbp, hss, hin, rfl⟩
    exact ⟨hbp, _, _, _, rfl, ha.popOk_iff.mpr ⟨hss, hin 0 (by decide)⟩,
      by rw [ha.popValue_eq], hb.popOk_iff.mpr ⟨hss, hin 1 (by decide)⟩,
      by rw [hb.popValue_eq], hc.popOk_iff.mpr ⟨hss, hin 2 (by decide)⟩,
      by rw [hc.popValue_eq, hend]⟩

/-- Settles O31, by `leaveMeaning_next_iff`. -/
theorem leaveResult : Obligations.LeaveResult := by
  intro i s hf hbp hss hin
  obtain ⟨-, hexec⟩ := exec_leave hf
  rw [hexec]
  exact leaveMeaning_next_iff.mpr ⟨hbp, hss, hin, rfl⟩

/-! ### ENTER, then LEAVE; and a near CALL before them -/

/-- A word that shares no byte with those that may have changed reads as before. -/
theorem wordAt_of_bytesKeptOutside {g o h p : Word} {n : Nat} (hkept : BytesKeptOutside s t g o n) (hp : p.toNat + 2 ≤ 65536)
    (hapart : p.toNat + 2 ≤ o.toNat ∨ o.toNat + n ≤ p.toNat) : wordAt t h p.toNat = wordAt s h p.toNat := by
  rw [wordAt, wordAt, hkept h _ (by omega) (by omega), hkept h _ (by omega) (by omega)]

/-- The frame ENTER makes (R115): BP points at the word that holds the old BP. -/
theorem enterMeaning_made {n : Word} (hwf : Memory.wf s.mem = true) (h : enterMeaning i n s = .next t) :
    gpr t .bp = gpr s .sp - 2#16 ∧ sreg t .ss = sreg s .ss ∧ frameWord t 0 = gpr s .bp := by
  obtain ⟨-, hp, ht⟩ := enterMeaning_next.mp h
  have hbp : gpr t .bp = gpr s .sp - 2#16 := by simp [ht, gpr, Bank.get_set]
  have hss : sreg t .ss = sreg s .ss := by simp [ht, sreg, Bank.get_set, regs_pushed]
  have hmem : t.mem = (pushed (gpr s .bp) s).mem := by rw [ht]; rfl
  have hword := popValue_pushed hwf hp (gpr s .bp)
  rw [popValue, gpr_sp_pushed, sreg_pushed] at hword
  refine ⟨hbp, hss, ?_⟩
  rwa [frameWord, frameOffset_zero, hbp, hss, wordAt_eq_of_mem hmem]

/-- Settles O57: BP is the word ENTER pushed, and the two words above it lie outside the pushed one, wherever SP stands. -/
theorem enterThenLeave : Obligations.EnterThenLeave := by
  intro s t u n hwf hx hy
  obtain ⟨-, -, hbytes⟩ := enterMeaning_frame hx
  obtain ⟨hbp, hss, hword⟩ := enterMeaning_made hwf hx
  obtain ⟨-, -, hin, rfl⟩ := leaveMeaning_next_iff.mp hy
  have h1 : frameOffset t 1 = gpr s .sp := by rw [frameOffset, hbp]; bv_omega
  have h2 : frameOffset t 2 = gpr s .sp + 2#16 := by rw [frameOffset, hbp]; bv_omega
  have hin1 := (inBounds_eq.mp (hin 1 (by decide))).2
  have hin2 := (inBounds_eq.mp (hin 2 (by decide))).2
  rw [h1] at hin1
  rw [h2] at hin2
  refine ⟨by simp [hword], ?_, ?_, ?_⟩
  · rw [gpr_sp_afterLeave, hbp]; bv_omega
  · rw [sreg_cs_afterLeave, frameWord, h1, hss]
    exact wordAt_of_bytesKeptOutside hbytes hin1 (by bv_omega)
  · rw [afterLeave_ip, frameWord, h2, hss]
    exact wordAt_of_bytesKeptOutside hbytes hin2 (by bv_omega)

theorem wf_pushed (hwf : Memory.wf s.mem = true) (v : Word) : Memory.wf (pushed v s).mem = true :=
  wf_putWord (s := writeReg _ _ s) hwf _ _ v

theorem gpr_sp_called (s : State) : gpr (called s) .sp = gpr s .sp - 4#16 := by
  have h : gpr (called s) .sp = gpr (pushed (sreg s .cs) (pushed s.ip s)) .sp := by
    simp [called, gpr, Bank.get_set]
  rw [h, gpr_sp_pushed, gpr_sp_pushed]
  bv_omega

/-- BP is the SP the CALL left (D20). -/
theorem gpr_bp_called (s : State) : gpr (called s) .bp = gpr (called s) .sp := by
  simp [called, gpr, Bank.get_set]

theorem sreg_called (s : State) (q : Sreg) : sreg (called s) q = sreg s q :=
  regsKept_called s (.seg q) (by simp)

/-- The words a CALL leaves on the stack: CS at the new SP, and the CALL's own offset above it (R126). -/
theorem called_words (hwf : Memory.wf s.mem = true) (hc : callOk s = true) :
    wordAt (called s) (sreg s .ss) (gpr s .sp - 4#16).toNat = sreg s .cs ∧
      wordAt (called s) (sreg s .ss) (gpr s .sp - 2#16).toNat = s.ip := by
  simp only [callOk, Bool.and_eq_true] at hc
  obtain ⟨⟨hpush, -⟩, hpush'⟩ := hc
  have hoff : gpr (pushed s.ip s) .sp - 2#16 = gpr s .sp - 4#16 := by rw [gpr_sp_pushed]; bv_omega
  have hip := popValue_pushed hwf hpush s.ip
  have hcs := popValue_pushed (wf_pushed hwf s.ip) hpush' (sreg s .cs)
  have hkept := bytesKeptOutside_pushed (sreg s .cs) hpush'
  have hslot := slot_of_pushOk hpush
  rw [popValue, gpr_sp_pushed, sreg_pushed] at hip
  rw [popValue, gpr_sp_pushed, sreg_pushed, sreg_pushed, hoff] at hcs
  rw [hoff] at hkept
  refine ⟨hcs, Eq.trans ?_ hip⟩
  exact wordAt_of_bytesKeptOutside hkept hslot (by bv_omega)

/-- Settles O58: ENTER and LEAVE give back the two words the CALL pushed. -/
theorem callEnterLeaveReturnsToTheCall : Obligations.CallEnterLeaveReturnsToTheCall := by
  intro s t u v rel n hwf hx hy hz
  obtain ⟨hc, rfl⟩ := callNearMeaning_next.mp hx
  have hwf' : Memory.wf (called s).mem = true := wf_pushed (wf_pushed hwf _) _
  obtain ⟨hcs, hip⟩ := called_words hwf hc
  have hspc := gpr_sp_called s
  have hssc := sreg_called s .ss
  have habove : gpr s .sp - 4#16 + 2#16 = gpr s .sp - 2#16 := by bv_omega
  have hback : gpr v .bp = gpr (called s) .bp ∧ gpr v .sp = gpr (called s) .sp + 4#16 ∧
      sreg v .cs = wordAt (called s) (sreg (called s) .ss) (gpr (called s) .sp).toNat ∧
      v.ip = wordAt (called s) (sreg (called s) .ss) (gpr (called s) .sp + 2#16).toNat :=
    enterThenLeave (writeIp _ (called s)) u v n hwf' hy hz
  rw [hssc, hspc, habove, hcs, hip, gpr_bp_called, hspc] at hback
  obtain ⟨hbp', hsp', hcs', hip'⟩ := hback
  exact ⟨hip', hcs', hsp'.trans (by bv_omega), hbp'⟩

end Sys2Proof.Proofs

/-!
PROOFS. STOSW (R117, R150): the state it completes with, when it never ends, its faults, and what it leaves alone.
-/

namespace Sys2Proof.Proofs

open Sys2Proof.Machine Sys2Proof.Safety

variable {i : Instr} {s t : State}

/-! ### The state after k iterations -/

theorem gpr_cx_stoswIters (k : Nat) (s : State) : gpr (stoswIters k s) .cx = gpr s .cx - BitVec.ofNat 16 (2 * k) :=
  (stoswIters_regs k s (.gpr .cx)).trans (if_pos rfl)

theorem gpr_di_stoswIters (k : Nat) (s : State) : gpr (stoswIters k s) .di = stoswOffset s k :=
  (stoswIters_regs k s (.gpr .di)).trans (by simp [stoswOffset])

theorem regsKept_stoswIters (k : Nat) (s : State) : RegsKept s (stoswIters k s) [.gpr .cx, .gpr .di] := by
  intro r hr
  simp only [List.mem_cons, List.not_mem_nil, or_false, not_or] at hr
  rw [stoswIters_regs, if_neg hr.1, if_neg hr.2]

theorem sreg_es_stoswIters (k : Nat) (s : State) : sreg (stoswIters k s) .es = sreg s .es :=
  regsKept_stoswIters k s (.seg .es) (by simp)

theorem inBounds_stoswIters (k : Nat) (s : State) (g : Word) (o n : Nat) :
    inBounds (stoswIters k s) g o n = inBounds s g o n := by
  obtain ⟨-, -, hstore, -⟩ := stoswIters_fields k s
  exact inBounds_eq_of_store hstore g o n

theorem stoswRegsOk_stoswIters (h : stoswRegsOk s = true) (k : Nat) : stoswRegsOk (stoswIters k s) = true := by
  simp only [stoswRegsOk, Bool.and_eq_true] at h ⊢
  obtain ⟨⟨hes, hdi⟩, hax⟩ := h
  exact ⟨⟨stoswIters_regOk k s _ hes, stoswIters_regOk k s _ hdi⟩, stoswIters_regOk k s _ hax⟩

/-! ### When CX is spent -/

theorem cx_spent_half (heven : (gpr s .cx).toNat % 2 = 0) :
    gpr s .cx - BitVec.ofNat 16 (2 * ((gpr s .cx).toNat / 2)) = 0#16 := by
  bv_omega

theorem cx_left_before_half {k : Nat} (hk : k < (gpr s .cx).toNat / 2) :
    gpr s .cx - BitVec.ofNat 16 (2 * k) ≠ 0#16 := by
  bv_omega

theorem cx_left_of_odd (hodd : (gpr s .cx).toNat % 2 = 1) (k : Nat) :
    gpr s .cx - BitVec.ofNat 16 (2 * k) ≠ 0#16 := by
  bv_omega

/-! ### Where the words are -/

theorem stoswOffset_parity (s : State) (k : Nat) : (stoswOffset s k).toNat % 2 = (gpr s .di).toNat % 2 := by
  simp only [stoswOffset, BitVec.toNat_add, BitVec.toNat_ofNat]
  omega

@[simp] theorem stoswOffset_zero (s : State) : stoswOffset s 0 = gpr s .di := by simp [stoswOffset]

/-- From an odd DI on, the word at 0xFFFF is that of iteration (0xFFFF - DI) / 2. -/
theorem stoswOffset_last (hodd : (gpr s .di).toNat % 2 = 1) :
    stoswOffset s ((0xFFFF - (gpr s .di).toNat) / 2) = 0xFFFF#16 := by
  rw [stoswOffset]
  bv_omega

theorem stoswOffset_before_last {k : Nat} (hk : k < (0xFFFF - (gpr s .di).toNat) / 2) : stoswOffset s k ≠ 0xFFFF#16 := by
  rw [stoswOffset]
  bv_omega

/-! ### The ends of the loop -/

/-- The fuel left after k iterations allows one more. -/
theorem fuel_split {k : Nat} (hk : k < 65536) : 65535 - k + 1 + k = Config.stoswFuel := by
  rw [Config.stoswFuel]
  omega

/-- The loop ends when CX is spent. -/
theorem stoswMeaning_completes (hcx : regOk s (.gpr .cx) = true) {k : Nat} (hk : k < 65536)
    (hg : ∀ j, j < k → stoswGuard (stoswIters j s)) (hspent : gpr s .cx - BitVec.ofNat 16 (2 * k) = 0#16) :
    stoswMeaning i s = .next (advance i.length (stoswIters k s)) := by
  have hloop : stoswLoop (65535 - k + 1 + k) s = .ok (stoswIters k s) := by
    rw [stoswLoop_iters hg, stoswLoop_done (stoswIters_regOk k s _ hcx) (by rwa [gpr_cx_stoswIters])]
  rw [fuel_split hk] at hloop
  exact finish_eq_next.mpr (bind_of_ok hloop)

section Loop

variable (hcx : regOk s (.gpr .cx) = true) (hregs : stoswRegsOk s = true)
include hcx hregs

/-- Iteration k is in order while CX is not spent and its word is not at 0xFFFF. -/
theorem stoswGuard_stoswIters (hes : registered s (sreg s .es) = true) {k : Nat}
    (hleft : gpr s .cx - BitVec.ofNat 16 (2 * k) ≠ 0#16) (hoff : stoswOffset s k ≠ 0xFFFF#16) :
    stoswGuard (stoswIters k s) := by
  refine ⟨stoswIters_regOk k s _ hcx, ?_, stoswRegsOk_stoswIters hregs k, ?_⟩
  · rwa [gpr_cx_stoswIters]
  · rw [sreg_es_stoswIters, gpr_di_stoswIters, inBounds_stoswIters]
    exact inBounds_word hes hoff

/-- The loop stops at the first word out of bounds. -/
theorem stoswMeaning_segmentFault {k : Nat} (hk : k < 65536) (hg : ∀ j, j < k → stoswGuard (stoswIters j s))
    (hleft : gpr s .cx - BitVec.ofNat 16 (2 * k) ≠ 0#16)
    (hout : inBounds s (sreg s .es) (stoswOffset s k).toNat 2 = false) :
    stoswMeaning i s = .fault (.segmentFault (sreg s .es) (stoswOffset s k).toNat) := by
  have hloop : stoswLoop (65535 - k + 1 + k) s = .error (.segmentFault (sreg s .es) (stoswOffset s k).toNat) := by
    rw [stoswLoop_iters hg, stoswLoop_out (stoswIters_regOk k s _ hcx) (by rwa [gpr_cx_stoswIters])
      (stoswRegsOk_stoswIters hregs k) (by rwa [sreg_es_stoswIters, gpr_di_stoswIters, inBounds_stoswIters]),
      sreg_es_stoswIters, gpr_di_stoswIters]
  rw [fuel_split hk] at hloop
  exact finish_eq_fault.mpr (bind_of_error hloop)

end Loop

/-- A loop whose iterations are all in order never ends. -/
theorem stoswMeaning_diverges (hg : ∀ j, stoswGuard (stoswIters j s)) : stoswMeaning i s = .fault .diverges := by
  have hloop : stoswLoop (0 + Config.stoswFuel) s = .error .diverges := by
    rw [stoswLoop_iters fun j _ => hg j, stoswLoop]
  rw [Nat.zero_add] at hloop
  exact finish_eq_fault.mpr (bind_of_error hloop)

/-- What a STOSW that completes has done: CX / 2 iterations, none of them with a word at 0xFFFF (R117, closed form). -/
theorem stoswMeaning_next_half (h : stoswMeaning i s = .next t) :
    (gpr s .cx).toNat % 2 = 0 ∧ (∀ k, k < (gpr s .cx).toNat / 2 → stoswOffset s k ≠ 0xFFFF#16) ∧
      t = advance i.length (stoswIters ((gpr s .cx).toNat / 2) s) := by
  rw [stoswMeaning, finish_eq_next, bind_eq_ok] at h
  obtain ⟨u, hu, ht⟩ := h
  obtain ⟨k, -, hg, rfl, hspent⟩ := stoswLoop_ok hu
  have hleft : ∀ j, j < k → gpr s .cx - BitVec.ofNat 16 (2 * j) ≠ 0#16 := fun j hj => by
    obtain ⟨-, hne, -⟩ := hg j hj
    rwa [gpr_cx_stoswIters] at hne
  have hoff : ∀ j, j < k → stoswOffset s j ≠ 0xFFFF#16 := fun j hj => by
    obtain ⟨-, -, -, hin⟩ := hg j hj
    rw [gpr_di_stoswIters] at hin
    have hlt := (inBounds_eq.mp hin).2
    bv_omega
  rw [gpr_cx_stoswIters] at hspent
  have heven : (gpr s .cx).toNat % 2 = 0 := by bv_omega
  have hle : ¬(gpr s .cx).toNat / 2 < k := fun hlt => hleft _ hlt (cx_spent_half heven)
  obtain rfl : k = (gpr s .cx).toNat / 2 := by bv_omega
  exact ⟨heven, hoff, ok_eq_ok.mp ht⟩

/-! ### The obligations -/

/-- Settles O32: CX / 2 iterations, all in order, and then CX is spent. -/
theorem stoswEvenResult : Obligations.StoswEvenResult := by
  intro i s hf hwf hcx
  rw [exec_stosw hf]
  refine ⟨fun hzero => ?_, fun _ heven hregs hes hoff => ?_⟩
  · exact stoswMeaning_completes (k := 0) hcx (by decide) (by simp) (by simp [hzero])
  · have hg : ∀ j, j < (gpr s .cx).toNat / 2 → stoswGuard (stoswIters j s) := fun j hj =>
      stoswGuard_stoswIters hcx hregs hes (cx_left_before_half hj) (hoff j hj)
    obtain ⟨hflags, hip, -⟩ := stoswIters_fields ((gpr s .cx).toNat / 2) s
    refine ⟨_, stoswMeaning_completes hcx (by omega) hg (cx_spent_half heven), ?_, ?_, regsKept_stoswIters _ s, hflags,
      ?_, fun k hk => ?_, fun g o ho hne => ?_⟩
    · exact (gpr_cx_stoswIters _ s).trans (cx_spent_half heven)
    · refine (gpr_di_stoswIters _ s).trans ?_
      rw [stoswOffset, Nat.mul_div_cancel' (Nat.dvd_of_mod_eq_zero heven), BitVec.ofNat_toNat, BitVec.setWidth_eq]
    · rw [advance_ip, hip]
    · exact stoswIters_words hwf (by omega) hoff hk
    · exact stoswIters_bytes hoff ho hne

/-- Settles O33: no iteration has CX spent, as it stays odd, or its word at 0xFFFF, as its offset stays even. -/
theorem stoswOddDiverges : Obligations.StoswOddDiverges := by
  intro i s hf hcx hregs hes hodd heven
  rw [exec_stosw hf]
  refine stoswMeaning_diverges fun k => stoswGuard_stoswIters hcx hregs hes (cx_left_of_odd hodd k) fun hF => ?_
  have hparity := stoswOffset_parity s k
  rw [hF, heven] at hparity
  exact absurd hparity (by decide)

/-- Settles O34: the first word out of bounds is the first of all, or the one at 0xFFFF after (0xFFFF - DI) / 2 iterations. -/
theorem stoswFaults : Obligations.StoswFaults := by
  intro i s hf hcx hregs hne
  rw [exec_stosw hf]
  refine ⟨fun hes => ?_, fun hes hodd hlong => ?_⟩
  · have hfault := stoswMeaning_segmentFault (i := i) (k := 0) hcx hregs (by decide) (by simp) (by simpa using hne)
      (inBounds_false.mpr (.inl hes))
    rwa [stoswOffset_zero] at hfault
  · have hF := stoswOffset_last hodd
    have hleft : ∀ j, j ≤ (0xFFFF - (gpr s .di).toNat) / 2 → gpr s .cx - BitVec.ofNat 16 (2 * j) ≠ 0#16 := fun j hj =>
      hlong.elim (fun h => cx_left_of_odd h j) fun h => cx_left_before_half (by omega)
    have hfault := stoswMeaning_segmentFault (i := i) (k := (0xFFFF - (gpr s .di).toNat) / 2) hcx hregs (by omega)
      (fun j hj => stoswGuard_stoswIters hcx hregs hes (hleft j hj.le) (stoswOffset_before_last hj))
      (hleft _ le_rfl) (by rw [hF]; exact inBounds_false.mpr (.inr (by decide)))
    rwa [hF] at hfault

/-- Settles O44, by `stoswMeaning_next_half`; the fields no step changes by `fixedKept_stoswIters`. -/
theorem stoswFrame : Obligations.StoswFrame := by
  intro i s t hf hx
  obtain ⟨heven, hoff, rfl⟩ := stoswMeaning_next_half (exec_stosw hf ▸ hx)
  obtain ⟨hflags, -⟩ := stoswIters_fields ((gpr s .cx).toNat / 2) s
  exact ⟨(gpr_cx_stoswIters _ s).trans (cx_spent_half heven), heven, regsKept_stoswIters _ s, hflags, fixedKept_stoswIters _ s,
    fun g o ho hne => stoswIters_bytes hoff ho hne⟩

end Sys2Proof.Proofs

/-!
PROOFS. The jumps and both CALL forms: the state each completes with and their faults (R118 to R127), what they leave alone,
and what a conditional jump decides after CMP (R106, R118).
-/

namespace Sys2Proof.Proofs

open Sys2Proof.Machine Sys2Proof.Safety

variable {i : Instr} {s t : State} {m : Mnemonic} {target : Word} {cond : Bool → Bool → Bool}

/-! ### The bytes of a near branch give its target (R77, R83) -/

/-- The mnemonics of the jumps with a rel8, each with its opcode. -/
def rel8Jumps : List (Mnemonic × Byte) :=
  [(.je, 0x74#8), (.jne, 0x75#8), (.jbe, 0x76#8), (.jl, 0x7C#8), (.jge, 0x7D#8), (.jle, 0x7E#8), (.jmp, 0xEB#8)]

/-- The mnemonics of the jumps of the 0F page, each with its second opcode byte. -/
def rel16Jumps : List (Mnemonic × Byte) :=
  [(.je, 0x84#8), (.jne, 0x85#8), (.jbe, 0x86#8), (.jl, 0x8C#8), (.jge, 0x8D#8), (.jle, 0x8E#8)]

/-- The bytes of a jump at `ip` with this mnemonic, whose displacement leads to the target. -/
def JumpBytes (bytes : List Byte) (ip : Word) (m : Mnemonic) (target : Word) : Prop :=
  (∃ op rel, bytes = [op, rel] ∧ target = ip + 2#16 + rel.signExtend 16 ∧ (m, op) ∈ rel8Jumps) ∨
  (∃ op lo hi, bytes = [0x0F#8, op, lo, hi] ∧ target = ip + 4#16 + (hi ++ lo) ∧ (m, op) ∈ rel16Jumps) ∨
  (∃ lo hi, bytes = [0xE9#8, lo, hi] ∧ target = ip + 3#16 + (hi ++ lo) ∧ m = .jmp)

/-- A word after the opcode is added to the length as its two bytes, low byte first. -/
theorem relTarget_le16 (ip : Word) (len : Nat) (rel : Word) :
    relTarget ip len rel = ip + BitVec.ofNat 16 len + (hiByte rel ++ loByte rel) :=
  congrArg (ip + BitVec.ofNat 16 len + ·) (hiByte_append_loByte rel)

theorem jumpBytes_rel8 (op rel : Byte) (ip : Word) (h : (m, op) ∈ rel8Jumps) :
    JumpBytes [op, rel] ip m (relTarget ip 2 (sext16 rel)) :=
  .inl ⟨op, rel, rfl, rfl, h⟩

theorem jumpBytes_rel16 (op : Byte) (rel ip : Word) (h : (m, op) ∈ rel16Jumps) :
    JumpBytes ([0x0F#8, op] ++ le16 rel) ip m (relTarget ip 4 rel) :=
  .inr (.inl ⟨op, _, _, rfl, relTarget_le16 ip 4 rel, h⟩)

theorem jumpBytes_jmpRel16 (rel ip : Word) : JumpBytes ([0xE9#8] ++ le16 rel) ip .jmp (relTarget ip 3 rel) :=
  .inr (.inr ⟨_, _, rfl, relTarget_le16 ip 3 rel, rfl⟩)

/-- Every near branch but CALL is one of the jumps. -/
theorem jumpBytes_of_hasForm {ip : Word} (hf : HasForm i ip m [.nearBranch target]) (hm : m ≠ .call) :
    JumpBytes (encode i) ip m target := by
  obtain ⟨-, rfl, ho⟩ := hf
  cases i <;> cases ho
  case jeRel8 | jneRel8 | jlRel8 | jgeRel8 | jleRel8 | jbeRel8 | jmpRel8 =>
    exact jumpBytes_rel8 _ _ _ (by simp [rel8Jumps, Instr.decoded])
  case jeRel16 | jneRel16 | jlRel16 | jgeRel16 | jleRel16 | jbeRel16 =>
    exact jumpBytes_rel16 _ _ _ (by simp [rel16Jumps, Instr.decoded])
  case jmpRel16 => exact jumpBytes_jmpRel16 _ _
  case callRel16 => exact absurd rfl hm

theorem callBytes_of_hasForm {ip : Word} (hf : HasForm i ip .call [.nearBranch target]) :
    ∃ lo hi, encode i = [0xE8#8, lo, hi] ∧ target = ip + 3#16 + (hi ++ lo) := by
  obtain ⟨-, hm, ho⟩ := hf
  cases i <;> cases hm <;> cases ho
  exact ⟨_, _, rfl, relTarget_le16 ip 3 _⟩

/-! ### The conditional jumps (R118 to R124) -/

theorem jumpFlagsOk_iff :
    jumpFlagsOk m s = true ↔ canRead .zf s = true ∧ ((m = .je ∨ m = .jne) ∨ canRead .cf s = true) := by
  simp [jumpFlagsOk]

theorem jumpFlagsOk_eq_false (hzf : canRead .zf s = true) :
    jumpFlagsOk m s = false ↔ ¬(m = .je ∨ m = .jne) ∧ canRead .cf s = false := by
  simp [jumpFlagsOk, hzf]

/-- A conditional jump fails at the reads of its condition alone. -/
theorem jccMeaning_fault {c : Cond} {rel : Word} {k : Fault} :
    jccMeaning i c rel s = .fault k ↔ evalCond c s = .error k := by
  rw [jccMeaning, finish_eq_fault, bind_eq_error]
  refine or_iff_left ?_
  rintro ⟨taken, -, h⟩
  cases taken <;> cases h

section Conditional

variable (hf : HasForm i s.ip m [.nearBranch target]) (hc : jumpCondition m = some cond)
include hf hc

/-- What a conditional jump does: it reads its flags, and its condition picks the target or the next instruction. -/
theorem exec_jcc_next : exec i s = .next t ↔
    jumpFlagsOk m s = true ∧ t = if cond s.zf s.cf then writeIp target s else advance i.length s := by
  obtain ⟨c, rel, hx, rfl, hcond, hreads⟩ := exec_jcc hf hc
  rw [hx, jccMeaning_next, hcond, jumpFlagsOk_iff, ← hreads, or_assoc, and_assoc]

/-- How a conditional jump fails: ZF unwritten, or else CF where the jump reads it. -/
theorem exec_jcc_fault {k : Fault} : exec i s = .fault k ↔
    canRead .zf s = false ∧ k = .uninitialisedRead .zf ∨
    canRead .zf s = true ∧ jumpFlagsOk m s = false ∧ k = .uninitialisedRead .cf := by
  obtain ⟨c, rel, hx, -, -, hreads⟩ := exec_jcc hf hc
  rw [hx, jccMeaning_fault, evalCond_error]
  refine or_congr_right (and_congr_right fun hzf => ?_)
  rw [jumpFlagsOk_eq_false hzf, ← hreads, not_or, and_assoc, and_assoc]

/-- A conditional jump whose condition on the flags is the proposition `p`. -/
theorem exec_jcc_of_iff {p : Prop} [Decidable p] (hflags : jumpFlagsOk m s = true) (hp : cond s.zf s.cf = true ↔ p) :
    exec i s = .next (if p then writeIp target s else advance i.length s) :=
  (exec_jcc_next hf hc).mpr ⟨hflags, (if_congr hp rfl rfl).symm⟩

end Conditional

theorem jmp_or_conditional_of_jumpBytes {bytes : List Byte} {ip : Word} (h : JumpBytes bytes ip m target) :
    m = .jmp ∨ ∃ cond, jumpCondition m = some cond := by
  have h8 : ∀ p ∈ rel8Jumps, p.1 = .jmp ∨ (jumpCondition p.1).isSome := by decide
  have h16 : ∀ p ∈ rel16Jumps, (jumpCondition p.1).isSome := by decide
  obtain ⟨op, -, -, -, hop⟩ | ⟨op, -, -, -, -, hop⟩ | ⟨-, -, -, -, rfl⟩ := h
  · exact (h8 _ hop).imp_right Option.isSome_iff_exists.mp
  · exact .inr (Option.isSome_iff_exists.mp (h16 _ hop))
  · exact .inl rfl

/-- Settles O35: `exec_jcc_next` and `exec_jcc_fault` for a conditional jump, `exec_jmp` for JMP, and the target by the bytes. -/
theorem jumpResult : Obligations.JumpResult := by
  intro i s m target hf hm
  refine ⟨fun cond hc => ⟨fun hflags => (exec_jcc_next hf hc).mpr ⟨hflags, rfl⟩,
    fun hzf => (exec_jcc_fault hf hc).mpr (.inl ⟨hzf, rfl⟩),
    fun hzf hflags => (exec_jcc_fault hf hc).mpr (.inr ⟨hzf, hflags, rfl⟩)⟩, ?_, jumpBytes_of_hasForm hf hm⟩
  rintro rfl
  exact exec_jmp hf

/-- A completed jump has gone to its target or to the next instruction. -/
theorem jump_next (hf : HasForm i s.ip m [.nearBranch target]) (hm : m ≠ .call) (h : exec i s = .next t) :
    t = writeIp target s ∨ t = advance i.length s := by
  obtain rfl | ⟨cond, hc⟩ := jmp_or_conditional_of_jumpBytes (jumpBytes_of_hasForm hf hm)
  · rw [exec_jmp hf] at h
    cases h
    exact .inl rfl
  · obtain ⟨-, rfl⟩ := (exec_jcc_next hf hc).mp h
    exact ite_eq_or_eq _ _ _

/-- Settles O43: either way the jump has written IP alone. -/
theorem jumpFrame : Obligations.JumpFrame := by
  intro i s t m target hf hm hx
  obtain rfl | rfl := jump_next hf hm hx
  · exact ⟨rfl, .inl rfl⟩
  · exact ⟨rfl, .inr rfl⟩

/-! ### A conditional jump after CMP (R106, R118) -/

/-- The flags CMP leaves say how its operands compare, and may be read. -/
theorem flags_after_cmp {dst src : Operand} (hf : HasForm i s.ip .cmp [dst, src]) (hdst : operandOk dst s = true)
    (hsrc : operandOk src s = true) (hx : exec i s = .next t) :
    canRead .zf t = true ∧ canRead .cf t = true ∧
    (t.zf = true ↔ (operandValue dst s).toNat = (operandValue src s).toNat) ∧
    (t.cf = true ↔ (operandValue dst s).toNat < (operandValue src s).toNat) := by
  have hcmp := cmpResult i s dst src hf hdst hsrc
  rw [hx] at hcmp
  cases hcmp
  refine ⟨(canRead_iff _).mpr (.inr rfl), (canRead_iff _).mpr (.inr rfl), ?_, ?_⟩
  · change (writeCf _ (writeZf _ _)).zf = true ↔ _
    rw [writeCf_zf, writeZf_zf, beq_iff_eq, BitVec.toNat_inj]
  · change (writeCf _ (writeZf _ _)).cf = true ↔ _
    rw [writeCf_cf, decide_eq_true_iff]

/-- Settles O59: each condition of JCC_TABLE, on the flags CMP leaves, is the comparison. -/
theorem jumpAfterCompareIsUnsigned : Obligations.JumpAfterCompareIsUnsigned := by
  intro i j s t dst src m target hf hdst hsrc hx hj a b
  obtain ⟨hzf, hcf, heq, hlt⟩ : _ ∧ _ ∧ (t.zf = true ↔ a = b) ∧ (t.cf = true ↔ a < b) := flags_after_cmp hf hdst hsrc hx
  have hflags : jumpFlagsOk m t = true := jumpFlagsOk_iff.mpr ⟨hzf, .inr hcf⟩
  refine ⟨fun ⟨hz, hc⟩ => (hlt.mp hc).ne (heq.mp hz), ?_, ?_, ?_, ?_, ?_⟩
  · rintro rfl
    exact exec_jcc_of_iff hj rfl hflags (by simp [heq])
  · rintro rfl
    exact exec_jcc_of_iff hj rfl hflags (by simp [heq, ← Bool.not_eq_true])
  · rintro rfl
    have hl : (t.zf == false && t.cf == true) = true ↔ a < b := by
      simp only [Bool.and_eq_true, beq_iff_eq, ← Bool.not_eq_true, heq, hlt]
      omega
    exact exec_jcc_of_iff hj rfl hflags hl
  · rintro rfl
    have hge : (t.zf == true || t.cf == false) = true ↔ b ≤ a := by
      simp only [Bool.or_eq_true, beq_iff_eq, ← Bool.not_eq_true, heq, hlt]
      omega
    exact exec_jcc_of_iff hj rfl hflags hge
  · have hle : (t.zf == true || t.cf == true) = true ↔ a ≤ b := by
      simp only [Bool.or_eq_true, beq_iff_eq, heq, hlt]
      omega
    rintro (rfl | rfl)
    · exact exec_jcc_of_iff hj rfl hflags hle
    · exact exec_jcc_of_iff hj rfl hflags hle

/-! ### CALL near (R126) -/

/-- Settles O36, by `callNearMeaning_next`. -/
theorem callNearResult : Obligations.CallNearResult := by
  intro i s target hf
  refine ⟨fun hc => ?_, callBytes_of_hasForm hf⟩
  obtain ⟨rel, hx, rfl⟩ := exec_call_near hf
  rw [hx]
  exact callNearMeaning_next.mpr ⟨hc, rfl⟩

/-! ### CALL far (R127) -/

/-- Settles O37, by `callFarMeaning_next`. -/
theorem callFarResult : Obligations.CallFarResult := by
  intro i s sel m f w ws hf hc hr hreply u hu v hv
  obtain ⟨-, hx⟩ := exec_call_far hf
  rw [hx]
  exact callFarMeaning_next.mpr ⟨hc, m, f, w, ws, hr, hreply, u, v, rfl, hu, rfl, hv, rfl⟩

/-- A far CALL fails after its pushes where no import record stands at (CS, IP +16 1). -/
theorem callFarMeaning_fault_noImport {k : Fault} (hc : callOk s = true)
    (hk : relocHere s = none ∧ k = .unresolvedExternalCall (sreg s .cs) s.ip ∨
      (∃ v, relocHere s = some (.internalRef v)) ∧ k = .unsupportedInstruction (.instr i)) :
    callFarMeaning i s = .fault k := by
  have hcs : readReg (.seg .cs) (called s) = .ok (sreg s .cs) := readReg_ok.mpr ⟨regOk_called_cs hc, called_cs.symm⟩
  have hrec : relocAt (sreg s .cs) (s.ip + Config.relocProbeOffset) (called s) = relocHere s :=
    relocAt_eq_of_store (called_store s) _ _
  refine finish_eq_fault.mpr ((bind_of_ok (callFrame_ok.mpr ⟨hc, rfl⟩)).trans ((bind_of_ok hcs).trans ?_))
  obtain ⟨hnone, rfl⟩ | ⟨⟨v, hv⟩, rfl⟩ := hk
  · simp only [hrec, hnone]
  · simp only [hrec, hv]

/-- Settles O38, by `callFarMeaning_fault_noImport`. -/
theorem callFarFaults : Obligations.CallFarFaults := by
  intro i s sel hf hc
  obtain ⟨-, hx⟩ := exec_call_far hf
  rw [hx]
  exact ⟨fun h => callFarMeaning_fault_noImport hc (.inl ⟨h, rfl⟩),
    fun v h => callFarMeaning_fault_noImport hc (.inr ⟨⟨v, h⟩, rfl⟩)⟩

/-- Settles O45: after the callback there are two pops, into CS and into IP; the records of the callback stand. -/
theorem callFarFrame : Obligations.CallFarFrame := by
  intro i s t sel hf hx
  have hfixed := runs_fixedKept (exec_runs i s) hx
  obtain ⟨-, hexec⟩ := exec_call_far hf
  obtain ⟨-, m, f, w, ws, hr, hreply, u, v, rfl, -, rfl, -, rfl⟩ := callFarMeaning_next.mp (hexec ▸ hx)
  obtain ⟨-, -, -, -, hcalls, hreplies, -⟩ := applyHostWrites_kept ws (recordInvoke m f (called s))
  refine ⟨m, f, w, ws, hr, hreply, regsKept_writeIp ?_, rfl, rfl, hfixed, hcalls, hreplies⟩
  refine regsKept_popped (by simp) (regsKept_writeReg (by simp) (regsKept_popped (by simp) ?_))
  exact regsKept_of_regs rfl _

end Sys2Proof.Proofs

/-!
PROOFS. How a handler ends: its fault is the first of its checks that fails (R130 item 5), and a step stops only with the
faults, the divergences and the refusal the spec has (R104, R128, R129, R133).
-/

namespace Sys2Proof.Proofs

open Sys2Proof.Machine Sys2Proof.Safety

variable {i : Instr} {s u : State} {m : Mnemonic} {ops : List Operand} {r : Host.Outcome State Fault Refusal}
  {k : Fault} {q : Option Fault} {checks : List (Option Fault)}

/-! ### Sequences of checks -/

theorem firstFault_singleton (q : Option Fault) : firstFault [q] = q := by
  rw [firstFault_cons, firstFault_nil, Option.or_none]

theorem firstFault_append (a b : List (Option Fault)) : firstFault (a ++ b) = (firstFault a).or (firstFault b) :=
  List.findSome?_append

/-- A sequence runs the checks of its first part, then those of the rest. -/
theorem faultOf_bind_checks {α β : Type} {x : Except Fault α} {f : α → Except Fault β} (hx : faultOf x = q)
    (hf : ∀ a, x = .ok a → faultOf (f a) = firstFault checks) : faultOf (x >>= f) = firstFault (q :: checks) := by
  rw [firstFault_cons, ← hx]
  exact faultOf_bind hf

/-- A sequence whose rest never fails has the fault of its first part. -/
theorem faultOf_bind_total {α β : Type} {x : Except Fault α} {f : α → Except Fault β} (hx : faultOf x = q)
    (hf : ∀ a, x = .ok a → faultOf (f a) = none) : faultOf (x >>= f) = q := by
  rw [← firstFault_singleton q]
  exact faultOf_bind_checks hx hf

/-- A sequence has the first fault of a list of checks when its first part has that of the head, whatever comes after the
checks in the rest. -/
theorem faultOf_bind_some {α β : Type} {x : Except Fault α} {f : α → Except Fault β} (hx : faultOf x = q)
    (hf : ∀ a, x = .ok a → firstFault checks = some k → faultOf (f a) = some k)
    (h : firstFault (q :: checks) = some k) : faultOf (x >>= f) = some k := by
  subst hx
  cases x with
  | ok a => exact hf a rfl h
  | error e => exact h

/-! ### Outcomes -/

/-- An outcome as its checks decide it: their fault where there is one, a next state where there is none. -/
def EndsBy (q : Option Fault) (r : Host.Outcome State Fault Refusal) : Prop :=
  (∀ k, q = some k → r = .fault k) ∧ (q = none → ∃ t, r = .next t)

theorem EndsBy.finish {r : Except Fault State} (h : faultOf r = q) : EndsBy q (finish r) := finish_of_faultOf h

theorem EndsBy.eq_some_of_fault (h : EndsBy q r) (hr : r = .fault k) : q = some k := by
  obtain ⟨hsome, hnone⟩ := h
  cases q with
  | none =>
    obtain ⟨t, ht⟩ := hnone rfl
    cases hr.symm.trans ht
  | some e => cases hr.symm.trans (hsome e rfl); rfl

/-! ### The checks of the meanings (R105 to R127) -/

/-- ADD, XOR and OR read the register, then the source (R105, R108, R109). -/
theorem readThenOperand_endsBy {d : Decoded} {dst : Reg} {src : Operand} {f : Word → Word × State → Except Fault State}
    (hf : ∀ a p, faultOf (f a p) = none) :
    EndsBy (firstFault [readFault (.reg dst) s, operandFault d src s])
      (finish (readReg dst s >>= fun a => operand d src s >>= f a)) :=
  .finish (faultOf_bind_checks (faultOf_readReg ..) fun a _ => faultOf_bind_checks (faultOf_operand ..) fun p _ => hf a p)

/-- CMP reads the second operand in the state the first leaves (R106). -/
theorem cmpMeaning_endsBy (dst src : Operand) :
    EndsBy (firstFault [operandFault (.instr i) dst s, operandFault (.instr i) src (operandState dst s)])
      (cmpMeaning i dst src s) := by
  refine .finish (faultOf_bind_checks (faultOf_operand ..) fun ⟨a, u⟩ h => ?_)
  obtain ⟨-, -, rfl⟩ := operand_ok.mp h
  exact faultOf_bind_checks (faultOf_operand ..) fun _ _ => rfl

/-- INC, SHL, LEA and MOV between registers read one register (R107, R110, R113, R114). -/
theorem read_endsBy {src : Reg} {f : Word → Except Fault State} (hf : ∀ a, faultOf (f a) = none) :
    EndsBy (readFault (.reg src) s) (finish (readReg src s >>= f)) :=
  .finish (faultOf_bind_total (faultOf_readReg ..) fun a _ => hf a)

theorem pushMeaning_endsBy (src : Operand) : EndsBy
    (firstFault [operandFault (.instr i) src s, pushFault (operandState src s)]) (pushMeaning i src s) := by
  refine .finish (faultOf_bind_checks (faultOf_operand ..) fun ⟨v, u⟩ h => ?_)
  obtain ⟨-, -, rfl⟩ := operand_ok.mp h
  exact faultOf_bind_checks (faultOf_push16 ..) fun _ _ => rfl

theorem popMeaning_endsBy (r : Reg) : EndsBy (popFault s) (popMeaning i r s) :=
  .finish (faultOf_bind_total (faultOf_pop16 s) fun _ _ => rfl)

theorem movRegImm_endsBy (g : Gpr) (v : Word) : EndsBy (relocFault v s) (movRegImm i g v s) :=
  .finish (faultOf_bind_total (faultOf_relocSubst v s) fun _ _ => rfl)

theorem movRegMem_endsBy (dst : Reg) (a : MemOperand) : EndsBy (loadFault (.instr i) a s) (movRegMem i dst a s) :=
  .finish (faultOf_bind_total (faultOf_operand (.instr i) (.mem a) s) fun _ _ => rfl)

/-- The address is computed in the state the callback leaves (D24). -/
theorem movMemImm_endsBy {a : MemOperand} (v : Word) (hsize : a.size = .word) :
    EndsBy (firstFault [relocFault v s, storeFault a (relocState v s)]) (movMemImm i a v s) := by
  refine .finish (faultOf_bind_checks (faultOf_relocSubst v s) fun ⟨w, u⟩ h => ?_)
  obtain rfl := relocSubst_state h
  exact faultOf_bind_checks (faultOf_storeWord _ _ hsize) fun _ _ => rfl

theorem movMemImm8_endsBy {a : MemOperand} (v : Byte) (hsize : a.size = .byte) :
    EndsBy (firstFault [storeFault a s]) (movMemImm8 i a v s) :=
  .finish (faultOf_bind_checks (faultOf_storeByte v s hsize) fun _ _ => rfl)

theorem movMemReg_endsBy {a : MemOperand} (src : Reg) (hsize : a.size = .word) :
    EndsBy (firstFault [readFault (.reg src) s, storeFault a s]) (movMemReg i a src s) :=
  .finish (faultOf_bind_checks (faultOf_readReg ..) fun _ _ =>
    faultOf_bind_checks (faultOf_storeWord _ _ hsize) fun _ _ => rfl)

/-- ENTER reads back the SP its push has written (R115). -/
theorem enterMeaning_endsBy (n : Word) :
    EndsBy (firstFault [readFault (.reg (.gpr .bp)) s, pushFault s]) (enterMeaning i n s) := by
  refine .finish (faultOf_bind_checks (faultOf_readReg ..) fun bp _ => faultOf_bind_checks (faultOf_push16 ..) fun u hu => ?_)
  obtain ⟨-, rfl⟩ := push16_ok.mp hu
  refine faultOf_bind_total ?_ fun _ _ => rfl
  rw [faultOf_readReg, readFault_none (regOk_pushed.mpr (.inl rfl)), firstFault_nil]

/-- The checks of a pop in the course of LEAVE are those of its word from BP on. -/
theorem AtFrameWord.popFault_eq {j : Nat} (h : AtFrameWord s j u) : popFault u =
    firstFault [readFault (.reg (.seg .ss)) s, boundFault (sreg s .ss) (frameOffset s j) 2 s] := by
  rw [popFault, h.ss, h.sp, readFault_reg h.ssOk, readFault_none h.spOk, boundFault_of_store h.store]
  rfl

/-- The words LEAVE pops are the three from BP on, and SS is checked by the first pop (R116). -/
theorem leaveMeaning_endsBy : EndsBy (firstFault [readFault (.reg (.gpr .bp)) s, readFault (.reg (.seg .ss)) s,
    boundFault (sreg s .ss) (frameOffset s 0) 2 s, boundFault (sreg s .ss) (frameOffset s 1) 2 s,
    boundFault (sreg s .ss) (frameOffset s 2) 2 s]) (leaveMeaning s) := by
  refine .finish (faultOf_bind_checks (faultOf_readReg ..) fun bp hbp => ?_)
  obtain ⟨-, rfl⟩ := readReg_ok.mp hbp
  have ha := AtFrameWord.start s
  change _ = firstFault ([_, _] ++ [_, _])
  rw [firstFault_append, ← ha.popFault_eq, ← firstFault_cons]
  refine faultOf_bind_checks (faultOf_pop16 _) fun ⟨v, a⟩ h => ?_
  obtain ⟨hpop, rfl, rfl⟩ := pop16_ok.mp h
  obtain ⟨hss, -⟩ := ha.popOk_iff.mp hpop
  have hword : ∀ {j u}, AtFrameWord s j u →
      faultOf (pop16 u) = boundFault (sreg s .ss) (frameOffset s j) 2 s := fun h => by
    rw [faultOf_pop16, h.popFault_eq, firstFault_cons, readFault_none hss, Option.none_or, firstFault_singleton]
  have hb := ha.pop (r := .gpr .bp) (v := popValue (writeReg (.gpr .sp) (gpr s .bp) s)) (by decide) (by decide)
  refine faultOf_bind_checks (hword hb) fun ⟨v, b⟩ h => ?_
  obtain ⟨-, rfl, rfl⟩ := pop16_ok.mp h
  exact faultOf_bind_checks (hword (hb.pop (by decide) (by decide))) fun _ _ => rfl

theorem callNearMeaning_endsBy (rel : Word) : EndsBy (callFault s) (callNearMeaning i rel s) :=
  .finish (faultOf_bind_total (faultOf_callFrame s) fun _ _ => rfl)

/-- What follows the callback of a far CALL: the pops of CS and IP (R127). -/
theorem faultOf_farReturn {f : Word × State → Except Fault State} (hf : ∀ p, faultOf (f p) = none) (u : State) :
    faultOf (pop16 u >>= fun p => pop16 (writeReg (.seg .cs) p.1 p.2) >>= f) =
      firstFault [popFault u, popFault (writeReg (.seg .cs) (popValue u) (popped u))] := by
  refine faultOf_bind_checks (faultOf_pop16 u) fun ⟨v, t⟩ h => ?_
  obtain ⟨-, rfl, rfl⟩ := pop16_ok.mp h
  exact faultOf_bind_checks (faultOf_pop16 _) fun p _ => hf p

theorem callFarMeaning_endsBy : EndsBy (firstFault [callFault s, farCallFault (.instr i) s]) (callFarMeaning i s) := by
  refine .finish (faultOf_bind_checks (faultOf_callFrame s) fun u hu => ?_)
  obtain ⟨hc, rfl⟩ := callFrame_ok.mp hu
  have hcs : readReg (.seg .cs) (called s) = .ok (sreg s .cs) := readReg_ok.mpr ⟨regOk_called_cs hc, called_cs.symm⟩
  have hrec : relocAt (sreg s .cs) (s.ip + Config.relocProbeOffset) (called s) = relocHere s :=
    relocAt_eq_of_store (called_store s) _ _
  rw [firstFault_singleton, bind_of_ok hcs, farCallFault]
  simp only [hrec]
  cases relocHere s with
  | none => rfl
  | some target =>
    cases target with
    | internalRef v => rfl
    | importRef f g =>
      simp only [hostInvoke]
      cases hostReply f g (called s) with
      | failed => rfl
      | never => rfl
      | returned w ws => exact faultOf_farReturn (fun _ => rfl) _

/-- A conditional jump reads ZF, and CF unless it is JE or JNE (R119 to R124). -/
theorem jccMeaning_endsBy (c : Cond) (rel : Word) :
    EndsBy (firstFault [readFault .zf s, if c = .e ∨ c = .ne then none else readFault .cf s]) (jccMeaning i c rel s) :=
  .finish (faultOf_bind_total (faultOf_evalCond c s) fun taken _ => by cases taken <;> rfl)

/-- STOSW reads CX, and unless that is 0 then ES, DI and AX, before it stores its first word (R117). -/
theorem stoswMeaning_fault (h : handlerFault (.instr i) .stosw [] s = some k) : stoswMeaning i s = .fault k := by
  refine finish_eq_fault.mpr (bind_of_error (eq_error_of_faultOf ?_))
  refine faultOf_bind_some (faultOf_readReg ..) (fun cx hcx h => ?_) h
  obtain ⟨-, rfl⟩ := readReg_ok.mp hcx
  change firstFault (if s.regs.get (.gpr .cx) = 0#16 then [] else _) = some k at h
  split at h
  · cases h
  rw [if_neg ‹_›]
  refine faultOf_bind_some (faultOf_readReg ..) (fun es hes h => ?_) h
  obtain ⟨-, rfl⟩ := readReg_ok.mp hes
  refine faultOf_bind_some (faultOf_readReg ..) (fun di hdi h => ?_) h
  obtain ⟨-, rfl⟩ := readReg_ok.mp hdi
  refine faultOf_bind_some (faultOf_readReg ..) (fun ax _ h => ?_) h
  exact faultOf_bind_some (faultOf_access ..) (fun _ _ h => by cases h) h

/-! ### The checks of every handler (R130 item 5) -/

/-- Every meaning but those of STOSW and the conditional jumps ends by the checks of its handler. -/
theorem runs_endsBy (h : Runs i s m ops r) (hstosw : m ≠ .stosw) (hjump : jumpCondition m = none) :
    EndsBy (handlerFault (.instr i) m ops s) r := by
  cases h with
  | add g src => exact readThenOperand_endsBy fun _ _ => rfl
  | cmp dst src _ => exact cmpMeaning_endsBy dst src
  | inc g => exact read_endsBy fun _ => rfl
  | xor g src => exact readThenOperand_endsBy fun _ _ => rfl
  | or g src => exact readThenOperand_endsBy fun _ _ => rfl
  | shl g count => exact read_endsBy fun _ => rfl
  | push src => exact pushMeaning_endsBy src
  | pop r _ => exact popMeaning_endsBy r
  | movRegImm g v => exact movRegImm_endsBy g v
  | movRegReg dst src _ => exact read_endsBy fun _ => rfl
  | movRegMem dst a _ => exact movRegMem_endsBy dst a
  | movMemImm a v hsize => exact movMemImm_endsBy v hsize
  | movMemImm8 a v hsize => exact movMemImm8_endsBy v hsize
  | movMemReg a src hsize => exact movMemReg_endsBy src hsize
  | lea g a => exact read_endsBy fun _ => rfl
  | enter n level => exact enterMeaning_endsBy n
  | leave =>
    have h := leaveMeaning_endsBy (s := s)
    rw [frameOffset_zero] at h
    exact h
  | stosw => exact absurd rfl hstosw
  | jcc m target c rel hcond =>
    obtain ⟨cond, hcond⟩ := hcond
    cases hjump.symm.trans hcond
  | jmp target rel => exact .finish rfl
  | callNear target rel => exact callNearMeaning_endsBy rel
  | callFar sel off => exact callFarMeaning_endsBy

/-- The checks of a conditional jump, by its mnemonic. -/
theorem handlerFault_conditional {d : Decoded} {cond : Bool → Bool → Bool} (hc : jumpCondition m = some cond) :
    handlerFault d m ops s = firstFault [readFault .zf s, if m = .je ∨ m = .jne then none else readFault .cf s] := by
  cases m <;> cases hc <;> simp [handlerFault]

theorem nearBranch_of_conditional {cond : Bool → Bool → Bool} (h : Runs i s m ops r) (hc : jumpCondition m = some cond) :
    ∃ target, ops = [.nearBranch target] := by
  cases h with
  | jcc m target c rel _ => exact ⟨target, rfl⟩
  | _ => cases hc

/-- The forms that are not admitted are MOVs to CS. -/
theorem wellFormed_of_conditional {ip : Word} {cond : Bool → Bool → Bool}
    (hc : jumpCondition (i.decoded ip).mnemonic = some cond) : i.wellFormed = true := by
  cases i with
  | movSRm | movSD16 | movSB8 | movSB16 => cases hc
  | _ => rfl

/-- `Runs` leaves the condition code of a conditional jump open; `exec_jcc` has the one of its mnemonic. -/
theorem exec_conditional_endsBy {target : Word} {cond : Bool → Bool → Bool} (hf : HasForm i s.ip m [.nearBranch target])
    (hc : jumpCondition m = some cond) : EndsBy (handlerFault (.instr i) m [.nearBranch target] s) (exec i s) := by
  obtain ⟨c, rel, hx, -, -, hreads⟩ := exec_jcc hf hc
  rw [hx, handlerFault_conditional hc, ← if_congr hreads rfl rfl]
  exact jccMeaning_endsBy c rel

/-- Every instruction but STOSW ends by the checks of its handler. -/
theorem exec_endsBy (hstosw : (i.decoded s.ip).mnemonic ≠ .stosw) :
    EndsBy (handlerFault (.instr i) (i.decoded s.ip).mnemonic (i.decoded s.ip).ops s) (exec i s) := by
  have hruns := exec_runs i s
  cases hc : jumpCondition (i.decoded s.ip).mnemonic with
  | none => exact runs_endsBy hruns hstosw hc
  | some cond =>
    obtain ⟨target, ho⟩ := nearBranch_of_conditional hruns hc
    rw [ho]
    exact exec_conditional_endsBy ⟨wellFormed_of_conditional hc, rfl, ho⟩ hc

theorem runs_stosw (h : Runs i s .stosw ops r) : ops = [] ∧ r = stoswMeaning i s := by
  cases h with
  | stosw => exact ⟨rfl, rfl⟩
  | jcc _ _ _ _ h => cases h.choose_spec

/-- Settles O60: `exec_endsBy`, and for STOSW `stoswMeaning_fault`. -/
theorem handlerFaultsInOrder : Obligations.HandlerFaultsInOrder := by
  rintro i s m ops ⟨-, rfl, rfl⟩
  by_cases hstosw : (i.decoded s.ip).mnemonic = .stosw
  · refine ⟨fun k hk => ?_, fun h => absurd hstosw h⟩
    have hruns := exec_runs i s
    rw [hstosw] at hruns hk
    obtain ⟨hops, hx⟩ := runs_stosw hruns
    rw [hops] at hk
    rw [hx]
    exact stoswMeaning_fault hk
  · obtain ⟨hfault, hnext⟩ := exec_endsBy hstosw
    exact ⟨hfault, fun _ => hnext⟩

/-! ### What a handler can fail with (R39, R104, R128) -/

/-- The faults of an instruction with this mnemonic and these operands, each with what the spec says of its cause. -/
inductive Stops (m : Mnemonic) (ops : List Operand) (s : State) : Fault → Prop
  | unwritten (item : Item) (h : s.cfg.resetRegs ≠ .draw) : Stops m ops s (.uninitialisedRead item)
  | outOfBounds (g : Word) (o : Nat) : Stops m ops s (.segmentFault g o)
  | unsupported (d : Decoded) : Stops m ops s (.unsupportedInstruction d)
  | noRecord (g o : Word) : Stops m ops s (.unresolvedExternalCall g o)
  | failedCallback (f g : Word) : Stops m ops s (.hostFault f g)
  | endlessLoop (h : m = .stosw) : Stops m ops s .diverges
  | endlessRead (a : MemOperand) (ha : .mem a ∈ ops) (hhost : viaHost a s = true) (hnone : hostAnswer a s = none) :
      Stops m ops s .diverges
  | endlessCallback (f g : Word) (hr : relocHere s = some (.importRef f g))
      (h : m = .mov ∧ hostReply f g s = .never ∨ m = .call ∧ hostReply f g (called s) = .never) :
      Stops m ops s .diverges

/-- A check gives such a fault or none. -/
def OnlyStops (m : Mnemonic) (ops : List Operand) (s : State) (q : Option Fault) : Prop :=
  ∀ k, q = some k → Stops m ops s k

theorem onlyStops_none : OnlyStops m ops s none := fun _ h => by cases h

theorem Stops.onlyStops (h : Stops m ops s k) : OnlyStops m ops s (some k) := fun _ hk => Option.some.inj hk ▸ h

theorem onlyStops_ite {c : Prop} [Decidable c] {p : Option Fault} (hq : c → OnlyStops m ops s q)
    (hp : ¬c → OnlyStops m ops s p) : OnlyStops m ops s (if c then q else p) := by
  split
  · exact hq ‹_›
  · exact hp ‹_›

theorem onlyStops_firstFault (h : checks.Forall (OnlyStops m ops s)) : OnlyStops m ops s (firstFault checks) := by
  intro k hk
  obtain ⟨q, hq, hk⟩ := List.exists_of_findSome?_eq_some hk
  exact List.forall_iff_forall_mem.mp h q hq k hk

theorem onlyStops_boundFault (g o : Word) (n : Nat) (u : State) : OnlyStops m ops s (boundFault g o n u) :=
  onlyStops_ite (fun _ => onlyStops_none) fun _ => (Stops.outOfBounds g o.toNat).onlyStops

section SameSwitches

variable (hcfg : u.cfg = s.cfg)
include hcfg

/-- Under RESET_REGS = draw every read succeeds (R39). -/
theorem onlyStops_readFault (item : Item) : OnlyStops m ops s (readFault item u) :=
  onlyStops_ite (fun _ => onlyStops_none) fun hread =>
    (Stops.unwritten item fun hdraw => hread (canRead_of_draw (hcfg ▸ hdraw) item)).onlyStops

theorem onlyStops_addressFault (a : MemOperand) : OnlyStops m ops s (addressFault a u) :=
  onlyStops_firstFault ⟨onlyStops_readFault hcfg _,
    onlyStops_ite (fun _ => onlyStops_readFault hcfg _) fun _ => onlyStops_none⟩

theorem onlyStops_storeFault (a : MemOperand) : OnlyStops m ops s (storeFault a u) :=
  onlyStops_firstFault ⟨onlyStops_addressFault hcfg a, onlyStops_boundFault _ _ _ _⟩

theorem onlyStops_pushFault : OnlyStops m ops s (pushFault u) :=
  onlyStops_firstFault ⟨onlyStops_readFault hcfg _, onlyStops_readFault hcfg _, onlyStops_boundFault _ _ _ _⟩

theorem onlyStops_popFault : OnlyStops m ops s (popFault u) :=
  onlyStops_firstFault ⟨onlyStops_readFault hcfg _, onlyStops_readFault hcfg _, onlyStops_boundFault _ _ _ _⟩

end SameSwitches

theorem onlyStops_callFault : OnlyStops m ops s (callFault s) :=
  onlyStops_firstFault ⟨onlyStops_pushFault rfl, onlyStops_readFault rfl _, onlyStops_pushFault rfl⟩

/-- Only a word read through the host can keep a memory operand from an answer (R56, R96). -/
theorem onlyStops_loadFault (d : Decoded) {a : MemOperand} (ha : .mem a ∈ ops) : OnlyStops m ops s (loadFault d a s) := by
  refine onlyStops_firstFault ⟨onlyStops_addressFault rfl a,
    onlyStops_ite (fun hhost => ?_) fun _ => onlyStops_boundFault _ _ _ _⟩
  cases a.size with
  | byte => exact (Stops.unsupported d).onlyStops
  | word =>
    refine onlyStops_ite (fun _ => onlyStops_none) fun hnone => ?_
    exact (Stops.endlessRead a ha hhost (Option.not_isSome_iff_eq_none.mp hnone)).onlyStops

theorem onlyStops_operandFault (d : Decoded) {op : Operand} (h : op ∈ ops) : OnlyStops m ops s (operandFault d op s) := by
  cases op with
  | reg r => exact onlyStops_readFault rfl _
  | mem a => exact onlyStops_loadFault d h
  | imm8 | imm16 | imm8to16 => exact onlyStops_none
  | nearBranch | farBranch => exact (Stops.unsupported d).onlyStops

theorem onlyStops_replyFault (f g : Word) {reply : HostReply} (hnever : reply = .never → Stops m ops s .diverges) :
    OnlyStops m ops s (replyFault f g reply) := by
  cases reply with
  | returned w ws => exact onlyStops_none
  | failed => exact (Stops.failedCallback f g).onlyStops
  | never => exact (hnever rfl).onlyStops

/-- Of the faults of a MOV's immediate, divergence is that of the callback at its import record (R99). -/
theorem onlyStops_relocFault (v : Word) : OnlyStops .mov ops s (relocFault v s) := by
  refine onlyStops_ite (fun _ => onlyStops_firstFault ⟨onlyStops_readFault rfl _, ?_⟩) fun _ => onlyStops_none
  cases hr : relocHere s with
  | none => exact onlyStops_none
  | some target =>
    cases target with
    | internalRef w => exact onlyStops_none
    | importRef f g => exact onlyStops_replyFault f g fun hnever => .endlessCallback f g hr (.inl ⟨rfl, hnever⟩)

theorem relocState_cfg (v : Word) (s : State) : (relocState v s).cfg = s.cfg := by
  unfold relocState
  split
  · split
    · split
      · obtain ⟨-, -, hcfg, -⟩ := fixedKept_applyHostWrites _ (recordInvoke _ _ s)
        exact hcfg
      · rfl
      · rfl
    · rfl
    · rfl
  · rfl

theorem onlyStops_farCallFault (d : Decoded) : OnlyStops .call ops s (farCallFault d s) := by
  unfold farCallFault
  cases hr : relocHere s with
  | none => exact (Stops.noRecord ..).onlyStops
  | some target =>
    cases target with
    | internalRef w => exact (Stops.unsupported d).onlyStops
    | importRef f g =>
      dsimp only
      cases hreply : hostReply f g (called s) with
      | failed => exact (Stops.failedCallback f g).onlyStops
      | never => exact (Stops.endlessCallback f g hr (.inr ⟨rfl, hreply⟩)).onlyStops
      | returned w ws =>
        obtain ⟨-, -, hcfg, -⟩ := fixedKept_applyHostWrites ws (recordInvoke f g (called s))
        exact onlyStops_firstFault ⟨onlyStops_popFault hcfg, onlyStops_popFault hcfg⟩

/-! ### Every fault of an instruction -/

/-- A handler other than STOSW's fails with such a fault only. -/
theorem runs_onlyStops (d : Decoded) (h : Runs i s m ops r) (hstosw : m ≠ .stosw) :
    OnlyStops m ops s (handlerFault d m ops s) := by
  cases h with
  | add g src | xor g src | or g src =>
    exact onlyStops_firstFault ⟨onlyStops_readFault rfl _, onlyStops_operandFault d (by simp)⟩
  | cmp dst src hmem =>
    refine onlyStops_firstFault ⟨onlyStops_operandFault d (by simp), ?_⟩
    cases src with
    | mem a =>
      have hdst : operandState dst s = s := by
        cases dst with
        | mem b => exact absurd rfl (hmem b a rfl)
        | _ => rfl
      rw [hdst]
      exact onlyStops_operandFault d (by simp)
    | reg r => exact onlyStops_readFault (operandState_cfg s dst) _
    | imm8 | imm16 | imm8to16 => exact onlyStops_none
    | nearBranch | farBranch => exact (Stops.unsupported d).onlyStops
  | inc g | shl g count | movRegReg dst src _ | lea g a => exact onlyStops_readFault rfl _
  | push src =>
    exact onlyStops_firstFault ⟨onlyStops_operandFault d (by simp), onlyStops_pushFault (operandState_cfg s src)⟩
  | pop r _ => exact onlyStops_popFault rfl
  | movRegImm g v => exact onlyStops_relocFault v
  | movRegMem dst a _ => exact onlyStops_loadFault d (by simp)
  | movMemImm a v _ => exact onlyStops_firstFault ⟨onlyStops_relocFault v, onlyStops_storeFault (relocState_cfg v s) a⟩
  | movMemImm8 a v _ => exact onlyStops_firstFault ⟨onlyStops_none, onlyStops_storeFault rfl a⟩
  | movMemReg a src _ => exact onlyStops_firstFault ⟨onlyStops_readFault rfl _, onlyStops_storeFault rfl a⟩
  | enter n level => exact onlyStops_firstFault ⟨onlyStops_readFault rfl _, onlyStops_pushFault rfl⟩
  | leave =>
    exact onlyStops_firstFault ⟨onlyStops_readFault rfl _, onlyStops_readFault rfl _, onlyStops_boundFault _ _ _ _,
      onlyStops_boundFault _ _ _ _, onlyStops_boundFault _ _ _ _⟩
  | stosw => exact absurd rfl hstosw
  | jcc m target c rel hcond =>
    obtain ⟨cond, hcond⟩ := hcond
    rw [handlerFault_conditional hcond]
    exact onlyStops_firstFault ⟨onlyStops_readFault rfl _,
      onlyStops_ite (fun _ => onlyStops_none) fun _ => onlyStops_readFault rfl _⟩
  | jmp target rel => exact onlyStops_none
  | callNear target rel => exact onlyStops_callFault
  | callFar sel off => exact onlyStops_firstFault ⟨onlyStops_callFault, onlyStops_farCallFault d⟩

/-- The loop of STOSW fails at a read or at the bound of a word, or never ends (R117). -/
theorem stoswLoop_error {n : Nat} (hcfg : u.cfg = s.cfg) (h : stoswLoop n u = .error k) : Stops .stosw [] s k := by
  induction n generalizing u with
  | zero => cases h; exact .endlessLoop rfl
  | succ n ih =>
    have hread : ∀ {r}, readReg r u = .error k → Stops .stosw [] s k := fun {r} h =>
      onlyStops_readFault hcfg (.reg r) k (by rw [← faultOf_readReg, h, faultOf_error])
    rw [stoswLoop, bind_eq_error] at h
    obtain h | ⟨cx, -, h⟩ := h
    · exact hread h
    split at h
    · cases h
    simp only [bind_eq_error] at h
    obtain h | ⟨es, -, h | ⟨di, -, h | ⟨ax, -, h | ⟨t, ht, h⟩⟩⟩⟩ := h
    · exact hread h
    · exact hread h
    · exact hread h
    · obtain ⟨-, rfl⟩ := access_error.mp h
      exact .outOfBounds ..
    · obtain ⟨-, rfl⟩ := memWrite16_ok.mp ht
      exact ih (u := writeReg _ _ (writeReg _ _ (putWord ..))) hcfg h

/-- Whatever an instruction faults with, STOSW included, is one of `Stops`. -/
theorem exec_stops (h : exec i s = .fault k) : Stops (i.decoded s.ip).mnemonic (i.decoded s.ip).ops s k := by
  have hruns := exec_runs i s
  by_cases hstosw : (i.decoded s.ip).mnemonic = .stosw
  · rw [hstosw] at hruns ⊢
    obtain ⟨hops, hx⟩ := runs_stosw hruns
    rw [hx, stoswMeaning, finish_eq_fault, bind_eq_error] at h
    rw [hops]
    obtain h | ⟨t, -, h⟩ := h
    · exact stoswLoop_error rfl h
    · cases h
  · exact runs_onlyStops (.instr i) hruns hstosw k ((exec_endsBy hstosw).eq_some_of_fault h)

theorem runs_ne_refused {q : Refusal} (h : Runs i s m ops r) : r ≠ .refused q := by
  cases h <;> exact finish_ne_refused

/-! ### Every stop of a step -/

/-- A step faults at the fetch, at an entry that is not admitted, or as its instruction does (R90 to R92). -/
theorem step_fault (h : step s = .fault k) :
    fetch s = .error k ∨ (∃ d, k = .unsupportedInstruction d) ∨ ∃ i, exec i s = .fault k := by
  unfold step at h
  split at h
  · cases h
  · split at h
    · cases h
      exact .inl ‹_›
    · cases h
      exact .inr (.inl ⟨_, rfl⟩)
    · split at h
      · exact .inr (.inr ⟨_, h⟩)
      · cases h
        exact .inr (.inl ⟨_, rfl⟩)

/-- No instruction is refused, so the only refusal is that of a faulted context (R30, R133). -/
theorem step_refused {q : Refusal} (h : step s = .refused q) : ∃ k, s.status = .faulted k ∧ q = .contextFaulted k := by
  unfold step at h
  split at h
  · cases h
    exact ⟨_, ‹_›, rfl⟩
  · split at h
    · cases h
    · cases h
    · split at h
      · exact absurd h (runs_ne_refused (exec_runs _ s))
      · cases h

/-- How a fetch fails (R39, R91). -/
theorem fetch_error (h : fetch s = .error k) :
    (∃ item, s.cfg.resetRegs ≠ .draw ∧ k = .uninitialisedRead item) ∨ (∃ g o, k = .segmentFault g o) ∨
      ∃ g o, k = .invalidControlFlow g o := by
  have hdraw : ∀ {item}, canRead item s = false → s.cfg.resetRegs ≠ .draw := fun hread hdraw =>
    absurd (canRead_of_draw hdraw _) (Bool.eq_false_iff.mp hread)
  simp only [fetch, bind_eq_error] at h
  obtain h | ⟨cs, -, h | ⟨ip, -, h⟩⟩ := h
  · obtain ⟨hread, rfl⟩ := readReg_error.mp h
    exact .inl ⟨_, hdraw hread, rfl⟩
  · obtain ⟨hread, rfl⟩ := readItem_error.mp h
    exact .inl ⟨_, hdraw hread, rfl⟩
  · split at h
    · cases h
      exact .inr (.inl ⟨_, _, rfl⟩)
    · split at h
      · cases h
        exact .inr (.inr ⟨_, _, rfl⟩)
      · cases h

/-- The codes of the faults of an instruction (R128). -/
theorem Stops.code (h : Stops m ops s k) : k = .diverges ∨ k.code = some 1 ∨ k.code = some 2 ∨ k.code = some 6 ∨
    k.code = some 8 ∨ k.code = some 9 := by
  cases h <;> simp [Fault.code]

/-- Settles O49: `exec_stops` for the instruction, `fetch_error` for what comes before it, `step_refused` for the refusal. -/
theorem stepStopsOnlyAsTheSpecSays : Obligations.StepStopsOnlyAsTheSpecSays := by
  intro s
  refine ⟨fun k h => ?_, fun item hdraw h => ?_, fun i h => ?_, fun _ => step_refused⟩
  · obtain h | ⟨d, rfl⟩ | ⟨i, h⟩ := step_fault h
    · obtain ⟨item, -, rfl⟩ | ⟨g, o, rfl⟩ | ⟨g, o, rfl⟩ := fetch_error h <;> simp [Fault.code]
    · exact .inr (.inl rfl)
    · have hcode := (exec_stops h).code
      tauto
  · obtain h | ⟨d, hd⟩ | ⟨i, h⟩ := step_fault h
    · obtain ⟨_, hne, -⟩ | ⟨g, o, hk⟩ | ⟨g, o, hk⟩ := fetch_error h
      · exact hne hdraw
      · cases hk
      · cases hk
    · cases hd
    · cases exec_stops h with
      | unwritten item hne => exact hne hdraw
  · cases exec_stops h with
    | endlessLoop hm => exact .inl hm
    | endlessRead a ha hhost hnone => exact .inr (.inl ⟨a, ha, hhost, hnone⟩)
    | endlessCallback f g hr hnever => exact .inr (.inr ⟨f, g, hr, hnever⟩)

end Sys2Proof.Proofs
